-- ==== Sys2Proof/Word.lean ====
section
/-! DEFINITION. The words the block computes on: bytes, 32-bit words, binary32 patterns, IQ samples, NaN patterns. -/

namespace Sys2Proof

/-- `u8` of 00_scope.md R8: an IQ component byte, a frame byte, the A field. -/
abbrev Byte := BitVec 8

/-- `u32` of 00_scope.md R8: a command word, a CSR value, a Word payload. -/
abbrev Word := BitVec 32

/-- A binary32 value, held as its bit pattern (00_scope.md R10, 10_state.md R40): `bits` and `f32` of R10 are
the identity, and `-0`, infinities and every NaN pattern stay apart. -/
abbrev F32 := BitVec 32

/-- One complex baseband sample `(I, Q)` (00_scope.md R9, GLOSSARY). -/
structure IQ where
  i : F32
  q : F32
deriving DecidableEq, Repr, Inhabited

/-- A binary32 NaN: any sign and any fraction but 0 (00_scope.md R10). `below` is the fraction less one, so
that every value of this type is a NaN and every NaN is a value of it. -/
structure NaN where
  sign  : BitVec 1
  below : Fin 8388607
deriving DecidableEq, Repr, Inhabited

/-- The pattern of a NaN: sign bit 31, exponent bits 30:23 all ones, fraction bits 22:0 not 0. -/
def NaN.pattern (n : NaN) : F32 :=
  n.sign ++ (0xFF#8 : BitVec 8) ++ (BitVec.ofNat 23 (n.below.val + 1))

end Sys2Proof
end

