-- ==== Sys2Proof/Config.lean ====
section
/-! DEFINITION. The implementation parameters the spec leaves OPEN (00_scope.md R7): constants with no body, so
that nothing proved of the model depends on a value of one. -/

namespace Sys2Proof

/-- The parameter MAX_LEN (00_scope.md R7, 30_encoding.md R106): "a positive integer, or unbounded".
`bounded below` is the bound `below + 1`, so that the bound is positive. -/
inductive MaxLen where
  | unbounded
  | bounded (below : Nat)
deriving DecidableEq, Repr, Inhabited

/-- The two orders a transport may serialise a 32-bit value in (00_scope.md R7, 20_memory.md R75). -/
inductive ByteOrder where
  | bigEndian
  | littleEndian
deriving DecidableEq, Repr, Inhabited

/-- ATAN2 (00_scope.md R7, R14): a total function of its two operands `y`, `x` alone, otherwise open. Log 6. -/
opaque Config.atan2 : F32 → F32 → F32

/-- NAN_OUT (00_scope.md R7, R13): the NaN that draw number `k` gives. A free value. Log 5. -/
opaque Config.nanOut : Nat → NaN

/-- MAX_LEN of this block (00_scope.md R7). Log 7. -/
opaque Config.maxLen : MaxLen

/-- WORD_BYTE_ORDER (00_scope.md R7, 20_memory.md R75): no rule of the block depends on it. Log 9. -/
opaque Config.wordByteOrder : ByteOrder

/-! The numeric tuner opcodes, "externally defined" (00_scope.md R7, 30_encoding.md R108): used by the
pseudo-commands of R112 only. Log 8. -/

/-- OPC_SET_FREQ, parameter in Hz. -/
opaque Config.opcSetFreq : Byte
/-- OPC_SET_RATE, parameter in Hz. -/
opaque Config.opcSetRate : Byte
/-- OPC_SET_GAIN_MODE, 0 automatic, 1 manual. -/
opaque Config.opcSetGainMode : Byte
/-- OPC_SET_GAIN, parameter in tenths of a dB. -/
opaque Config.opcSetGain : Byte
/-- OPC_SET_TUNER_AGC, 0 or 1. -/
opaque Config.opcSetTunerAgc : Byte
/-- OPC_SET_DEV_AGC, 0 or 1. -/
opaque Config.opcSetDevAgc : Byte

/-! The de-emphasis time constant `RC`, 75 µs exactly, as the rational `rcNum / rcDen` seconds
(00_scope.md R7, 44_deemphasis.md R224). -/

/-- Numerator of `RC` in seconds. -/
def Config.rcNum : Nat := 75
/-- Denominator of `RC` in seconds. -/
def Config.rcDen : Nat := 1000000

end Sys2Proof
end

