-- ==== Sys2Proof/Machine/Float.lean ====
section
/-! DEFINITION. binary32 arithmetic (00_scope.md R10 to R14). A finite binary32 value is a whole number of units
of 2^-149, the smallest subnormal; sums, products and quotients are formed exactly over the integers and
rounded once. Log 10. -/

namespace Sys2Proof.Machine

open Sys2Proof

/-- Bit 31 (R10). -/
def signBit (x : F32) : Bool := x.msb

/-- The pattern without its sign bit: bits 30:0. -/
def magBits (x : F32) : Nat := x.toNat % 2 ^ 31

/-- Biased exponent, bits 30:23 (R10). -/
def expField (x : F32) : Nat := magBits x / 2 ^ 23

/-- Fraction, bits 22:0 (R10). -/
def fracField (x : F32) : Nat := magBits x % 2 ^ 23

/-- The pattern of +inf, without sign: exponent all ones, fraction 0. -/
def infMag : Nat := 255 * 2 ^ 23

/-- Exponent all ones and a fraction that is not 0 (R10). -/
def isNaN (x : F32) : Bool := decide (infMag < magBits x)

/-- Plus or minus infinity (R10). -/
def isInf (x : F32) : Bool := decide (magBits x = infMag)

/-- Neither an infinity nor a NaN. -/
def isFinite (x : F32) : Bool := decide (magBits x < infMag)

/-- `|x|` in units of 2^-149, for finite `x` (R10): subnormals have the scale of exponent 1. -/
def magUnits (x : F32) : Nat :=
  if expField x = 0 then fracField x else (2 ^ 23 + fracField x) * 2 ^ (expField x - 1)

/-- A finite `x` in units of 2^-149. -/
def signedUnits (x : F32) : Int :=
  if signBit x then -(magUnits x : Int) else (magUnits x : Int)

/-- The pattern of a sign and a magnitude pattern. -/
def packMag (neg : Bool) (mag : Nat) : F32 :=
  BitVec.ofNat 32 ((if neg then 2 ^ 31 else 0) + mag)

/-- The whole number nearest to `num / den`, ties to the even one (R12). -/
def roundEven (num den : Nat) : Nat :=
  let r := num / den
  let rest := 2 * (num % den)
  if den < rest ∨ (rest = den ∧ r % 2 = 1) then r + 1 else r

/-- The magnitude pattern nearest to `num / den` units of 2^-149 (R12). In the binade of `num / den` values stand
`2^k` units apart (`k = 0` for subnormals too); the significand, rounded, is added to the exponent, so that a
carry moves to the next binade, and from 2^128 - 2^103 on the result is infinite. -/
def roundMag (num den : Nat) : Nat :=
  let k := (num / den).log2 - 23
  min (k * 2 ^ 23 + roundEven num (den * 2 ^ k)) infMag

/-- `rnd32` of the rational `± num / den` (R12); `rnd32(0) = +0`. -/
def rnd32 (neg : Bool) (num den : Nat) : F32 :=
  if num = 0 then 0 else packMag neg (roundMag (num * 2 ^ 149) den)

/-- The binary32 value 1.0 (R11). -/
def one : F32 := 0x3F800000

/-- The DC offset 127.5 (R11, 41_iq_decoder.md R160). -/
def dcOffset : F32 := 0x42FF0000

/-- `f32_of_u8` (R11). -/
def f32OfU8 (b : Byte) : F32 := rnd32 false b.toNat 1

/-- The NaN of draw `d`: what an operation whose result is a NaN returns (R13, NAN_OUT). -/
def drawNaN (d : Nat) : F32 := (Config.nanOut d).pattern

/-- The value with the other sign. -/
def fneg (x : F32) : F32 := x ^^^ 0x80000000

/-- `fabs` (R14): the sign bit cleared, on NaNs too. -/
def fabs (x : F32) : F32 := x &&& 0x7FFFFFFF

/-- `fadd(a, b)` (R13), its NaN being draw `d`: one rounding of the exact sum; an exact zero sum is `+0` but for
`(-0) + (-0) = -0`. -/
def fadd (d : Nat) (a b : F32) : F32 :=
  if isNaN a ∨ isNaN b then drawNaN d
  else if isInf a then (if isInf b ∧ signBit a ≠ signBit b then drawNaN d else a)
  else if isInf b then b
  else
    let sum := signedUnits a + signedUnits b
    if sum = 0 then packMag (signBit a && signBit b) 0
    else packMag (decide (sum < 0)) (roundMag sum.natAbs 1)

/-- `fsub(a, b)` (R13): IEEE 754 subtraction is addition of the negated second operand. Log 11. -/
def fsub (d : Nat) (a b : F32) : F32 := fadd d a (fneg b)

/-- `fmul(a, b)` (R13), its NaN being draw `d`: one rounding of the exact product, signs by XOR, zero times
infinity a NaN. -/
def fmul (d : Nat) (a b : F32) : F32 :=
  let neg := signBit a ^^ signBit b
  if isNaN a ∨ isNaN b then drawNaN d
  else if isInf a then (if magBits b = 0 then drawNaN d else packMag neg infMag)
  else if isInf b then (if magBits a = 0 then drawNaN d else packMag neg infMag)
  else packMag neg (roundMag (magUnits a * magUnits b) (2 ^ 149))

/-- A number ordered as the non-NaN values are, `-0` and `+0` alike. -/
def orderKey (x : F32) : Int :=
  if signBit x then -(magBits x : Int) else (magBits x : Int)

/-- `flt(a, b)` (R14): neither is a NaN and `a < b` as reals. -/
def flt (a b : F32) : Bool :=
  !isNaN a && !isNaN b && decide (orderKey a < orderKey b)

end Sys2Proof.Machine
end

