-- ==== Sys2Proof/Syntax.lean ====
section
/-! DEFINITION. The commands, payloads, CSR names and pseudo-commands of the WRA-CORE command set, version 1
(30_encoding.md R100 to R112). -/

namespace Sys2Proof

/-- The ten commands (30_encoding.md R101, spec/opcode_table.json), each with what its A field carries (R102):
the tuner opcode of ENCODE, the CSR number of CSRR and CSRW. The payload travels beside the command word and
is no part of the instruction. -/
inductive Instr where
  | encode (opc : Byte)
  | iqdec
  | fmdemod
  | squelch
  | deemph
  | resample
  | process
  | rstate
  | csrr (n : Byte)
  | csrw (n : Byte)
deriving DecidableEq, Repr

/-- A payload is exactly one of five kinds (30_encoding.md R105). -/
inductive Payload where
  | none
  | word  (v : Word)
  | bytes (s : List Byte)
  | iq    (s : List IQ)
  | f32   (s : List F32)
deriving DecidableEq, Repr

/-- The kinds of R105. -/
inductive PayloadKind where
  | none | word | bytes | iq | f32
deriving DecidableEq, Repr

/-- The kind of a payload. -/
def Payload.kind : Payload → PayloadKind
  | .none    => .none
  | .word _  => .word
  | .bytes _ => .bytes
  | .iq _    => .iq
  | .f32 _   => .f32

/-- What MAX_LEN counts (30_encoding.md R106): bytes, IQ pairs or binary32 values; `None` and `Word` are no
sequences and count nothing. -/
def Payload.length : Payload → Nat
  | .none    => 0
  | .word _  => 0
  | .bytes s => s.length
  | .iq s    => s.length
  | .f32 s   => s.length

/-- One command as the command port receives it: a 32-bit command word and one payload (20_memory.md R71,
30_encoding.md R110). -/
structure Command where
  word    : Word
  payload : Payload
deriving DecidableEq, Repr

/-- The implemented control and status registers, in the order of their numbers 0x00 to 0x0C
(10_state.md R32). -/
inductive Csr where
  | mode | fsIn | fsOut | sqThresh | bufBytes | status
  | alpha | deY | rsNum | rsLb | dmPrevI | dmPrevQ | svalid
deriving DecidableEq, Repr

/-- The assembler's pseudo-commands (30_encoding.md R112). -/
inductive Pseudo where
  | tune     (hz : Word)
  | setRate  (hz : Word)
  | gainMode (m : Word)
  | gain     (tenthsDb : Word)
  | tunerAgc (v : Word)
  | devAgc   (v : Word)
  | clrStatus
  | setMode  (m : Word)
  | session  (fin fout : Word)
deriving DecidableEq, Repr

end Sys2Proof
end

