-- ==== Sys2Proof/Decode.lean ====
section
/-! DEFINITION. Decoding and encoding of command words (30_encoding.md R100 to R104), the expected payload kinds
(R101), the CSR numbers (10_state.md R32), the pseudo-commands (R112) and the inverse of the command frame
(40_command_encoder.md R141). -/

namespace Sys2Proof

/-- Field OP, bits 7:0 (30_encoding.md R100). -/
def opField (w : Word) : Byte := w.extractLsb' 0 8

/-- Field A, bits 15:8 (R100). -/
def argField (w : Word) : Byte := w.extractLsb' 8 8

/-- Field RES, bits 31:16 (R100). -/
def resField (w : Word) : BitVec 16 := w.extractLsb' 16 16

/-- Why a command word is illegal (30_encoding.md R104). The names are the model's; all four raise
ILLEGAL_COMMAND. Log 17. -/
inductive IllegalWord where
  | reservedNotZero   -- RES ≠ 0
  | opZero            -- OP = 0x00
  | opUnassigned      -- OP ≥ 0x0B
  | argNotZero        -- A ≠ 0 with OP in 0x02..0x08
deriving DecidableEq, Repr

/-- A command that takes no argument: its A field must be 0 (R102). -/
def withoutArg (a : Byte) (i : Instr) : Except IllegalWord Instr :=
  if a = 0 then .ok i else .error .argNotZero

/-- The operation map (30_encoding.md R101) with its unassigned codes (R104), for a word whose RES is 0. -/
def decodeOp (op a : Byte) : Except IllegalWord Instr :=
  match op.toNat with
  | 0x00 => .error .opZero
  | 0x01 => .ok (.encode a)
  | 0x02 => withoutArg a .iqdec
  | 0x03 => withoutArg a .fmdemod
  | 0x04 => withoutArg a .squelch
  | 0x05 => withoutArg a .deemph
  | 0x06 => withoutArg a .resample
  | 0x07 => withoutArg a .process
  | 0x08 => withoutArg a .rstate
  | 0x09 => .ok (.csrr a)
  | 0x0A => .ok (.csrw a)
  | _    => .error .opUnassigned

/-- The decoder over the whole word (30_encoding.md R104): total on all 2^32 words. -/
def decodeWord (w : Word) : Except IllegalWord Instr :=
  if resField w = 0 then decodeOp (opField w) (argField w) else .error .reservedNotZero

/-- The operation code of a command (30_encoding.md R101). -/
def Instr.op : Instr → Byte
  | .encode _ => 0x01
  | .iqdec    => 0x02
  | .fmdemod  => 0x03
  | .squelch  => 0x04
  | .deemph   => 0x05
  | .resample => 0x06
  | .process  => 0x07
  | .rstate   => 0x08
  | .csrr _   => 0x09
  | .csrw _   => 0x0A

/-- The A field of a command (30_encoding.md R102). -/
def Instr.arg : Instr → Byte
  | .encode opc => opc
  | .csrr n     => n
  | .csrw n     => n
  | .iqdec | .fmdemod | .squelch | .deemph | .resample | .process | .rstate => 0

/-- The command word of a command: RES = 0, A, OP, most significant first (30_encoding.md R100). -/
def encode (i : Instr) : Word := (0#16 : BitVec 16) ++ i.arg ++ i.op

/-- The payload kind a command expects (30_encoding.md R101, column "payload in"). -/
def Instr.expects : Instr → PayloadKind
  | .encode _ => .word
  | .iqdec    => .bytes
  | .fmdemod  => .iq
  | .squelch  => .f32
  | .deemph   => .f32
  | .resample => .f32
  | .process  => .bytes
  | .rstate   => .none
  | .csrr _   => .none
  | .csrw _   => .word

/-- A payload of a kind with nothing in it: an empty sequence, the word 0, or `None`. -/
def PayloadKind.blank : PayloadKind → Payload
  | .none  => .none
  | .word  => .word 0
  | .bytes => .bytes []
  | .iq    => .iq []
  | .f32   => .f32 []

/-- The host's question: what the decoder reads from a command word given as a number. The command word is
the whole instruction; bits at or above `nbits` are 0. -/
def decodeTableWord (nbits w : Nat) : Option Instr :=
  match decodeWord (BitVec.ofNat 32 (w % 2 ^ nbits)) with
  | .ok i    => some i
  | .error _ => none

/-- The CSR of a number (10_state.md R32); numbers 0x0D to 0xFF are reserved. -/
def Csr.ofNumber (n : Byte) : Option Csr :=
  match n.toNat with
  | 0x00 => some .mode
  | 0x01 => some .fsIn
  | 0x02 => some .fsOut
  | 0x03 => some .sqThresh
  | 0x04 => some .bufBytes
  | 0x05 => some .status
  | 0x06 => some .alpha
  | 0x07 => some .deY
  | 0x08 => some .rsNum
  | 0x09 => some .rsLb
  | 0x0A => some .dmPrevI
  | 0x0B => some .dmPrevQ
  | 0x0C => some .svalid
  | _    => none

/-- The number of a CSR (10_state.md R32). -/
def Csr.number : Csr → Byte
  | .mode     => 0x00
  | .fsIn     => 0x01
  | .fsOut    => 0x02
  | .sqThresh => 0x03
  | .bufBytes => 0x04
  | .status   => 0x05
  | .alpha    => 0x06
  | .deY      => 0x07
  | .rsNum    => 0x08
  | .rsLb     => 0x09
  | .dmPrevI  => 0x0A
  | .dmPrevQ  => 0x0B
  | .svalid   => 0x0C

/-- Access RW of 10_state.md R32: the CSRs a `CSRW` may name. -/
def Csr.writable : Csr → Bool
  | .mode | .fsIn | .fsOut | .sqThresh | .bufBytes | .status => true
  | .alpha | .deY | .rsNum | .rsLb | .dmPrevI | .dmPrevQ | .svalid => false

/-- A line of assembly is the command word plus the payload (30_encoding.md R111). -/
def assemble (i : Instr) (p : Payload) : Command := ⟨encode i, p⟩

/-- The expansions of the pseudo-commands (30_encoding.md R112). -/
def Pseudo.expand : Pseudo → List Command
  | .tune hz        => [assemble (.encode Config.opcSetFreq) (.word hz)]
  | .setRate hz     => [assemble (.encode Config.opcSetRate) (.word hz)]
  | .gainMode m     => [assemble (.encode Config.opcSetGainMode) (.word m)]
  | .gain db        => [assemble (.encode Config.opcSetGain) (.word db)]
  | .tunerAgc v     => [assemble (.encode Config.opcSetTunerAgc) (.word v)]
  | .devAgc v       => [assemble (.encode Config.opcSetDevAgc) (.word v)]
  | .clrStatus      => [assemble (.csrw Csr.status.number) (.word 0)]
  | .setMode m      => [assemble (.csrw Csr.mode.number) (.word m)]
  | .session fi fo  =>
      [assemble (.csrw Csr.fsIn.number) (.word fi), assemble (.csrw Csr.fsOut.number) (.word fo),
        assemble .rstate .none]

/-- `frame_decode` of 40_command_encoder.md R141: opcode and big-endian parameter of a 5-byte sequence; it
answers nothing on a sequence of another length. No command of the block. -/
def frameDecode : List Byte → Option (Byte × Word)
  | [o, b1, b2, b3, b4] => some (o, b1 ++ b2 ++ b3 ++ b4)
  | _ => none

/-- How a transport lays a 32-bit value out in bytes, first byte first (20_memory.md R75). No rule of the
block uses it. -/
def transportBytes (order : ByteOrder) (v : Word) : List Byte :=
  let big : List Byte := [v.extractLsb' 24 8, v.extractLsb' 16 8, v.extractLsb' 8 8, v.extractLsb' 0 8]
  match order with
  | .bigEndian    => big
  | .littleEndian => big.reverse

end Sys2Proof
end

