-- ==== Sys2Proof/Machine/State.lean ====
section
/-! DEFINITION. The state of the block (10_state.md R48), its fault codes and responses, what the host sends, and
the state after reset (70_reset_and_hazards.md R340). -/

namespace Sys2Proof.Machine

open Sys2Proof

/-- The five fault codes (60_exceptions.md R300), in the order of their numbers. Each is a response of the block
and a NEXT state of the model, never a stop. -/
inductive FaultCode where
  | illegalCommand    -- 0x01
  | operandFormat     -- 0x02
  | illegalCsr        -- 0x03
  | config            -- 0x04
  | streamIntegrity   -- 0x05
deriving DecidableEq, Repr

/-- What the response port returns for a command (20_memory.md R71, 60_exceptions.md R301). -/
inductive Response where
  | ok    (p : Payload)
  | fault (c : FaultCode)
deriving DecidableEq, Repr

/-- What can reach the block from outside: a command, the reset input between commands, or the reset input
while command `c` is in progress (70_reset_and_hazards.md R340). Log 1, 14. -/
inductive HostInput where
  | command (c : Command)
  | reset
  | resetDuring (c : Command)
deriving DecidableEq, Repr

/-- STATUS (10_state.md R38): the fault latch. Its reserved bits read 0 and hold nothing. -/
structure Status where
  fault    : Bool
  overflow : Bool
  errCode  : Byte
deriving DecidableEq, Repr

/-- STATUS after reset and after any `CSRW STATUS` (10_state.md R38): 0. -/
def Status.clear : Status := ⟨false, false, 0⟩

/-- All the block holds (10_state.md R48), and after it the model's own fields: the implementation parameter
MAX_LEN, the number of the next NaN draw, what the host sends and what has been answered. Log 21. -/
structure State where
  /-- MODE bits 2:0 (10_state.md R33): 0 DE_CONT, 1 RS_CONT, 2 DM_CONT; bits 31:3 do not exist. -/
  mode      : BitVec 3
  /-- FS_IN, intermediate sample rate in Hz (10_state.md R34). -/
  fsIn      : Word
  /-- FS_OUT, target audio rate in Hz (10_state.md R35). -/
  fsOut     : Word
  /-- SQ_THRESH, a binary32 pattern (10_state.md R36). -/
  sqThresh  : F32
  /-- BUF_BYTES (10_state.md R37); bit 0 is hardwired 0, which `csrWrite` keeps. -/
  bufBytes  : Word
  /-- STATUS (10_state.md R38). -/
  status    : Status
  /-- DE_Y, the de-emphasis state (10_state.md R41). -/
  deY       : F32
  /-- RS_NUM, the resampler cursor numerator (10_state.md R42). -/
  rsNum     : Word
  /-- RS_LB, the resampler lookback sample (10_state.md R43). -/
  rsLb      : F32
  /-- RS_LBV, its valid bit (10_state.md R43). -/
  rsLbv     : Bool
  /-- DM_PREV, the demodulator lookback sample (10_state.md R44). -/
  dmPrev    : IQ
  /-- DM_PREVV, its valid bit (10_state.md R44). -/
  dmPrevv   : Bool
  /-- The implementation parameter MAX_LEN (00_scope.md R7); no step changes it. Log 7. -/
  maxLen    : MaxLen
  /-- The number of the next NAN_OUT draw (00_scope.md R13). The model's own. Log 5. -/
  nanDraws  : Nat
  /-- What the host sends, in order of arrival; the head is on the command port. The model's own. Log 1. -/
  hostIn    : List HostInput
  /-- The responses returned so far, oldest first (70_reset_and_hazards.md R353). The model's own. Log 2. -/
  responses : List Response
deriving DecidableEq, Repr

/-- The state right after reset of a block whose MAX_LEN is `m` (70_reset_and_hazards.md R340): no register is
left unspecified. The values of the model's own fields are log 3. -/
def State.resetWith (m : MaxLen) : State where
  mode      := 3#3
  fsIn      := 0
  fsOut     := 0
  sqThresh  := 0
  bufBytes  := 0
  status    := Status.clear
  deY       := 0
  rsNum     := 0
  rsLb      := 0
  rsLbv     := false
  dmPrev    := ⟨0, 0⟩
  dmPrevv   := false
  maxLen    := m
  nanDraws  := 0
  hostIn    := []
  responses := []

/-- The block right after reset (70_reset_and_hazards.md R340), with the open parameter MAX_LEN. -/
def State.reset : State := State.resetWith Config.maxLen

/-- Why the machine would stop. NOTHING raises one: "Nothing in the block is `stuck` or `refuse`"
(93_implementation_defined.md, part 1), so the type has no constructor. The five fault codes of
60_exceptions.md R300 are responses (`FaultCode`), after which the block goes on (R305). Log 12. -/
inductive Fault where
deriving DecidableEq, Repr

/-- Why the model would have no meaning for an instruction. -/
inductive Refusal where
  /-- An arm of `exec` whose instruction has no meaning yet. No arm answers it: every command is modelled.
  Safe where raised (the model stops). -/
  | notModelled (mnemonic : String)
deriving DecidableEq, Repr

end Sys2Proof.Machine
end

