-- ==== Sys2Proof/Machine/Flags.lean ====
section
/-! DEFINITION. The only flags of the block, those of STATUS (10_state.md R38, R46): their codes, their update on a
fault (60_exceptions.md R302) and the word they read as (46_pipeline_and_control.md R272). -/

namespace Sys2Proof.Machine

open Sys2Proof

/-- The 8-bit code of a fault (60_exceptions.md R300). -/
def FaultCode.code : FaultCode → Byte
  | .illegalCommand  => 0x01
  | .operandFormat   => 0x02
  | .illegalCsr      => 0x03
  | .config          => 0x04
  | .streamIntegrity => 0x05

/-- `on_fault(c)` of 60_exceptions.md R302: the first fault sets FAULT and ERR_CODE, a later one OVERFLOW only. -/
def Status.onFault (c : FaultCode) (st : Status) : Status :=
  if st.fault then { st with overflow := true } else { st with fault := true, errCode := c.code }

/-- The word STATUS reads as (46_pipeline_and_control.md R272): `{16'b0, ERR_CODE, 6'b0, OVERFLOW, FAULT}`. -/
def Status.word (st : Status) : Word :=
  (0#16 : BitVec 16) ++ st.errCode ++ (0#6 : BitVec 6) ++ BitVec.ofBool st.overflow ++ BitVec.ofBool st.fault

end Sys2Proof.Machine
end

