-- ==== Sys2Proof/Machine/Ops.lean ====
section
/-! DEFINITION. The shared operations on State: the payload on the command port, answering a command, taking a fault
(60_exceptions.md R301 to R304), resetting stream state (10_state.md R47, 46_pipeline_and_control.md R271,
70_reset_and_hazards.md R340), and counting NaN draws. There is no return from a fault (60_exceptions.md R306). -/

namespace Sys2Proof.Machine

open Sys2Proof

/-- What a command answers with: always a next state. -/
abbrev Result := Host.Outcome State Fault Refusal

/-- MODE.DE_CONT (10_state.md R33). -/
def State.deCont (s : State) : Bool := s.mode.getLsbD 0

/-- MODE.RS_CONT (10_state.md R33). -/
def State.rsCont (s : State) : Bool := s.mode.getLsbD 1

/-- MODE.DM_CONT (10_state.md R33). -/
def State.dmCont (s : State) : Bool := s.mode.getLsbD 2

/-- The payload on the command port (20_memory.md R71); `None` where no command is there. Log 13. -/
def State.payload (s : State) : Payload :=
  match s.hostIn with
  | .command c :: _ => c.payload
  | .reset :: _ | .resetDuring _ :: _ | [] => .none

/-- Return a response and free the command port for the next command (20_memory.md R71). -/
def State.respond (r : Response) (s : State) : State :=
  { s with hostIn := s.hostIn.tail, responses := s.responses ++ [r] }

/-- TAKING A FAULT (60_exceptions.md R301, R302, R304): STATUS latches the code and the response is `Fault(code)`;
nothing else changes. -/
def State.takeFault (c : FaultCode) (s : State) : State :=
  State.respond (.fault c) { s with status := s.status.onFault c }

/-- A command that faults: the next state is the one after taking the fault. -/
def faulted (c : FaultCode) (s : State) : Result := .next (s.takeFault c)

/-- A command that completes with result payload `p` (20_memory.md R71). -/
def completed (p : Payload) (s : State) : Result := .next (s.respond (.ok p))

/-- `reset_resampler_state()` (46_pipeline_and_control.md R273, 10_state.md R47). -/
def State.resetResampler (s : State) : State :=
  { s with rsNum := 0, rsLb := 0, rsLbv := false }

/-- `reset_stream_state()` (46_pipeline_and_control.md R271, R273): every stream-state register. -/
def State.resetStream (s : State) : State :=
  { s.resetResampler with deY := 0, dmPrev := ⟨0, 0⟩, dmPrevv := false }

/-- The reset input (70_reset_and_hazards.md R340): every register takes its reset value; the block returns no
response. What the host still sends, what was answered and the draws so far are no state of the block. Log 14. -/
def State.takeReset (s : State) : State :=
  { State.resetWith s.maxLen with
      nanDraws := s.nanDraws, hostIn := s.hostIn.tail, responses := s.responses }

/-- `k` more binary32 operations have had their NaN draws. Log 5. -/
def State.drew (k : Nat) (s : State) : State := { s with nanDraws := s.nanDraws + k }

end Sys2Proof.Machine
end

