-- ==== Sys2Proof/Machine/Operands.lean ====
section
/-! DEFINITION. The operand forms: a payload of each kind (30_encoding.md R105), within MAX_LEN (R106). `none` is the
check that raises OPERAND_FORMAT. -/

namespace Sys2Proof.Machine

open Sys2Proof

/-- The sequence length `n` is over MAX_LEN (30_encoding.md R106). MAX_LEN is positive, so lengths 0 and 1 always
fit. -/
def State.tooLong (s : State) (n : Nat) : Bool :=
  decide (1 < n) &&
    (match s.maxLen with
     | .unbounded     => false
     | .bounded below => decide (below + 1 < n))

/-- The payload is `None`. -/
def State.noOperand (s : State) : Bool :=
  match s.payload with
  | .none => true
  | .word _ | .bytes _ | .iq _ | .f32 _ => false

/-- A Word payload. -/
def State.wordOperand (s : State) : Option Word :=
  match s.payload with
  | .word v => some v
  | .none | .bytes _ | .iq _ | .f32 _ => none

/-- A Bytes payload within MAX_LEN. -/
def State.bytesOperand (s : State) : Option (List Byte) :=
  match s.payload with
  | .bytes b => if s.tooLong b.length then none else some b
  | .none | .word _ | .iq _ | .f32 _ => none

/-- An IQ payload within MAX_LEN. -/
def State.iqOperand (s : State) : Option (List IQ) :=
  match s.payload with
  | .iq x => if s.tooLong x.length then none else some x
  | .none | .word _ | .bytes _ | .f32 _ => none

/-- An F32 payload within MAX_LEN. -/
def State.f32Operand (s : State) : Option (List F32) :=
  match s.payload with
  | .f32 x => if s.tooLong x.length then none else some x
  | .none | .word _ | .bytes _ | .iq _ => none

end Sys2Proof.Machine
end

