-- ==== Sys2Proof/Machine/DeEmphasis.lean ====
section
/-! DEFINITION. The DeEmphasisFilter: DEEMPH (44_deemphasis.md). -/

namespace Sys2Proof.Machine

open Sys2Proof

/-- `alpha(fs)` (44_deemphasis.md R220): the exact rational `40000 / (40000 + 3 fs)` rounded once. -/
def alpha (fs : Nat) : F32 := rnd32 false 40000 (40000 + 3 * fs)

/-- `beta(fs) = fsub(1.0, alpha(fs))` (44_deemphasis.md R220). The result is never a NaN, so the draw `d` is never
used. -/
def beta (d fs : Nat) : F32 := fsub d one (alpha fs)

/-- The number of binary32 operations in one step of the recurrence. -/
def deemphOps : Nat := 3

/-- The recurrence of 44_deemphasis.md R221 from previous output `y`: the outputs, in order. -/
def deemphSeq (a b : F32) (d : Nat) (y : F32) : List F32 → List F32
  | []     => []
  | x :: w =>
    let y' := fadd (d + 2) (fmul d a x) (fmul (d + 1) b y)
    y' :: deemphSeq a b (d + deemphOps) y' w

/-- `output[-1]` (44_deemphasis.md R221, R222): the carried state, or `+0` with DE_CONT = 0. -/
def State.deStart (s : State) : F32 := if s.deCont then s.deY else 0

/-- The body of DEEMPH (44_deemphasis.md R221): the outputs, and the state after them. -/
def deemphBody (x : List F32) (s : State) : List F32 × State :=
  let fs := s.fsIn.toNat
  let out := deemphSeq (alpha fs) (beta s.nanDraws fs) s.nanDraws s.deStart x
  (out, { s with deY := out.getLastD s.deStart }.drew (deemphOps * x.length))

/-- DEEMPH (44_deemphasis.md R221). -/
def execDeemph (s : State) : Result :=
  match s.f32Operand with
  | none   => faulted .operandFormat s
  | some x =>
    if s.fsIn = 0 then faulted .config s
    else completed (.f32 (deemphBody x s).1) (deemphBody x s).2

end Sys2Proof.Machine
end

