-- ==== Sys2Proof/Machine/Control.lean ====
section
/-! DEFINITION. The control commands: RSTATE, CSRR, CSRW (46_pipeline_and_control.md R271 to R273). -/

namespace Sys2Proof.Machine

open Sys2Proof

/-- `csr_value(n)` (46_pipeline_and_control.md R272). -/
def csrValue (s : State) : Csr → Word
  | .mode     => s.mode.zeroExtend 32
  | .fsIn     => s.fsIn
  | .fsOut    => s.fsOut
  | .sqThresh => s.sqThresh
  | .bufBytes => s.bufBytes
  | .status   => s.status.word
  | .alpha    => if s.fsIn = 0 then 0 else alpha s.fsIn.toNat
  | .deY      => s.deY
  | .rsNum    => s.rsNum
  | .rsLb     => s.rsLb
  | .dmPrevI  => s.dmPrev.i
  | .dmPrevQ  => s.dmPrev.q
  | .svalid   => (0#30 : BitVec 30) ++ BitVec.ofBool s.dmPrevv ++ BitVec.ofBool s.rsLbv

/-- The writes of `CSRW` (46_pipeline_and_control.md R273, 10_state.md R33 to R38 and R47). A read-only CSR is
never written: `execCsrw` faults before. -/
def csrWrite (s : State) (v : Word) : Csr → State
  | .mode     => { s.resetStream with mode := v.extractLsb' 0 3 }
  | .fsIn     => { s.resetResampler with fsIn := v }
  | .fsOut    => { s.resetResampler with fsOut := v }
  | .sqThresh => { s with sqThresh := v }
  | .bufBytes => { s with bufBytes := v.extractLsb' 1 31 ++ (0#1 : BitVec 1) }
  | .status   => { s with status := Status.clear }
  | .alpha | .deY | .rsNum | .rsLb | .dmPrevI | .dmPrevQ | .svalid => s

/-- RSTATE (46_pipeline_and_control.md R271). -/
def execRstate (s : State) : Result :=
  if s.noOperand then completed .none s.resetStream else faulted .operandFormat s

/-- CSRR (46_pipeline_and_control.md R272): the number is checked before the payload. -/
def execCsrr (n : Byte) (s : State) : Result :=
  match Csr.ofNumber n with
  | none   => faulted .illegalCsr s
  | some r => if s.noOperand then completed (.word (csrValue s r)) s else faulted .operandFormat s

/-- CSRW (46_pipeline_and_control.md R273): the number is checked before the payload. -/
def execCsrw (n : Byte) (s : State) : Result :=
  match Csr.ofNumber n with
  | none   => faulted .illegalCsr s
  | some r =>
    if r.writable then
      match s.wordOperand with
      | none   => faulted .operandFormat s
      | some v => completed .none (csrWrite s v r)
    else faulted .illegalCsr s

end Sys2Proof.Machine
end

