-- ==== Sys2Proof/Machine/Encoder.lean ====
section
/-! DEFINITION. The CommandEncoder: ENCODE (40_command_encoder.md). -/

namespace Sys2Proof.Machine

open Sys2Proof

/-- The command frame (30_encoding.md R107): the opcode, then the parameter in big-endian byte order. -/
def frame (o : Byte) (p : Word) : List Byte :=
  [o, p.extractLsb' 24 8, p.extractLsb' 16 8, p.extractLsb' 8 8, p.extractLsb' 0 8]

/-- ENCODE (40_command_encoder.md R140, R142): frames any opcode and any parameter. -/
def execEncode (opc : Byte) (s : State) : Result :=
  match s.wordOperand with
  | none   => faulted .operandFormat s
  | some p => completed (.bytes (frame opc p)) s

end Sys2Proof.Machine
end

