-- ==== Sys2Proof/Machine/Demodulator.lean ====
section
/-! DEFINITION. The FMDemodulator: FMDEMOD (42_fm_demodulator.md). -/

namespace Sys2Proof.Machine

open Sys2Proof

/-- `re` of 42_fm_demodulator.md R180; its three operations have the draws `d` to `d+2`. -/
def discRe (d : Nat) (prev curr : IQ) : F32 :=
  fadd (d + 2) (fmul d curr.i prev.i) (fmul (d + 1) curr.q prev.q)

/-- `im` of 42_fm_demodulator.md R180; its three operations have the draws `d` to `d+2`. -/
def discIm (d : Nat) (prev curr : IQ) : F32 :=
  fsub (d + 2) (fmul d curr.q prev.i) (fmul (d + 1) curr.i prev.q)

/-- `disc(prev, curr)` (42_fm_demodulator.md R180) for a given two-argument arctangent; six operations from
draw `d` on. -/
def discWith (atan2 : F32 → F32 → F32) (d : Nat) (prev curr : IQ) : F32 :=
  atan2 (discIm (d + 3) prev curr) (discRe d prev curr)

/-- `disc(prev, curr)` of this block: with its parameter ATAN2 (00_scope.md R7). -/
def disc (d : Nat) (prev curr : IQ) : F32 := discWith Config.atan2 d prev curr

/-- The number of binary32 operations in one `disc`. -/
def discOps : Nat := 6

/-- The outputs after `prev`: each sample against the one before it. -/
def demodFrom (d : Nat) (prev : IQ) : List IQ → List F32
  | []        => []
  | curr :: w => disc d prev curr :: demodFrom (d + discOps) curr w

/-- `disc(w[k], w[k+1])` for every `k` (42_fm_demodulator.md R181); empty for fewer than two samples. -/
def demodSeq (d : Nat) : List IQ → List F32
  | []        => []
  | prev :: w => demodFrom d prev w

/-- `dm_update(s)` (42_fm_demodulator.md R182). -/
def State.dmUpdate (iq : List IQ) (s : State) : State :=
  if s.dmCont then
    match iq.getLast? with
    | some x => { s with dmPrev := x, dmPrevv := true }
    | none   => s
  else s

/-- The samples FMDEMOD compares: the lookback first, where it is in use and valid (42_fm_demodulator.md R181). -/
def State.demodInput (s : State) (iq : List IQ) : List IQ :=
  if s.dmCont && s.dmPrevv then s.dmPrev :: iq else iq

/-- The body of FMDEMOD (42_fm_demodulator.md R181): the outputs, and the state after them. -/
def fmdemodBody (iq : List IQ) (s : State) : List F32 × State :=
  let out := demodSeq s.nanDraws (s.demodInput iq)
  (out, (s.dmUpdate iq).drew (discOps * out.length))

/-- FMDEMOD (42_fm_demodulator.md R181). -/
def execFmdemod (s : State) : Result :=
  match s.iqOperand with
  | none   => faulted .operandFormat s
  | some x => completed (.f32 (fmdemodBody x s).1) (fmdemodBody x s).2

end Sys2Proof.Machine
end

