-- ==== Sys2Proof/Machine/IqDecoder.lean ====
section
/-! DEFINITION. The IQDecoder: IQDEC (41_iq_decoder.md). -/

namespace Sys2Proof.Machine

open Sys2Proof

/-- `iq_len_ok(n)` (41_iq_decoder.md R161). -/
def State.iqLenOk (s : State) (n : Nat) : Bool :=
  decide (n % 2 = 0) && (decide (s.bufBytes = 0) || decide (n = 0) || decide (n = s.bufBytes.toNat))

/-- One component: `fsub(f32_of_u8(b), 127.5)` (41_iq_decoder.md R160). The result is never a NaN (R162), so the
draw `d` is never used. -/
def iqComponent (d : Nat) (b : Byte) : F32 := fsub d (f32OfU8 b) dcOffset

/-- The body of IQDEC (41_iq_decoder.md R160): byte `2k` is I and byte `2k+1` Q of sample `k`. -/
def iqDecode (d : Nat) : List Byte → List IQ
  | i :: q :: rest => ⟨iqComponent d i, iqComponent d q⟩ :: iqDecode d rest
  | [_] | []       => []

/-- IQDEC (41_iq_decoder.md R160). -/
def execIqdec (s : State) : Result :=
  match s.bytesOperand with
  | none   => faulted .operandFormat s
  | some b =>
    if s.iqLenOk b.length then completed (.iq (iqDecode s.nanDraws b)) s
    else faulted .streamIntegrity s

end Sys2Proof.Machine
end

