-- ==== Sys2Proof/Machine/Resampler.lean ====
section
/-! DEFINITION. The RateConverter: RESAMPLE (45_resampler.md). All index arithmetic is exact, on natural numbers. -/

namespace Sys2Proof.Machine

open Sys2Proof

/-- The number of binary32 operations in one `interp`. -/
def interpOps : Nat := 4

/-- `frac` of 45_resampler.md R240: the exact rational `r / FS_OUT` rounded once. -/
def interpFrac (fo c : Nat) : F32 := rnd32 false (c % fo) fo

/-- `interp(w, c)` (45_resampler.md R240) at rate `fo`, its four operations from draw `d` on; used where
`c / fo + 1` is an index of `w`. -/
def interp (d fo : Nat) (w : List F32) (c : Nat) : F32 :=
  fadd (d + 3)
    (fmul (d + 1) (w.getD (c / fo) 0) (fsub d one (interpFrac fo c)))
    (fmul (d + 2) (w.getD (c / fo + 1) 0) (interpFrac fo c))

/-- Output `i` of the buffer-local algorithm (45_resampler.md R241): interpolated, or clamped to the last sample. -/
def localSample (d fi fo : Nat) (x : List F32) (i : Nat) : F32 :=
  if i * fi / fo + 1 < x.length then interp (d + interpOps * i) fo x (i * fi) else x.getD (x.length - 1) 0

/-- `RESAMPLE_local(x)` (45_resampler.md R241). -/
def resampleLocal (d fi fo : Nat) (x : List F32) : List F32 :=
  (List.range (x.length * fo / fi)).map (localSample d fi fo x)

/-- The loop of `RESAMPLE_cont` (45_resampler.md R242) from cursor `c`: the outputs and the cursor it stops at.
The first argument bounds the number of turns; 70_reset_and_hazards.md R352 gives a bound that is never
reached. Log 15. -/
def resampleLoop (fi fo : Nat) (w : List F32) : Nat → Nat → Nat → List F32 × Nat
  | 0,        _, c => ([], c)
  | fuel + 1, d, c =>
    if c / fo + 1 < w.length then
      let rest := resampleLoop fi fo w fuel (d + interpOps) (c + fi)
      (interp d fo w c :: rest.1, rest.2)
    else ([], c)

/-- The turns the loop can take at most (70_reset_and_hazards.md R352). -/
def loopBound (fi fo n : Nat) : Nat := n * fo / fi + 1

/-- The samples RESAMPLE_cont interpolates: the lookback first, where it is valid (45_resampler.md R242). -/
def State.resampleInput (s : State) (x : List F32) : List F32 :=
  if s.rsLbv then s.rsLb :: x else x

/-- `RESAMPLE_cont(x)` (45_resampler.md R242): the outputs, and the state after them. -/
def resampleCont (x : List F32) (s : State) : List F32 × State :=
  let fi := s.fsIn.toNat
  let fo := s.fsOut.toNat
  let w := s.resampleInput x
  if w = [] then ([], s)
  else
    let run := resampleLoop fi fo w (loopBound fi fo w.length) s.nanDraws s.rsNum.toNat
    (run.1,
      { s with
          rsNum := BitVec.ofNat 32 (run.2 - (w.length - 1) * fo),
          rsLb  := w.getD (w.length - 1) 0,
          rsLbv := true }.drew (interpOps * run.1.length))

/-- The body of RESAMPLE (45_resampler.md R243): per MODE.RS_CONT. -/
def resampleBody (x : List F32) (s : State) : List F32 × State :=
  if s.rsCont then resampleCont x s
  else
    let out := resampleLocal s.nanDraws s.fsIn.toNat s.fsOut.toNat x
    (out, s.drew (interpOps * out.length))

/-- RESAMPLE (45_resampler.md R243). -/
def execResample (s : State) : Result :=
  match s.f32Operand with
  | none   => faulted .operandFormat s
  | some x =>
    if s.fsIn = 0 ∨ s.fsOut = 0 then faulted .config s
    else completed (.f32 (resampleBody x s).1) (resampleBody x s).2

end Sys2Proof.Machine
end

