-- ==== Sys2Proof/Machine/Squelch.lean ====
section
/-! DEFINITION. The Squelch gate: SQUELCH (43_squelch.md). -/

namespace Sys2Proof.Machine

open Sys2Proof

/-- One sample against the threshold `t` (43_squelch.md R200): `+0` where its magnitude is below `t`, else the
sample with its exact pattern. -/
def gate (t x : F32) : F32 := if flt (fabs x) t then 0 else x

/-- The body of SQUELCH (43_squelch.md R200). -/
def squelchBody (x : List F32) (s : State) : List F32 := x.map (gate s.sqThresh)

/-- SQUELCH (43_squelch.md R200). -/
def execSquelch (s : State) : Result :=
  match s.f32Operand with
  | none   => faulted .operandFormat s
  | some x => completed (.f32 (squelchBody x s)) s

end Sys2Proof.Machine
end

