-- ==== Sys2Proof/Machine/Pipeline.lean ====
section
/-! DEFINITION. The composite command: PROCESS (46_pipeline_and_control.md R270). -/

namespace Sys2Proof.Machine

open Sys2Proof

/-- The five stages in their fixed order (46_pipeline_and_control.md R270): no stage reads a register another
stage writes, so each may be given the state the one before it left. Log 18. -/
def processBody (b : List Byte) (s : State) : List F32 × State :=
  let demod := fmdemodBody (iqDecode s.nanDraws b) s
  let gated := squelchBody demod.1 demod.2
  let flat  := deemphBody gated demod.2
  resampleBody flat.1 flat.2

/-- PROCESS (46_pipeline_and_control.md R270): every check before any stage. -/
def execProcess (s : State) : Result :=
  match s.bytesOperand with
  | none   => faulted .operandFormat s
  | some b =>
    if s.fsIn = 0 ∨ s.fsOut = 0 then faulted .config s
    else if s.iqLenOk b.length then completed (.f32 (processBody b s).1) (processBody b s).2
    else faulted .streamIntegrity s

end Sys2Proof.Machine
end

