-- ==== Sys2Proof/Machine/Dispatch.lean ====
section
/-! DEFINITION. One arm per command of 30_encoding.md R101. -/

namespace Sys2Proof.Machine

open Sys2Proof

def exec (i : Instr) (s : State) : Host.Outcome State Fault Refusal :=
  match i with
  | .encode opc => Sys2Proof.Machine.execEncode opc s
  | .iqdec => Sys2Proof.Machine.execIqdec s
  | .fmdemod => Sys2Proof.Machine.execFmdemod s
  | .squelch => Sys2Proof.Machine.execSquelch s
  | .deemph => Sys2Proof.Machine.execDeemph s
  | .resample => Sys2Proof.Machine.execResample s
  | .process => Sys2Proof.Machine.execProcess s
  | .rstate => Sys2Proof.Machine.execRstate s
  | .csrr n => Sys2Proof.Machine.execCsrr n s
  | .csrw n => Sys2Proof.Machine.execCsrw n s

end Sys2Proof.Machine
end

