-- ==== Sys2Proof/Machine/Step.lean ====
section
/-! DEFINITION. One step: the block takes the next thing the host sends (20_memory.md R71, R80). -/

namespace Sys2Proof.Machine

open Sys2Proof

/-- One step. A command runs as decoded; an illegal word raises ILLEGAL_COMMAND without a look at the payload
(30_encoding.md R104); the reset input resets the block, and a command it interrupts is discarded
(70_reset_and_hazards.md R340); with nothing sent the block idles (60_exceptions.md R315). Log 20. -/
def step (s : State) : Host.Outcome State Fault Refusal :=
  match s.hostIn with
  | .command c :: _ =>
    match decodeWord c.word with
    | .ok i    => exec i s
    | .error _ => faulted .illegalCommand s
  | .reset :: _         => .next s.takeReset
  | .resetDuring _ :: _ => .next s.takeReset
  | []                  => .next s

/-- The payload the host is taken to send with a word it is asked about: one of the kind the command expects,
with nothing in it. Log 4. -/
def fetchPayload (w : Word) : Payload :=
  match decodeWord w with
  | .ok i    => i.expects.blank
  | .error _ => .none

/-- `s` with the command whose word is `w` on the command port, so that the very next step runs it. Log 4. -/
def State.withFetchWord (s : State) (nbits w : Nat) : State :=
  let word : Word := BitVec.ofNat 32 (w % 2 ^ nbits)
  { s with hostIn := .command ⟨word, fetchPayload word⟩ :: s.hostIn }

end Sys2Proof.Machine
end

