-- ==== Sys2Proof/Machine/Assembler.lean ====
section
/-! DEFINITION. The assembler syntax of the command set (30_encoding.md R111, R112): one line of text to the commands
it stands for. No part of the block's step. Log 19. -/

namespace Sys2Proof.Machine

open Sys2Proof

/-- The tokens of a line: words (mnemonics, names, numbers) and punctuation. -/
inductive Token where
  | word (w : List Char)
  | comma | openBracket | closeBracket | openParen | closeParen
deriving DecidableEq, Repr

/-- The letters of a word. -/
def wordChar (c : Char) : Bool :=
  c.isAlphanum || c == '_' || c == '.' || c == '+' || c == '-'

/-- The word read so far, if any, before the tokens after it; its letters are kept in reverse. -/
def flushWord (w : List Char) (rest : List Token) : List Token :=
  if w.isEmpty then rest else .word w.reverse :: rest

/-- The tokens of a line up to a comment, `;` starting one (30_encoding.md R111). -/
def lexFrom (w : List Char) : List Char → Option (List Token)
  | [] => some (flushWord w [])
  | c :: cs =>
    if c = ';' then some (flushWord w [])
    else if wordChar c then lexFrom (c :: w) cs
    else if c = ' ' ∨ c = '\t' then (lexFrom [] cs).map (flushWord w)
    else if c = ',' then (lexFrom [] cs).map fun t => flushWord w (.comma :: t)
    else if c = '[' then (lexFrom [] cs).map fun t => flushWord w (.openBracket :: t)
    else if c = ']' then (lexFrom [] cs).map fun t => flushWord w (.closeBracket :: t)
    else if c = '(' then (lexFrom [] cs).map fun t => flushWord w (.openParen :: t)
    else if c = ')' then (lexFrom [] cs).map fun t => flushWord w (.closeParen :: t)
    else none

/-- The value of a digit in base 16. -/
def hexDigit (c : Char) : Option Nat :=
  if '0' ≤ c ∧ c ≤ '9' then some (c.toNat - '0'.toNat)
  else if 'a' ≤ c ∧ c ≤ 'f' then some (c.toNat - 'a'.toNat + 10)
  else if 'A' ≤ c ∧ c ≤ 'F' then some (c.toNat - 'A'.toNat + 10)
  else none

/-- Digits in a base, after the value of those before them. -/
def digitsFrom (base acc : Nat) : List Char → Option Nat
  | [] => some acc
  | c :: cs =>
    match hexDigit c with
    | some v => if v < base then digitsFrom base (acc * base + v) cs else none
    | none   => none

/-- One or more digits. -/
def digits (base : Nat) (cs : List Char) : Option Nat :=
  if cs.isEmpty then none else digitsFrom base 0 cs

/-- A number, decimal or `0x` hex (30_encoding.md R111). -/
def numberLit : List Char → Option Nat
  | '0' :: 'x' :: cs => digits 16 cs
  | cs               => digits 10 cs

/-- A number below `2^n`. -/
def fieldLit (n : Nat) (cs : List Char) : Option (BitVec n) :=
  match numberLit cs with
  | some v => if v < 2 ^ n then some (BitVec.ofNat n v) else none
  | none   => none

/-- The binary32 value a decimal `± whole . tail` names exactly, if there is one (30_encoding.md R111: "only exactly
representable decimals are allowed"). -/
def exactF32 (neg : Bool) (whole tail : List Char) : Option F32 :=
  match digits 10 (whole ++ tail) with
  | none   => none
  | some n =>
    let den := 10 ^ tail.length
    let mag := roundMag (n * 2 ^ 149) den
    let v := packMag neg mag
    if mag < infMag ∧ magUnits v * den = n * 2 ^ 149 then some v else none

/-- An unsigned decimal with an optional fraction. -/
def decimalF32 (neg : Bool) (cs : List Char) : Option F32 :=
  match cs.splitOnP (· == '.') with
  | [whole]       => exactF32 neg whole []
  | [whole, tail] => if whole.isEmpty || tail.isEmpty then none else exactF32 neg whole tail
  | _             => none

/-- A binary32 literal: a hex pattern, or a decimal with an optional sign (30_encoding.md R111). DESIGN CHOICE: `+inf`
and `-inf` are literals too, since the vectors V-SQ-3, V-DE-9 and V-RS-13 of 95_test_vectors.md write them in
`f[...]`; R111 names only decimals and patterns. No word stands for a NaN. Log 19. -/
def f32Lit : List Char → Option F32
  | ['+', 'i', 'n', 'f'] => some (packMag false infMag)
  | ['-', 'i', 'n', 'f'] => some (packMag true infMag)
  | '0' :: 'x' :: cs => fieldLit 32 ('0' :: 'x' :: cs)
  | '-' :: cs        => decimalF32 true cs
  | '+' :: cs        => decimalF32 false cs
  | cs               => decimalF32 false cs

/-- The items of a bracket, each one word, to the end of the line. -/
def wordItems {α : Type} (lit : List Char → Option α) : List Token → Option (List α)
  | [.word w, .closeBracket] => (lit w).map fun v => [v]
  | .word w :: .comma :: rest =>
    match lit w, wordItems lit rest with
    | some v, some vs => some (v :: vs)
    | _, _            => none
  | _ => none

/-- The items of an IQ bracket, each a pair, to the end of the line. -/
def pairItems : List Token → Option (List IQ)
  | [.openParen, .word i, .comma, .word q, .closeParen, .closeBracket] =>
    match f32Lit i, f32Lit q with
    | some i, some q => some [⟨i, q⟩]
    | _, _           => none
  | .openParen :: .word i :: .comma :: .word q :: .closeParen :: .comma :: rest =>
    match f32Lit i, f32Lit q, pairItems rest with
    | some i, some q, some vs => some (⟨i, q⟩ :: vs)
    | _, _, _                 => none
  | _ => none

/-- `b[...]` (30_encoding.md R111). -/
def bytesLit : List Token → Option (List Byte)
  | [.word ['b'], .openBracket, .closeBracket] => some []
  | .word ['b'] :: .openBracket :: rest        => wordItems (fieldLit 8) rest
  | _ => none

/-- `iq[...]` (30_encoding.md R111). -/
def iqLit : List Token → Option (List IQ)
  | [.word ['i', 'q'], .openBracket, .closeBracket] => some []
  | .word ['i', 'q'] :: .openBracket :: rest        => pairItems rest
  | _ => none

/-- `f[...]` (30_encoding.md R111). -/
def f32sLit : List Token → Option (List F32)
  | [.word ['f'], .openBracket, .closeBracket] => some []
  | .word ['f'] :: .openBracket :: rest        => wordItems f32Lit rest
  | _ => none

/-- The CSR names of 10_state.md R32. -/
def csrNames : List (List Char × Csr) :=
  [("MODE".toList, .mode), ("FS_IN".toList, .fsIn), ("FS_OUT".toList, .fsOut),
   ("SQ_THRESH".toList, .sqThresh), ("BUF_BYTES".toList, .bufBytes), ("STATUS".toList, .status),
   ("ALPHA".toList, .alpha), ("DE_Y".toList, .deY), ("RS_NUM".toList, .rsNum), ("RS_LB".toList, .rsLb),
   ("DM_PREV_I".toList, .dmPrevI), ("DM_PREV_Q".toList, .dmPrevQ), ("SVALID".toList, .svalid)]

/-- `<csr>`: a CSR name or a number 0x00 to 0xFF (30_encoding.md R111). -/
def csrLit (w : List Char) : Option Byte :=
  match csrNames.lookup w with
  | some r => some r.number
  | none   => fieldLit 8 w

/-- A line with one operand, `<u32>`. -/
def oneWord : List Token → Option Word
  | [.word w] => fieldLit 32 w
  | _         => none

/-- A line whose operands are a field and a `<u32>`. -/
def twoWords {α : Type} (lit : List Char → Option α) : List Token → Option (α × Word)
  | [.word a, .comma, .word b] =>
    match lit a, fieldLit 32 b with
    | some a, some b => some (a, b)
    | _, _           => none
  | _ => none

/-- A line without operands. -/
def noWords : List Token → Option Unit
  | [] => some ()
  | _  => none

/-- The commands of a mnemonic and the operands after it (30_encoding.md R111, R112). -/
def assembleOp (m : List Char) (t : List Token) : Option (List Command) :=
  if m = "ENCODE".toList then
    (twoWords (fieldLit 8) t).map fun v => [assemble (.encode v.1) (.word v.2)]
  else if m = "IQDEC".toList then (bytesLit t).map fun b => [assemble .iqdec (.bytes b)]
  else if m = "FMDEMOD".toList then (iqLit t).map fun x => [assemble .fmdemod (.iq x)]
  else if m = "SQUELCH".toList then (f32sLit t).map fun x => [assemble .squelch (.f32 x)]
  else if m = "DEEMPH".toList then (f32sLit t).map fun x => [assemble .deemph (.f32 x)]
  else if m = "RESAMPLE".toList then (f32sLit t).map fun x => [assemble .resample (.f32 x)]
  else if m = "PROCESS".toList then (bytesLit t).map fun b => [assemble .process (.bytes b)]
  else if m = "RSTATE".toList then (noWords t).map fun _ => [assemble .rstate .none]
  else if m = "CSRR".toList then
    match t with
    | [.word w] => (csrLit w).map fun n => [assemble (.csrr n) .none]
    | _         => none
  else if m = "CSRW".toList then
    (twoWords csrLit t).map fun v => [assemble (.csrw v.1) (.word v.2)]
  else if m = "TUNE".toList then (oneWord t).map fun v => (Pseudo.tune v).expand
  else if m = "SETRATE".toList then (oneWord t).map fun v => (Pseudo.setRate v).expand
  else if m = "GAINMODE".toList then (oneWord t).map fun v => (Pseudo.gainMode v).expand
  else if m = "GAIN".toList then (oneWord t).map fun v => (Pseudo.gain v).expand
  else if m = "TUNERAGC".toList then (oneWord t).map fun v => (Pseudo.tunerAgc v).expand
  else if m = "DEVAGC".toList then (oneWord t).map fun v => (Pseudo.devAgc v).expand
  else if m = "CLRSTATUS".toList then (noWords t).map fun _ => Pseudo.clrStatus.expand
  else if m = "SETMODE".toList then (oneWord t).map fun v => (Pseudo.setMode v).expand
  else if m = "SESSION".toList then
    (twoWords (fieldLit 32) t).map fun v => (Pseudo.session v.1 v.2).expand
  else none

/-- One line of assembly to the commands it stands for, in order; a line with nothing but a comment stands for
none. `none` is a line the syntax does not admit. -/
def assembleLine (line : String) : Option (List Command) :=
  match lexFrom [] line.toList with
  | some []               => some []
  | some (.word m :: ops) => assembleOp m ops
  | _                     => none

end Sys2Proof.Machine
end

