-- ==== Sys2Proof/Machine/Reference.lean ====
section
/-! DEFINITION. What the arithmetic means over the reals: the value of a pattern (00_scope.md R10), `rnd32` of a real
(R12) and the spec's reference choice of ATAN2 (R14). For claims; the step uses none of it. Log 16. -/

namespace Sys2Proof.Machine

open Sys2Proof

/-- The real a finite binary32 pattern stands for (R10). -/
noncomputable def realValue (x : F32) : ℝ := (signedUnits x : ℝ) / 2 ^ 149

/-- `v` is `rnd32(r)` (R12): `+0` for 0; an infinity of the sign of `r` from 2^128 - 2^103 on; else the finite
value of that sign nearest to `r`, with last fraction bit 0 where another value is as near. -/
def IsRnd32 (r : ℝ) (v : F32) : Prop :=
  (r = 0 → v = 0) ∧
  (r ≠ 0 → (signBit v = true ↔ r < 0)) ∧
  ((2 : ℝ) ^ 128 - 2 ^ 103 ≤ |r| → isInf v = true) ∧
  (|r| < (2 : ℝ) ^ 128 - 2 ^ 103 →
    isFinite v = true ∧
    ∀ y : F32, isFinite y = true →
      |realValue v - r| ≤ |realValue y - r| ∧
      (|realValue v - r| = |realValue y - r| → realValue y = realValue v ∨ v.getLsbD 0 = false))

/-- `rnd32(r)` for a real `r` (R12). -/
noncomputable def rndReal (r : ℝ) : F32 := Classical.epsilon (IsRnd32 r)

/-- A magnitude with a given sign. -/
def withSign (neg : Bool) (v : F32) : F32 := packMag neg (magBits v)

/-- The reference choice of `ATAN2(y, x)` (R14): the rounded angle of the point `(x, y)` in `(-π, π]`; the zero and
infinite cases of ISO C Annex F; a NaN for a NaN operand. -/
noncomputable def refAtan2 (y x : F32) : F32 :=
  if isNaN y ∨ isNaN x then drawNaN 0
  else if isInf y then
    withSign (signBit y)
      (if isInf x then (if signBit x then rndReal (3 * Real.pi / 4) else rndReal (Real.pi / 4))
       else rndReal (Real.pi / 2))
  else if isInf x then withSign (signBit y) (if signBit x then rndReal Real.pi else 0)
  else if magBits y = 0 then withSign (signBit y) (if signBit x then rndReal Real.pi else 0)
  else rndReal (Complex.arg ⟨realValue x, realValue y⟩)

end Sys2Proof.Machine
end

