-- ==== Sys2Proof/WellFormed.lean ====
section
/-! DEFINITION. Well-formedness: what can be said of an instruction or a command before any state is looked at,
the first three checks of 60_exceptions.md R303. -/

namespace Sys2Proof

/-- The CSR number of a CSRR is implemented, that of a CSRW implemented and writable (10_state.md R32,
60_exceptions.md R303 check 2); every other instruction is well formed. -/
def Instr.wellFormed : Instr → Bool
  | .csrr n => decide (n.toNat ≤ 0x0C)
  | .csrw n => decide (n.toNat ≤ 0x05)
  | .encode _ | .iqdec | .fmdemod | .squelch | .deemph | .resample | .process | .rstate => true

/-- A sequence payload is no longer than MAX_LEN (30_encoding.md R106). -/
def Payload.fits (m : MaxLen) (p : Payload) : Bool :=
  match m with
  | .unbounded     => true
  | .bounded below => decide (p.length ≤ below + 1)

/-- The payload is of the kind the instruction expects and fits (30_encoding.md R105, R106; 60_exceptions.md
R303 check 3). -/
def Payload.suits (m : MaxLen) (i : Instr) (p : Payload) : Bool :=
  decide (p.kind = i.expects) && p.fits m

/-- The command passes checks 1 to 3 of 60_exceptions.md R303: legal word, accessible CSR, suitable payload. -/
def Command.wellFormed (m : MaxLen) (c : Command) : Bool :=
  match decodeWord c.word with
  | .ok i    => i.wellFormed && c.payload.suits m i
  | .error _ => false

end Sys2Proof
end

