-- ==== Sys2Proof/Safety.lean ====
section
/-! DEFINITION. The terms claims are made in: the fault a command is due, fault-free responses, the registers of a
state apart from the model's own fields, the sessions of the continuous resampler, and the invariant of every reachable
state. -/

namespace Sys2Proof.Machine

open Sys2Proof

/-- An illegal command word, by the fields of the word alone (30_encoding.md R104). -/
def illegalWord (w : Word) : Bool :=
  decide (opField w = 0) || decide (0x0B ≤ (opField w).toNat) || decide (resField w ≠ 0) ||
    (decide (argField w ≠ 0) && decide (0x02 ≤ (opField w).toNat) && decide ((opField w).toNat ≤ 0x08))

/-- A CSR number a CSRR or CSRW may not name, by the fields of the word alone (10_state.md R32, 60_exceptions.md
R300). -/
def illegalCsrWord (w : Word) : Bool :=
  (decide (opField w = 0x09) && decide (0x0D ≤ (argField w).toNat)) ||
    (decide (opField w = 0x0A) && decide (0x06 ≤ (argField w).toNat))

/-- The payload kind an operation code expects (30_encoding.md R101). -/
def kindOfOp (op : Byte) : PayloadKind :=
  if op = 0x01 ∨ op = 0x0A then .word
  else if op = 0x02 ∨ op = 0x07 then .bytes
  else if op = 0x03 then .iq
  else if op = 0x04 ∨ op = 0x05 ∨ op = 0x06 then .f32
  else .none

/-- A rate the operation needs is 0 (60_exceptions.md R300, CONFIG). -/
def rateMissing (s : State) (op : Byte) : Bool :=
  (decide (op = 0x05) && decide (s.fsIn = 0)) ||
    ((decide (op = 0x06) || decide (op = 0x07)) && (decide (s.fsIn = 0) || decide (s.fsOut = 0)))

/-- A byte count IQDEC and PROCESS refuse (60_exceptions.md R300, STREAM_INTEGRITY). -/
def badByteCount (s : State) (op : Byte) (n : Nat) : Bool :=
  (decide (op = 0x02) || decide (op = 0x07)) &&
    (decide (n % 2 = 1) ||
      (decide (s.bufBytes ≠ 0) && decide (n ≠ 0) && decide (n ≠ s.bufBytes.toNat)))

/-- The fault a command is due, the first that applies in the order of 60_exceptions.md R303; none where it
completes. Written from the word's fields, the payload and the registers, apart from the decoder and the
meanings. -/
def firstFault (s : State) (c : Command) : Option FaultCode :=
  if illegalWord c.word then some .illegalCommand
  else if illegalCsrWord c.word then some .illegalCsr
  else if c.payload.kind ≠ kindOfOp (opField c.word) ∨ c.payload.fits s.maxLen = false then some .operandFormat
  else if rateMissing s (opField c.word) then some .config
  else if badByteCount s (opField c.word) c.payload.length then some .streamIntegrity
  else none

/-- A response that is no fault (70_reset_and_hazards.md R353). -/
def Response.isOk : Response → Bool
  | .ok _    => true
  | .fault _ => false

/-- The state with command `i` and payload `p` alone on its way from the host. -/
def State.offer (i : Instr) (p : Payload) (s : State) : State :=
  { s with hostIn := [.command (assemble i p)] }

/-- The registers of a state (10_state.md R48): the model's own fields put to one value. Two states agree on every
register exactly when these are equal. -/
def State.regs (s : State) : State :=
  { s with maxLen := .unbounded, nanDraws := 0, hostIn := [], responses := [] }

/-- `ResamplerSession x y s`: a session of the continuous resampler (45_resampler.md R244) has reached `s`, `x` being all
the samples that went into the resampler since its state was last reset and `y` all its outputs, in order. A
RESAMPLE puts its payload in; a PROCESS what the first four of its stages, sent as commands of their own, give
(46_pipeline_and_control.md R274); any other command nothing, as long as it does not reset the resampler state. The stages sent apart draw the NaNs that
PROCESS itself draws, by the model's numbering (log 5). -/
inductive ResamplerSession : List F32 → List F32 → State → Prop where
  /-- The resampler state is at its reset value. -/
  | start (s : State) (hcont : s.rsCont = true) (hin : s.fsIn ≠ 0) (hout : s.fsOut ≠ 0) (hnum : s.rsNum = 0)
      (hlb : s.rsLbv = false) : ResamplerSession [] [] s
  /-- A RESAMPLE with payload `u` that answers `o`. -/
  | resample {x y u o : List F32} {s t : State} (h : ResamplerSession x y s)
      (hstep : step (s.offer .resample (.f32 u)) = .next t)
      (ho : t.responses = s.responses ++ [.ok (.f32 o)]) : ResamplerSession (x ++ u) (y ++ o) t
  /-- A PROCESS of `b` that answers `o`; `u` is what DEEMPH answers at the end of the stages before RESAMPLE. -/
  | process {x y a g u o : List F32} {b : List Byte} {q : List IQ} {s t t₁ t₂ t₃ t₄ : State}
      (h : ResamplerSession x y s)
      (h₁ : step (s.offer .iqdec (.bytes b)) = .next t₁) (r₁ : t₁.responses = s.responses ++ [.ok (.iq q)])
      (h₂ : step (t₁.offer .fmdemod (.iq q)) = .next t₂) (r₂ : t₂.responses = t₁.responses ++ [.ok (.f32 a)])
      (h₃ : step (t₂.offer .squelch (.f32 a)) = .next t₃) (r₃ : t₃.responses = t₂.responses ++ [.ok (.f32 g)])
      (h₄ : step (t₃.offer .deemph (.f32 g)) = .next t₄) (r₄ : t₄.responses = t₃.responses ++ [.ok (.f32 u)])
      (hstep : step (s.offer .process (.bytes b)) = .next t)
      (ho : t.responses = s.responses ++ [.ok (.f32 o)]) : ResamplerSession (x ++ u) (y ++ o) t
  /-- A command that faults, or that neither resamples nor resets the resampler state (10_state.md R47). -/
  | other {x y : List F32} {c : Command} {s t : State} (h : ResamplerSession x y s)
      (hstep : step { s with hostIn := [.command c] } = .next t)
      (hc : (∃ code, t.responses = s.responses ++ [.fault code]) ∨
        ∀ i ∈ [Instr.resample, .process, .rstate, .csrw 0x00, .csrw 0x01, .csrw 0x02], decodeWord c.word ≠ .ok i) :
      ResamplerSession x y t

/-- The invariant of every reachable state: BUF_BYTES is even (10_state.md R37); ERR_CODE and OVERFLOW mean
nothing without FAULT and ERR_CODE is one of the five codes with it (R38, 60_exceptions.md R300); a valid
resampler lookback belongs to the continuous mode with both rates set, and the cursor is then below FS_IN
(10_state.md R42, R47, 45_resampler.md R244); a valid demodulator lookback belongs to DM_CONT = 1 (R44, R47);
an invalid lookback holds its reset value. -/
structure State.Inv (s : State) : Prop where
  bufEven    : s.bufBytes.getLsbD 0 = false
  noFault    : s.status.fault = false → s.status.overflow = false ∧ s.status.errCode = 0
  faultCode  : s.status.fault = true → 1 ≤ s.status.errCode.toNat ∧ s.status.errCode.toNat ≤ 5
  rsValid    : s.rsLbv = true → s.rsCont = true ∧ s.fsIn ≠ 0 ∧ s.fsOut ≠ 0 ∧ s.rsNum.toNat < s.fsIn.toNat
  rsInvalid  : s.rsLbv = false → s.rsNum = 0 ∧ s.rsLb = 0
  dmValid    : s.dmPrevv = true → s.dmCont = true
  dmInvalid  : s.dmPrevv = false → s.dmPrev = ⟨0, 0⟩

end Sys2Proof.Machine
end

