-- ==== Sys2Proof/Certificates/Slice0/Obligations.lean ====
section
/-! DEFINITION. The statements for the provers. Each docstring names the rule of spec/ it formalises. -/

open Sys2Proof Sys2Proof.Machine

/-! ### Encoding -/

/-- 30_encoding.md R100, R101, R104: the decoder reads exactly the encoder's words, every A field included, and no
word has two readings. -/
def Obligations.DecodeReadsExactlyTheEncodedWords : Prop :=
  ∀ (w : Word) (i : Instr), decodeWord w = .ok i ↔ w = encode i

/-- 30_encoding.md R104: which words are illegal, by their fields; a legal word keeps its OP and A; an illegal word
raises ILLEGAL_COMMAND whatever its payload. -/
def Obligations.IllegalWordsAreThoseOfTheRule : Prop :=
  (∀ w : Word, (∃ e, decodeWord w = .error e) ↔
    (opField w = 0x00 ∨ 0x0B ≤ (opField w).toNat ∨ resField w ≠ 0 ∨
      (argField w ≠ 0 ∧ 0x02 ≤ (opField w).toNat ∧ (opField w).toNat ≤ 0x08))) ∧
  (∀ (w : Word) (i : Instr), decodeWord w = .ok i → i.op = opField w ∧ i.arg = argField w) ∧
  (∀ (s : State) (w : Word) (p : Payload) (rest : List HostInput) (e : IllegalWord),
    s.hostIn = .command ⟨w, p⟩ :: rest → decodeWord w = .error e →
    step s = .next
      { s with status := s.status.onFault .illegalCommand, hostIn := rest,
               responses := s.responses ++ [Response.fault .illegalCommand] })

/-- 30_encoding.md R101, 95_test_vectors.md part 2: words of every family, spelled out bit by bit, decode to their
commands. -/
def Obligations.SpelledOutWordsDecode : Prop :=
  decodeWord 0b00000000000000000000000100000001#32 = .ok (.encode 0x01) ∧
  decodeWord 0b00000000000000001111111100000001#32 = .ok (.encode 0xFF) ∧
  decodeWord 0b00000000000000000000000000000010#32 = .ok .iqdec ∧
  decodeWord 0b00000000000000000000000000000011#32 = .ok .fmdemod ∧
  decodeWord 0b00000000000000000000000000000100#32 = .ok .squelch ∧
  decodeWord 0b00000000000000000000000000000101#32 = .ok .deemph ∧
  decodeWord 0b00000000000000000000000000000110#32 = .ok .resample ∧
  decodeWord 0b00000000000000000000000000000111#32 = .ok .process ∧
  decodeWord 0b00000000000000000000000000001000#32 = .ok .rstate ∧
  decodeWord 0b00000000000000000000011000001001#32 = .ok (.csrr 0x06) ∧
  decodeWord 0b00000000000000000000010000001010#32 = .ok (.csrw 0x04)

/-- 20_memory.md R71, R80, 30_encoding.md R104: a step runs the command the decoder reads from the word on the
command port, with nothing around it. -/
def Obligations.StepRunsTheDecodedCommand : Prop :=
  ∀ (s : State) (c : Command) (rest : List HostInput) (i : Instr),
    s.hostIn = .command c :: rest → decodeWord c.word = .ok i →
    step s = exec i s ∧ s.payload = c.payload

/-- 40_command_encoder.md R141: `frame_decode` gives the opcode and the big-endian parameter, and undoes ENCODE for
every opcode and parameter. -/
def Obligations.FrameDecodeUndoesEncode : Prop :=
  (∀ b0 b1 b2 b3 b4 : Byte, frameDecode [b0, b1, b2, b3, b4] = some (b0, b1 ++ b2 ++ b3 ++ b4)) ∧
  (∀ (o : Byte) (p : Word) (s : State), s.payload = .word p →
    ∃ b t, exec (.encode o) s = .next t ∧ t.responses = s.responses ++ [Response.ok (Payload.bytes b)] ∧
      frameDecode b = some (o, p))

/-- 30_encoding.md R112: the expansion of every pseudo-command, as words and payloads. -/
def Obligations.PseudoCommandsExpandAsListed : Prop :=
  ∀ v w : Word,
    (∀ (p : Pseudo) (o : Byte),
      (p, o) ∈ [(.tune v, Config.opcSetFreq), (.setRate v, Config.opcSetRate), (.gainMode v, Config.opcSetGainMode),
        (.gain v, Config.opcSetGain), (.tunerAgc v, Config.opcSetTunerAgc), (.devAgc v, Config.opcSetDevAgc)] →
      p.expand = [⟨BitVec.ofNat 32 (o.toNat * 2 ^ 8 + 1), .word v⟩]) ∧
    Pseudo.clrStatus.expand = [⟨0x0000050A, .word 0⟩] ∧
    (Pseudo.setMode v).expand = [⟨0x0000000A, .word v⟩] ∧
    (Pseudo.session v w).expand = [⟨0x0000010A, .word v⟩, ⟨0x0000020A, .word w⟩, ⟨0x00000008, .none⟩]

/-- 30_encoding.md R112: the expansion of SESSION, run from any state, leaves both rates set and the stream state at
its reset values, with three `Ok(None)`; every other register is unchanged. -/
def Obligations.SessionPseudoCommandStartsASession : Prop :=
  ∀ (s : State) (fin fout : Word), s.hostIn = (Pseudo.session fin fout).expand.map .command →
    Host.Core.run core 3 s = .next
      { s with fsIn := fin, fsOut := fout, deY := 0, rsNum := 0, rsLb := 0, rsLbv := false,
               dmPrev := ⟨0, 0⟩, dmPrevv := false, hostIn := [],
               responses := s.responses ++ [.ok .none, .ok .none, .ok .none] }

/-! ### The commands -/

/-- 40_command_encoder.md R140, R142, 30_encoding.md R107: ENCODE frames any opcode and any parameter; only a payload
that is no Word faults. -/
def Obligations.EncodeFramesEveryParameter : Prop :=
  (∀ (s : State) (c : Command) (rest : List HostInput), s.hostIn = .command c :: rest →
    opField c.word = 0x01 →
    step s = if resField c.word = 0 then exec (.encode (argField c.word)) s
      else .next (s.takeFault .illegalCommand)) ∧
  (∀ (o : Byte) (p : Word) (s : State), s.payload = .word p →
    exec (.encode o) s = .next
      { s with hostIn := s.hostIn.tail,
               responses := s.responses ++ [Response.ok (Payload.bytes
                 [o, BitVec.ofNat 8 (p.toNat / 2 ^ 24), BitVec.ofNat 8 (p.toNat / 2 ^ 16),
                  BitVec.ofNat 8 (p.toNat / 2 ^ 8), BitVec.ofNat 8 p.toNat])] }) ∧
  (∀ (o : Byte) (s : State), s.payload.kind ≠ .word →
    exec (.encode o) s = .next (s.takeFault .operandFormat))

/-- 41_iq_decoder.md R160, R161, R162: IQDEC of an accepted payload answers one sample for each byte pair, I first,
each component exactly the half-integer `b - 127.5` (in units of 2^-149), finite and not zero; a payload of
another kind or over MAX_LEN, and then a count the length check refuses, fault; the length check is that of R161. -/
def Obligations.IqdecDecodesEveryPair : Prop :=
  (∀ (s : State) (n : Nat), s.iqLenOk n = true ↔
    n % 2 = 0 ∧ (s.bufBytes = 0 ∨ n = 0 ∨ n = s.bufBytes.toNat)) ∧
  (∀ (s : State) (c : Command) (rest : List HostInput), s.hostIn = .command c :: rest →
    opField c.word = 0x02 →
    step s = if c.word = 0x00000002 then exec .iqdec s else .next (s.takeFault .illegalCommand)) ∧
  (∀ (s : State) (b : List Byte), s.payload = .bytes b → (Payload.bytes b).fits s.maxLen = true →
    b.length % 2 = 0 → (s.bufBytes = 0 ∨ b.length = 0 ∨ b.length = s.bufBytes.toNat) →
    ∃ out : List IQ,
      exec .iqdec s = .next
        { s with hostIn := s.hostIn.tail, responses := s.responses ++ [Response.ok (Payload.iq out)] } ∧
      out.length = b.length / 2 ∧
      ∀ (k : Nat) (i q : Byte) (x : IQ), b[2 * k]? = some i → b[2 * k + 1]? = some q → out[k]? = some x →
        signedUnits x.i = (2 * (i.toNat : Int) - 255) * 2 ^ 148 ∧
        signedUnits x.q = (2 * (q.toNat : Int) - 255) * 2 ^ 148 ∧
        isFinite x.i = true ∧ isFinite x.q = true ∧ magBits x.i ≠ 0 ∧ magBits x.q ≠ 0) ∧
  (∀ s : State, s.payload.kind ≠ .bytes ∨ s.payload.fits s.maxLen = false →
    exec .iqdec s = .next (s.takeFault .operandFormat)) ∧
  (∀ (s : State) (b : List Byte), s.payload = .bytes b → (Payload.bytes b).fits s.maxLen = true →
    (b.length % 2 = 1 ∨ (s.bufBytes ≠ 0 ∧ b.length ≠ 0 ∧ b.length ≠ s.bufBytes.toNat)) →
    exec .iqdec s = .next (s.takeFault .streamIntegrity))

/-- 42_fm_demodulator.md R180, R181: FMDEMOD compares each sample with the one before it, the valid lookback first with
DM_CONT = 1; fewer than two samples give the empty sequence; `disc` has the
operations of R180 in their order. Each operation has some NaN draw of its own. -/
def Obligations.FmdemodComparesNeighbours : Prop :=
  (∀ (s : State) (c : Command) (rest : List HostInput), s.hostIn = .command c :: rest →
    opField c.word = 0x03 →
    step s = if c.word = 0x00000003 then exec .fmdemod s else .next (s.takeFault .illegalCommand)) ∧
  (∀ (s : State) (x w : List IQ), s.payload = .iq x → (Payload.iq x).fits s.maxLen = true →
    w = (if s.mode.getLsbD 2 = true ∧ s.dmPrevv = true then [s.dmPrev] ++ x else x) →
    ∃ (out : List F32) (draws : Nat),
      exec .fmdemod s = .next
        { s with dmPrev := (if s.mode.getLsbD 2 then x.getLast?.getD s.dmPrev else s.dmPrev),
                 dmPrevv := (if s.mode.getLsbD 2 = true ∧ x ≠ [] then true else s.dmPrevv),
                 nanDraws := draws, hostIn := s.hostIn.tail,
                 responses := s.responses ++ [Response.ok (Payload.f32 out)] } ∧
      out.length = w.length - 1 ∧
      ∀ (k : Nat) (prev curr : IQ), w[k]? = some prev → w[k + 1]? = some curr →
        ∃ d, out[k]? = some (disc d prev curr)) ∧
  (∀ (d : Nat) (pI pQ cI cQ : F32), ∃ d₁ d₂ d₃ d₄ d₅ d₆, disc d ⟨pI, pQ⟩ ⟨cI, cQ⟩ =
    Config.atan2 (fsub d₆ (fmul d₄ cQ pI) (fmul d₅ cI pQ)) (fadd d₃ (fmul d₁ cI pI) (fmul d₂ cQ pQ))) ∧
  (∀ s : State, s.payload.kind ≠ .iq ∨ s.payload.fits s.maxLen = false →
    exec .fmdemod s = .next (s.takeFault .operandFormat))

/-- 42_fm_demodulator.md R186: with DM_CONT = 0 the lookback is neither read nor written, so payloads of N1 and N2
samples give (N1 - 1) + (N2 - 1) outputs and the seam is never compared. The two runs of the second payload that the
last clause compares draw the same NaNs by the model's numbering (log 5). -/
def Obligations.SeamIsNeverComparedWithoutDmCont : Prop :=
  ∀ (s : State) (x y : List IQ), s.mode.getLsbD 2 = false → x ≠ [] → y ≠ [] →
    (Payload.iq x).fits s.maxLen = true → (Payload.iq y).fits s.maxLen = true →
    ∃ (t₁ t₂ : State) (o₁ o₂ : List F32),
      step (s.offer .fmdemod (.iq x)) = .next t₁ ∧ t₁.responses = s.responses ++ [Response.ok (Payload.f32 o₁)] ∧
      step (t₁.offer .fmdemod (.iq y)) = .next t₂ ∧ t₂.responses = t₁.responses ++ [Response.ok (Payload.f32 o₂)] ∧
      o₁.length + o₂.length = (x.length - 1) + (y.length - 1) ∧
      (∀ (prev : IQ) (v : Bool), step (({ t₁ with dmPrev := prev, dmPrevv := v }).offer .fmdemod (.iq y)) =
        .next { t₂ with dmPrev := prev, dmPrevv := v })

/-- 42_fm_demodulator.md R182: with DM_CONT = 1 two payloads in a row give the outputs, and leave the registers, of
one payload of their concatenation; each operation keeps its own NaN draw
(the model's numbering, log 5). -/
def Obligations.DemodulatorContinuesAcrossASplit : Prop :=
  ∀ (s : State) (x y : List IQ), s.mode.getLsbD 2 = true →
    (Payload.iq x).fits s.maxLen = true → (Payload.iq y).fits s.maxLen = true →
    (Payload.iq (x ++ y)).fits s.maxLen = true →
    ∃ (t₁ t₂ t : State) (o₁ o₂ : List F32),
      step (s.offer .fmdemod (.iq x)) = .next t₁ ∧ t₁.responses = s.responses ++ [Response.ok (Payload.f32 o₁)] ∧
      step (t₁.offer .fmdemod (.iq y)) = .next t₂ ∧ t₂.responses = t₁.responses ++ [Response.ok (Payload.f32 o₂)] ∧
      step (s.offer .fmdemod (.iq (x ++ y))) = .next t ∧
      t.responses = s.responses ++ [Response.ok (Payload.f32 (o₁ ++ o₂))] ∧
      t.regs = t₂.regs ∧ t.nanDraws = t₂.nanDraws

/-- 42_fm_demodulator.md R183: equal finite samples whose products do not overflow give `im = +0` and `re ≥ +0`, so
the block answers `ATAN2(+0, re)`, which is `+0` under the reference ATAN2 of 00_scope.md R14. -/
def Obligations.EqualSamplesDemodulateToZero : Prop :=
  ∀ (d : Nat) (p : IQ), isFinite p.i = true → isFinite p.q = true →
    isFinite (fmul d p.q p.i) = true → isFinite (fmul d p.i p.i) = true → isFinite (fmul d p.q p.q) = true →
    discIm d p p = 0 ∧ signBit (discRe d p p) = false ∧ isNaN (discRe d p p) = false ∧
    disc d p p = Config.atan2 0 (discRe d p p) ∧ discWith refAtan2 d p p = 0

/-- 42_fm_demodulator.md R184 (its exactness part): on samples that come from IQDEC `re` and `im` are the exact real
parts, never both zero, and `im` is never `-0`. -/
def Obligations.DiscriminatorIsExactOnDecodedSamples : Prop :=
  ∀ (d e : Nat) (pi pq ci cq : Byte) (prev curr : IQ),
    prev = ⟨iqComponent e pi, iqComponent e pq⟩ → curr = ⟨iqComponent e ci, iqComponent e cq⟩ →
    realValue (discRe d prev curr) =
      ((ci.toNat : ℝ) - 127.5) * ((pi.toNat : ℝ) - 127.5) + ((cq.toNat : ℝ) - 127.5) * ((pq.toNat : ℝ) - 127.5) ∧
    realValue (discIm d prev curr) =
      ((cq.toNat : ℝ) - 127.5) * ((pi.toNat : ℝ) - 127.5) - ((ci.toNat : ℝ) - 127.5) * ((pq.toNat : ℝ) - 127.5) ∧
    isFinite (discRe d prev curr) = true ∧ isFinite (discIm d prev curr) = true ∧
    ¬ (magBits (discRe d prev curr) = 0 ∧ magBits (discIm d prev curr) = 0) ∧
    discIm d prev curr ≠ 0x80000000

/-- 43_squelch.md R200, R201: SQUELCH answers each sample unchanged, or `+0` where its magnitude is below the threshold;
so a non-NaN sample keeps its magnitude or becomes zero, and a NaN keeps its pattern. -/
def Obligations.SquelchGatesEachSample : Prop :=
  (∀ (s : State) (c : Command) (rest : List HostInput), s.hostIn = .command c :: rest →
    opField c.word = 0x04 →
    step s = if c.word = 0x00000004 then exec .squelch s else .next (s.takeFault .illegalCommand)) ∧
  (∀ (s : State) (x : List F32), s.payload = .f32 x → (Payload.f32 x).fits s.maxLen = true →
    ∃ out : List F32,
      exec .squelch s = .next
        { s with hostIn := s.hostIn.tail, responses := s.responses ++ [Response.ok (Payload.f32 out)] } ∧
      out.length = x.length ∧
      ∀ (i : Nat) (v : F32), x[i]? = some v →
        out[i]? = some (if flt (fabs v) s.sqThresh = true then 0 else v) ∧
        (isNaN v = true → out[i]? = some v) ∧
        (isNaN v = false → ∃ o, out[i]? = some o ∧ (magBits o = 0 ∨ magBits o = magBits v) ∧
          (magBits o = 0 ↔ flt (fabs v) s.sqThresh = true ∨ magBits v = 0))) ∧
  (∀ s : State, s.payload.kind ≠ .f32 ∨ s.payload.fits s.maxLen = false →
    exec .squelch s = .next (s.takeFault .operandFormat))

/-- 44_deemphasis.md R220, R224: for every rate but 0, `alpha` is the rounding of `40000 / (40000 + 3 fs)`, which is
`1 / (1 + RC fs)` for RC = 75 µs; it lies in (0, 1) and does not grow with the rate; and its values at the rates the
rule lists. -/
def Obligations.AlphaIsTheRoundedCoefficient : Prop :=
  (∀ fs : Word, fs ≠ 0 →
    IsRnd32 (40000 / (40000 + 3 * (fs.toNat : ℝ))) (alpha fs.toNat) ∧
    (40000 / (40000 + 3 * (fs.toNat : ℝ)) = 1 / (1 + (Config.rcNum : ℝ) / (Config.rcDen : ℝ) * (fs.toNat : ℝ))) ∧
    0 < realValue (alpha fs.toNat) ∧ realValue (alpha fs.toNat) < 1) ∧
  (∀ fs fs' : Word, fs ≠ 0 → fs.toNat ≤ fs'.toNat →
    realValue (alpha fs'.toNat) ≤ realValue (alpha fs.toNat)) ∧
  alpha 40000 = 0x3E800000 ∧ alpha 180000 = 0x3D8D3DCB ∧ alpha 44100 = 0x3E6DB993 ∧
  alpha 48000 = 0x3E5E9BD3 ∧ alpha 240000 = 0x3D579436 ∧
  (∀ d, beta d 40000 = 0x3F400000 ∧ beta d 180000 = 0x3F6E5847)

/-- 44_deemphasis.md R221, R222: DEEMPH is the recurrence `o[n] = a x[n] + b o[n-1]` in the order of operations of the
rule, from `DE_Y`, or from `+0` with DE_CONT = 0; `DE_Y` is left at the last output. The kind is checked before the
rate. Each operation has some NaN draw of its own; that of `1.0 - alpha`, which is no NaN, does not matter. -/
def Obligations.DeemphIsTheRecurrence : Prop :=
  (∀ (s : State) (c : Command) (rest : List HostInput), s.hostIn = .command c :: rest →
    opField c.word = 0x05 →
    step s = if c.word = 0x00000005 then exec .deemph s else .next (s.takeFault .illegalCommand)) ∧
  (∀ (s : State) (x : List F32) (a b y : F32) (d : Nat), s.payload = .f32 x →
    (Payload.f32 x).fits s.maxLen = true → s.fsIn ≠ 0 → a = alpha s.fsIn.toNat → b = fsub d one a →
    y = (if s.mode.getLsbD 0 then s.deY else 0) →
    ∃ (out : List F32) (draws : Nat),
      exec .deemph s = .next
        { s with deY := (y :: out).getLastD y, nanDraws := draws,
                 hostIn := s.hostIn.tail, responses := s.responses ++ [Response.ok (Payload.f32 out)] } ∧
      out.length = x.length ∧
      ∀ (n : Nat) (v before : F32), x[n]? = some v → (y :: out)[n]? = some before →
        ∃ d₁ d₂ d₃, out[n]? = some (fadd d₃ (fmul d₁ a v) (fmul d₂ b before))) ∧
  (∀ s : State, s.payload.kind ≠ .f32 ∨ s.payload.fits s.maxLen = false →
    exec .deemph s = .next (s.takeFault .operandFormat)) ∧
  (∀ s : State, s.payload.kind = .f32 → s.payload.fits s.maxLen = true → s.fsIn = 0 →
    exec .deemph s = .next (s.takeFault .config))

/-- 44_deemphasis.md R222: with DE_CONT = 1 the state persists across commands, so two payloads in a row give the
outputs, and leave the registers, of one payload of their concatenation; each operation keeps its own NaN draw
(the model's numbering, log 5). -/
def Obligations.FilterContinuesAcrossASplit : Prop :=
  ∀ (s : State) (x y : List F32), s.mode.getLsbD 0 = true → s.fsIn ≠ 0 →
    (Payload.f32 x).fits s.maxLen = true → (Payload.f32 y).fits s.maxLen = true →
    (Payload.f32 (x ++ y)).fits s.maxLen = true →
    ∃ (t₁ t₂ t : State) (o₁ o₂ : List F32),
      step (s.offer .deemph (.f32 x)) = .next t₁ ∧ t₁.responses = s.responses ++ [Response.ok (Payload.f32 o₁)] ∧
      step (t₁.offer .deemph (.f32 y)) = .next t₂ ∧ t₂.responses = t₁.responses ++ [Response.ok (Payload.f32 o₂)] ∧
      step (s.offer .deemph (.f32 (x ++ y))) = .next t ∧
      t.responses = s.responses ++ [Response.ok (Payload.f32 (o₁ ++ o₂))] ∧
      t.regs = t₂.regs ∧ t.nanDraws = t₂.nanDraws

/-- 44_deemphasis.md R221 (its corner cases), 70_reset_and_hazards.md R351: a NaN input makes that output, every later
one of the payload and DE_Y a NaN; and with DE_CONT = 1 a NaN in DE_Y makes every output a NaN and stays. -/
def Obligations.NaNPoisonsTheFilter : Prop :=
  (∀ (s : State) (x : List F32) (n : Nat) (v : F32), s.payload = .f32 x → (Payload.f32 x).fits s.maxLen = true →
    s.fsIn ≠ 0 → x[n]? = some v → isNaN v = true →
    ∃ (t : State) (out : List F32),
      exec .deemph s = .next t ∧ t.responses = s.responses ++ [Response.ok (Payload.f32 out)] ∧
      (∀ (k : Nat) (o : F32), n ≤ k → out[k]? = some o → isNaN o = true) ∧ isNaN t.deY = true) ∧
  (∀ (s : State) (x : List F32), s.payload = .f32 x → (Payload.f32 x).fits s.maxLen = true →
    s.fsIn ≠ 0 → s.mode.getLsbD 0 = true → isNaN s.deY = true →
    ∃ (t : State) (out : List F32),
      exec .deemph s = .next t ∧ t.responses = s.responses ++ [Response.ok (Payload.f32 out)] ∧
      (∀ o ∈ out, isNaN o = true) ∧ isNaN t.deY = true)

/-- 44_deemphasis.md R223 (its first sentence): from state `+0` the first output of a payload that begins with a finite
input `v` is `fmul(alpha, v)`, or `+0` where that product is `-0`, whatever follows `v`. -/
def Obligations.FirstFilterOutputIsAlphaTimesInput : Prop :=
  ∀ (s : State) (v : F32) (rest : List F32), s.payload = .f32 (v :: rest) →
    (Payload.f32 (v :: rest)).fits s.maxLen = true → isFinite v = true → s.fsIn ≠ 0 →
    (s.mode.getLsbD 0 = false ∨ s.deY = 0) →
    ∃ (t : State) (o : F32) (later : List F32), exec .deemph s = .next t ∧
      t.responses = s.responses ++ [Response.ok (Payload.f32 (o :: later))] ∧ later.length = rest.length ∧
      o = if fmul s.nanDraws (alpha s.fsIn.toNat) v = 0x80000000 then 0
        else fmul s.nanDraws (alpha s.fsIn.toNat) v

/-- 45_resampler.md R240: `interp` is the formula of the rule, its operations in their order, each with some NaN draw;
`frac` is the exact rational rounded once, lies in [0, 1] and is 1.0 only for FS_OUT of 2^25 and more; where it is
`+0` the result is the left sample (a NaN for a NaN), but for `-0` before a value with sign bit 0, and a NaN before an
infinity or a NaN. -/
def Obligations.InterpolationIsTheFormulaOfTheRule : Prop :=
  (∀ fo c : Nat, 0 < fo →
    IsRnd32 (((c % fo : Nat) : ℝ) / (fo : ℝ)) (interpFrac fo c) ∧
    isFinite (interpFrac fo c) = true ∧ signBit (interpFrac fo c) = false ∧
    realValue (interpFrac fo c) ≤ 1 ∧ (interpFrac fo c = one → 2 ^ 25 ≤ fo)) ∧
  (∀ (d fo c : Nat) (w : List F32) (u v : F32), 0 < fo → w[c / fo]? = some u → w[c / fo + 1]? = some v →
    (∃ d₁ d₂ d₃ d₄, interp d fo w c =
      fadd d₄ (fmul d₂ u (fsub d₁ one (interpFrac fo c))) (fmul d₃ v (interpFrac fo c))) ∧
    (interpFrac fo c = 0 →
      (isFinite v = true → u = 0x80000000 → signBit v = false → interp d fo w c = 0) ∧
      (isFinite v = true → isNaN u = false → ¬ (u = 0x80000000 ∧ signBit v = false) → interp d fo w c = u) ∧
      (isFinite v = false ∨ isNaN u = true → isNaN (interp d fo w c) = true)))

/-- 45_resampler.md R241: RESAMPLE with RS_CONT = 0 answers `floor(N FS_OUT / FS_IN)` samples, interpolated at
`i FS_IN / FS_OUT`, or the last sample exactly where that is at the last sample; it neither reads nor writes stream
state. -/
def Obligations.LocalResampleRestartsEachPayload : Prop :=
  (∀ (s : State) (p : Payload) (rest : List HostInput), s.hostIn = .command ⟨0x00000006, p⟩ :: rest →
    step s = exec .resample s ∧ s.payload = p) ∧
  ∀ (s : State) (x : List F32) (fi fo : Nat), s.payload = .f32 x → (Payload.f32 x).fits s.maxLen = true →
    s.fsIn ≠ 0 → s.fsOut ≠ 0 → s.mode.getLsbD 1 = false → fi = s.fsIn.toNat → fo = s.fsOut.toNat →
    ∃ (out : List F32) (draws : Nat),
      exec .resample s = .next
        { s with nanDraws := draws, hostIn := s.hostIn.tail,
                 responses := s.responses ++ [Response.ok (Payload.f32 out)] } ∧
      out.length = x.length * fo / fi ∧
      ∀ i < x.length * fo / fi,
        i * fi / fo ≤ x.length - 1 ∧
        (i * fi / fo + 1 < x.length → ∃ d, out[i]? = some (interp d fo x (i * fi))) ∧
        (i * fi / fo + 1 = x.length → out[i]? = x[x.length - 1]?)

/-- 45_resampler.md R246: on a constant finite input other than `-0` every local output with `frac = 0`, and every
clamped one, is that value; and at `frac = rnd32(1/3)` the values 12.0, 15.0 and 0.1 of the rule. -/
def Obligations.ConstantInputStaysConstantAtWholePositions : Prop :=
  (∀ (s : State) (n fi fo : Nat) (v : F32), s.payload = .f32 (List.replicate n v) →
    (Payload.f32 (List.replicate n v)).fits s.maxLen = true → s.fsIn ≠ 0 → s.fsOut ≠ 0 →
    s.mode.getLsbD 1 = false → isFinite v = true → v ≠ 0x80000000 → fi = s.fsIn.toNat → fo = s.fsOut.toNat →
    ∃ (t : State) (out : List F32),
      exec .resample s = .next t ∧ t.responses = s.responses ++ [Response.ok (Payload.f32 out)] ∧
      out.length = n * fo / fi ∧
      ∀ (i : Nat) (o : F32), out[i]? = some o → interpFrac fo (i * fi) = 0 ∨ n ≤ i * fi / fo + 1 → o = v) ∧
  (∀ d, interp d 3 [0x41400000, 0x41400000] 1 = 0x41400000 ∧ interp d 3 [0x41700000, 0x41700000] 1 = 0x416FFFFF ∧
    interp d 3 [0x3DCCCCCD, 0x3DCCCCCD] 1 = 0x3DCCCCCC)

/-- 45_resampler.md R242: RESAMPLE with RS_CONT = 1 answers `interp(w, RS_NUM + k FS_IN)` for every `k` whose right
neighbour has arrived, and leaves the cursor, the last sample and its valid bit; with no sample at all it changes
nothing. -/
def Obligations.ContinuousResampleCarriesTheCursor : Prop :=
  (∀ (s : State) (p : Payload) (rest : List HostInput), s.hostIn = .command ⟨0x00000006, p⟩ :: rest →
    step s = exec .resample s ∧ s.payload = p) ∧
  ∀ (s : State) (x w : List F32) (fi fo : Nat), s.payload = .f32 x → (Payload.f32 x).fits s.maxLen = true →
    s.fsIn ≠ 0 → s.fsOut ≠ 0 → s.mode.getLsbD 1 = true → fi = s.fsIn.toNat → fo = s.fsOut.toNat →
    w = (if s.rsLbv then [s.rsLb] ++ x else x) →
    (w = [] → exec .resample s = .next
      { s with hostIn := s.hostIn.tail, responses := s.responses ++ [Response.ok (Payload.f32 [])] }) ∧
    (w ≠ [] → ∃ (out : List F32) (num : Word) (lb : F32) (draws : Nat),
      exec .resample s = .next
        { s with rsNum := num, rsLb := lb, rsLbv := true, nanDraws := draws,
                 hostIn := s.hostIn.tail, responses := s.responses ++ [Response.ok (Payload.f32 out)] } ∧
      w.getLast? = some lb ∧
      num.toNat + (w.length - 1) * fo = s.rsNum.toNat + out.length * fi ∧
      w.length ≤ (s.rsNum.toNat + out.length * fi) / fo + 1 ∧
      ∀ k < out.length, (s.rsNum.toNat + k * fi) / fo + 1 < w.length ∧
        ∃ d, out[k]? = some (interp d fo w (s.rsNum.toNat + k * fi)))

/-- 45_resampler.md R243: RESAMPLE faults on a payload that is not F32 or is over MAX_LEN, and then while a rate is 0;
on nothing else. -/
def Obligations.ResampleFaultsAsTheRuleSays : Prop :=
  (∀ (s : State) (c : Command) (rest : List HostInput), s.hostIn = .command c :: rest →
    opField c.word = 0x06 →
    step s = if c.word = 0x00000006 then exec .resample s else .next (s.takeFault .illegalCommand)) ∧
  (∀ s : State, s.payload.kind ≠ .f32 ∨ s.payload.fits s.maxLen = false →
    exec .resample s = .next (s.takeFault .operandFormat)) ∧
  (∀ s : State, s.payload.kind = .f32 → s.payload.fits s.maxLen = true → (s.fsIn = 0 ∨ s.fsOut = 0) →
    exec .resample s = .next (s.takeFault .config)) ∧
  (∀ s : State, s.payload.kind = .f32 → s.payload.fits s.maxLen = true → s.fsIn ≠ 0 → s.fsOut ≠ 0 →
    ∃ t out, exec .resample s = .next t ∧ t.responses = s.responses ++ [Response.ok (Payload.f32 out)])

/-- 45_resampler.md R244 (b): in a session of RESAMPLE commands with RS_CONT = 1 the outputs, concatenated over all
commands, are `interp(X, k FS_IN)` for `k` below `ceil((M - 1) FS_OUT / FS_IN)`, X being all inputs and M their
number, whatever the split of X into payloads; and the cursor and the lookback the session leaves are those of X.
The draw numbers `s.nanDraws + 4 k` are the model's (log 5). Sessions that PROCESS feeds too are the statement
SessionWithProcessIsOneInterpolation. -/
def Obligations.SessionOutputIsIndependentOfTheSplit : Prop :=
  ∀ (s : State) (xs : List (List F32)) (fi fo count : Nat),
    s.hostIn = xs.map (fun x => .command (assemble .resample (.f32 x))) →
    (∀ x ∈ xs, (Payload.f32 x).fits s.maxLen = true) →
    s.fsIn ≠ 0 → s.fsOut ≠ 0 → s.mode.getLsbD 1 = true → s.rsNum = 0 → s.rsLbv = false →
    xs.flatten ≠ [] → fi = s.fsIn.toNat → fo = s.fsOut.toNat →
    count = ((xs.flatten.length - 1) * fo + (fi - 1)) / fi →
    ∃ (t : State) (outs : List (List F32)),
      Host.Core.run core xs.length s = .next t ∧
      t.responses = s.responses ++ outs.map (fun o => .ok (.f32 o)) ∧ outs.length = xs.length ∧
      outs.flatten = (List.range count).map
        (fun k => interp (s.nanDraws + 4 * k) fo xs.flatten (k * fi)) ∧
      t.rsNum.toNat + (xs.flatten.length - 1) * fo = count * fi ∧
      xs.flatten.getLast? = some t.rsLb ∧ t.rsLbv = true ∧ t.hostIn = []

/-- 45_resampler.md R244 (c): for a single payload from the reset resampler state, output `k` of the continuous mode
equals output `k` of the buffer-local mode wherever the latter does not clamp and both have one. Where such an output
is a NaN, the two are equal because the model numbers their draws alike (log 5). -/
def Obligations.BothResamplersAgreeBeforeTheClamp : Prop :=
  ∀ (s : State) (x : List F32) (m₀ m₁ : BitVec 3), (Payload.f32 x).fits s.maxLen = true →
    s.fsIn ≠ 0 → s.fsOut ≠ 0 → s.rsNum = 0 → s.rsLbv = false →
    m₀.getLsbD 1 = false → m₁.getLsbD 1 = true →
    ∃ (t₀ t₁ : State) (o₀ o₁ : List F32),
      step (({ s with mode := m₀ }).offer .resample (.f32 x)) = .next t₀ ∧
      t₀.responses = s.responses ++ [Response.ok (Payload.f32 o₀)] ∧
      step (({ s with mode := m₁ }).offer .resample (.f32 x)) = .next t₁ ∧
      t₁.responses = s.responses ++ [Response.ok (Payload.f32 o₁)] ∧
      ∀ k < o₀.length, k < o₁.length → k * s.fsIn.toNat / s.fsOut.toNat + 1 < x.length → o₁[k]? = o₀[k]?

/-- 46_pipeline_and_control.md R270, R274: a PROCESS that passes its checks completes, and its result and the
registers it leaves are those of the five standalone commands in sequence, each given the result of the one
before it, none of which faults; each operation keeps its own NaN draw
(the model's numbering, log 5). -/
def Obligations.ProcessEqualsTheFiveStages : Prop :=
  (∀ (s : State) (c : Command) (rest : List HostInput), s.hostIn = .command c :: rest →
    opField c.word = 0x07 →
    step s = if c.word = 0x00000007 then exec .process s else .next (s.takeFault .illegalCommand)) ∧
  ∀ (s : State) (b : List Byte), s.payload = .bytes b → (Payload.bytes b).fits s.maxLen = true →
    s.fsIn ≠ 0 → s.fsOut ≠ 0 → b.length % 2 = 0 →
    (s.bufBytes = 0 ∨ b.length = 0 ∨ b.length = s.bufBytes.toNat) →
    ∃ (t t₁ t₂ t₃ t₄ t₅ : State) (iq : List IQ) (audio gated flat out : List F32),
      step (s.offer .iqdec (.bytes b)) = .next t₁ ∧ t₁.responses = s.responses ++ [Response.ok (Payload.iq iq)] ∧
      step (t₁.offer .fmdemod (.iq iq)) = .next t₂ ∧
        t₂.responses = t₁.responses ++ [Response.ok (Payload.f32 audio)] ∧
      step (t₂.offer .squelch (.f32 audio)) = .next t₃ ∧
        t₃.responses = t₂.responses ++ [Response.ok (Payload.f32 gated)] ∧
      step (t₃.offer .deemph (.f32 gated)) = .next t₄ ∧
        t₄.responses = t₃.responses ++ [Response.ok (Payload.f32 flat)] ∧
      step (t₄.offer .resample (.f32 flat)) = .next t₅ ∧
        t₅.responses = t₄.responses ++ [Response.ok (Payload.f32 out)] ∧
      exec .process s = .next t ∧ t.responses = s.responses ++ [Response.ok (Payload.f32 out)] ∧
      t.hostIn = s.hostIn.tail ∧ t.regs = t₅.regs ∧ t.nanDraws = t₅.nanDraws

/-- 46_pipeline_and_control.md R270, 60_exceptions.md R303: the faults of PROCESS in their order: OPERAND_FORMAT,
CONFIG, STREAM_INTEGRITY, all before any stage runs. -/
def Obligations.ProcessFaultsBeforeAnyStage : Prop :=
  (∀ s : State, s.payload.kind ≠ .bytes ∨ s.payload.fits s.maxLen = false →
    exec .process s = .next (s.takeFault .operandFormat)) ∧
  (∀ s : State, s.payload.kind = .bytes → s.payload.fits s.maxLen = true → (s.fsIn = 0 ∨ s.fsOut = 0) →
    exec .process s = .next (s.takeFault .config)) ∧
  (∀ (s : State) (b : List Byte), s.payload = .bytes b → (Payload.bytes b).fits s.maxLen = true →
    s.fsIn ≠ 0 → s.fsOut ≠ 0 →
    (b.length % 2 = 1 ∨ (s.bufBytes ≠ 0 ∧ b.length ≠ 0 ∧ b.length ≠ s.bufBytes.toNat)) →
    exec .process s = .next (s.takeFault .streamIntegrity))

/-- 46_pipeline_and_control.md R271: RSTATE puts every stream-state register at its reset value and changes no other
register; from the reset state it changes nothing; another payload than `None` faults. -/
def Obligations.RstateResetsTheStreamState : Prop :=
  (∀ (s : State) (c : Command) (rest : List HostInput), s.hostIn = .command c :: rest →
    opField c.word = 0x08 →
    step s = if c.word = 0x00000008 then exec .rstate s else .next (s.takeFault .illegalCommand)) ∧
  (∀ s : State, s.payload = .none →
    exec .rstate s = .next
      { s with deY := 0, rsNum := 0, rsLb := 0, rsLbv := false, dmPrev := ⟨0, 0⟩, dmPrevv := false,
               hostIn := s.hostIn.tail, responses := s.responses ++ [.ok .none] }) ∧
  (∀ s : State, s.payload ≠ .none → exec .rstate s = .next (s.takeFault .operandFormat)) ∧
  (∀ m : MaxLen, ∃ t, step ((State.resetWith m).offer .rstate .none) = .next t ∧
    t.regs = (State.resetWith m).regs)

/-- 46_pipeline_and_control.md R272: CSRR answers the value of each implemented CSR, bit for
bit, and changes no register; a reserved number faults before the payload is looked at, another payload than `None`
after it. -/
def Obligations.CsrrReadsEveryRegister : Prop :=
  (∀ (s : State) (c : Command) (rest : List HostInput), s.hostIn = .command c :: rest →
    opField c.word = 0x09 →
    step s = if resField c.word = 0 then exec (.csrr (argField c.word)) s
      else .next (s.takeFault .illegalCommand)) ∧
  (∀ (s : State) (n : Byte), s.payload = .none → n.toNat ≤ 0x0C →
    ∃ v : Word,
      exec (.csrr n) s = .next
        { s with hostIn := s.hostIn.tail, responses := s.responses ++ [Response.ok (Payload.word v)] } ∧
      (n = 0x00 → v.toNat = s.mode.toNat) ∧ (n = 0x01 → v = s.fsIn) ∧ (n = 0x02 → v = s.fsOut) ∧
      (n = 0x03 → v = s.sqThresh) ∧ (n = 0x04 → v = s.bufBytes) ∧
      (n = 0x05 → v.toNat = s.status.errCode.toNat * 2 ^ 8 + s.status.overflow.toNat * 2 + s.status.fault.toNat) ∧
      (n = 0x06 → v = if s.fsIn = 0 then 0 else alpha s.fsIn.toNat) ∧
      (n = 0x07 → v = s.deY) ∧ (n = 0x08 → v = s.rsNum) ∧ (n = 0x09 → v = s.rsLb) ∧
      (n = 0x0A → v = s.dmPrev.i) ∧ (n = 0x0B → v = s.dmPrev.q) ∧
      (n = 0x0C → v.toNat = s.dmPrevv.toNat * 2 + s.rsLbv.toNat)) ∧
  (∀ (s : State) (n : Byte), 0x0D ≤ n.toNat → exec (.csrr n) s = .next (s.takeFault .illegalCsr)) ∧
  (∀ (s : State) (n : Byte), n.toNat ≤ 0x0C → s.payload ≠ .none →
    exec (.csrr n) s = .next (s.takeFault .operandFormat))

/-- 46_pipeline_and_control.md R273, 10_state.md R47: CSRW writes the named CSR as its row says, with the side effects
on stream state of MODE, FS_IN and FS_OUT and no others, whatever the value held before. -/
def Obligations.CsrwWritesEveryRegister : Prop :=
  (∀ (s : State) (c : Command) (rest : List HostInput), s.hostIn = .command c :: rest →
    opField c.word = 0x0A →
    step s = if resField c.word = 0 then exec (.csrw (argField c.word)) s
      else .next (s.takeFault .illegalCommand)) ∧
  (∀ (s t : State) (v : Word), s.payload = .word v →
    t = { s with hostIn := s.hostIn.tail, responses := s.responses ++ [.ok .none] } →
    exec (.csrw 0x00) s = .next
      { t with mode := BitVec.ofNat 3 (v.toNat % 8), deY := 0, rsNum := 0, rsLb := 0, rsLbv := false,
               dmPrev := ⟨0, 0⟩, dmPrevv := false } ∧
    exec (.csrw 0x01) s = .next { t with fsIn := v, rsNum := 0, rsLb := 0, rsLbv := false } ∧
    exec (.csrw 0x02) s = .next { t with fsOut := v, rsNum := 0, rsLb := 0, rsLbv := false } ∧
    exec (.csrw 0x03) s = .next { t with sqThresh := v } ∧
    exec (.csrw 0x04) s = .next { t with bufBytes := BitVec.ofNat 32 (v.toNat / 2 * 2) } ∧
    exec (.csrw 0x05) s = .next { t with status := ⟨false, false, 0⟩ }) ∧
  (∀ (s : State) (n : Byte), 0x06 ≤ n.toNat → exec (.csrw n) s = .next (s.takeFault .illegalCsr)) ∧
  (∀ (s : State) (n : Byte), n.toNat ≤ 0x05 → s.payload.kind ≠ .word →
    exec (.csrw n) s = .next (s.takeFault .operandFormat))

/-! ### Faults, responses and reset -/

/-- 60_exceptions.md R301, R302: what taking a fault does to STATUS and the response port, for each code of R300. -/
def Obligations.TakingAFaultLatchesTheFirstCode : Prop :=
  ∀ (s : State) (c : FaultCode),
    (s.status.fault = false → s.takeFault c =
      { s with status := ⟨true, s.status.overflow, c.code⟩, hostIn := s.hostIn.tail,
               responses := s.responses ++ [Response.fault c] }) ∧
    (s.status.fault = true → s.takeFault c =
      { s with status := ⟨true, true, s.status.errCode⟩, hostIn := s.hostIn.tail,
               responses := s.responses ++ [Response.fault c] }) ∧
    c.code = (match c with
      | .illegalCommand => 0x01#8 | .operandFormat => 0x02#8 | .illegalCsr => 0x03#8
      | .config => 0x04#8 | .streamIntegrity => 0x05#8)

/-- 60_exceptions.md R301, R303, R304: a command reports exactly the first fault that applies in the order of R303
and then changes nothing but STATUS; a command none applies to answers `Ok`. -/
def Obligations.EveryCommandReportsItsFirstFault : Prop :=
  ∀ (s : State) (c : Command) (rest : List HostInput), s.hostIn = .command c :: rest →
    (∀ code, firstFault s c = some code → step s = .next
      { s with status := s.status.onFault code, hostIn := rest,
               responses := s.responses ++ [Response.fault code] }) ∧
    (firstFault s c = none → ∃ t p, step s = .next t ∧
      t.responses = s.responses ++ [Response.ok p] ∧ t.hostIn = rest)

/-- 60_exceptions.md R305, 70_reset_and_hazards.md R352, 93_implementation_defined.md part 1 ("Nothing in the block is
`stuck` or `refuse`"): from every state a step gives a next state. -/
def Obligations.TheBlockNeverStops : Prop :=
  ∀ s : State, ∃ t, step s = .next t

/-- 20_memory.md R71, 60_exceptions.md R315, 70_reset_and_hazards.md R340: a step answers a command with exactly one
response and takes nothing else from the host; with nothing sent it changes nothing; a reset has no response. -/
def Obligations.OneResponsePerCommand : Prop :=
  ∀ s t : State, step s = .next t →
    (∀ c rest, s.hostIn = .command c :: rest →
      t.hostIn = rest ∧ ∃ r, t.responses = s.responses ++ [r]) ∧
    (s.hostIn = [] → t = s) ∧
    (∀ rest, s.hostIn = .reset :: rest → t.hostIn = rest ∧ t.responses = s.responses) ∧
    (∀ c rest, s.hostIn = .resetDuring c :: rest → t.hostIn = rest ∧ t.responses = s.responses)

/-- 60_exceptions.md R317: over a run of commands none of which is a `CSRW STATUS`, from a state without a latched
fault, every response is `Ok` exactly when no fault is latched at the end. -/
def Obligations.FaultFreeRunIffStatusClear : Prop :=
  ∀ (cs : List Command) (s t : State), s.hostIn = cs.map .command → s.status.fault = false →
    (∀ c ∈ cs, decodeWord c.word ≠ .ok (.csrw 0x05)) →
    Host.Core.run core cs.length s = .next t →
    ((∀ r ∈ t.responses.drop s.responses.length, r.isOk = true) ↔ t.status.fault = false)

/-- 60_exceptions.md R302: what every step does to STATUS: a fault latches as `on_fault` says, a `CSRW STATUS` that
completes and the reset input clear it, and nothing else changes it. -/
def Obligations.StatusChangesOnlyByFaultClearOrReset : Prop :=
  ∀ s t : State, step s = .next t →
    (∀ c rest code, s.hostIn = .command c :: rest → firstFault s c = some code →
      t.status = if s.status.fault then ⟨true, true, s.status.errCode⟩
        else ⟨true, s.status.overflow, code.code⟩) ∧
    (∀ c rest, s.hostIn = .command c :: rest → firstFault s c = none →
      t.status = if decodeWord c.word = .ok (.csrw 0x05) then ⟨false, false, 0⟩ else s.status) ∧
    (∀ rest, s.hostIn = .reset :: rest → t.status = ⟨false, false, 0⟩) ∧
    (∀ c rest, s.hostIn = .resetDuring c :: rest → t.status = ⟨false, false, 0⟩) ∧
    (s.hostIn = [] → t.status = s.status)

/-- 70_reset_and_hazards.md R340: the value of every register after reset; and the reset input, between commands or
during one, which is then discarded without a response, puts every register at that value. -/
def Obligations.ResetGivesEveryRegisterItsValue : Prop :=
  (csrValue State.reset .mode = 0x00000003 ∧ State.reset.fsIn = 0 ∧ State.reset.fsOut = 0 ∧
   State.reset.sqThresh = 0x00000000 ∧ State.reset.bufBytes = 0 ∧ csrValue State.reset .status = 0 ∧
   csrValue State.reset .alpha = 0x00000000 ∧ State.reset.deY = 0 ∧ State.reset.rsNum = 0 ∧
   State.reset.rsLb = 0 ∧ State.reset.rsLbv = false ∧ State.reset.dmPrev = ⟨0, 0⟩ ∧
   State.reset.dmPrevv = false) ∧
  (∀ (s : State) (r : HostInput) (rest : List HostInput), s.hostIn = r :: rest →
    (r = .reset ∨ ∃ c, r = .resetDuring c) →
    ∃ t, step s = .next t ∧ t.regs = State.reset.regs ∧ t.hostIn = rest ∧ t.responses = s.responses)

/-- 70_reset_and_hazards.md R341: the stream-state registers after reset equal those after RSTATE; reset also sets the
configuration and STATUS, which RSTATE leaves alone; and an RSTATE right after reset changes no register. -/
def Obligations.ResetAndRstateAgreeOnStreamState : Prop :=
  (∀ (s s' t t' : State) (rest : List HostInput), s.hostIn = .reset :: rest → s'.payload = .none →
    step s = .next t → exec .rstate s' = .next t' →
    t.deY = t'.deY ∧ t.rsNum = t'.rsNum ∧ t.rsLb = t'.rsLb ∧ t.rsLbv = t'.rsLbv ∧ t.dmPrev = t'.dmPrev ∧
    t.dmPrevv = t'.dmPrevv ∧
    t.mode = 3#3 ∧ t.fsIn = 0 ∧ t.fsOut = 0 ∧ t.sqThresh = 0 ∧ t.bufBytes = 0 ∧ t.status = ⟨false, false, 0⟩ ∧
    t'.mode = s'.mode ∧ t'.fsIn = s'.fsIn ∧ t'.fsOut = s'.fsOut ∧ t'.sqThresh = s'.sqThresh ∧
    t'.bufBytes = s'.bufBytes ∧ t'.status = s'.status ∧ t.responses = s.responses) ∧
  (∀ m : MaxLen, ∃ t, step ((State.resetWith m).offer .rstate .none) = .next t ∧
    t.regs = (State.resetWith m).regs)

/-! ### Invariants and whole-machine rules -/

/-- 10_state.md R37, R38, R42, R44, R47, 45_resampler.md R244 (a), 60_exceptions.md R300: every step keeps the invariant
of the registers. -/
def Obligations.EveryStepKeepsTheInvariant : Prop :=
  ∀ s t : State, s.Inv → step s = .next t → t.Inv

/-- 70_reset_and_hazards.md R340: the invariant holds after reset. -/
def Obligations.TheInvariantHoldsAtReset : Prop :=
  State.reset.Inv

/-- 10_state.md R41 to R44, R47, 46_pipeline_and_control.md R271: which commands may change a stream-state register:
DE_Y only DEEMPH, PROCESS, RSTATE and a CSRW MODE; the resampler registers only RESAMPLE and PROCESS in continuous
mode, RSTATE and a CSRW of MODE, FS_IN or FS_OUT; the demodulator lookback only FMDEMOD and PROCESS with DM_CONT = 1,
RSTATE and a CSRW MODE. -/
def Obligations.OnlyNamedCommandsWriteStreamState : Prop :=
  ∀ (s t : State) (i : Instr), exec i s = .next t →
    (t.deY ≠ s.deY → i ∈ [.deemph, .process, .rstate, .csrw 0x00]) ∧
    (t.rsNum ≠ s.rsNum ∨ t.rsLb ≠ s.rsLb ∨ t.rsLbv ≠ s.rsLbv →
      (i ∈ [.resample, .process] ∧ s.mode.getLsbD 1 = true) ∨
      i ∈ [.rstate, .csrw 0x00, .csrw 0x01, .csrw 0x02]) ∧
    (t.dmPrev ≠ s.dmPrev ∨ t.dmPrevv ≠ s.dmPrevv →
      (i ∈ [.fmdemod, .process] ∧ s.mode.getLsbD 2 = true) ∨ i ∈ [.rstate, .csrw 0x00])

/-- 10_state.md R32 to R37, 46_pipeline_and_control.md R273: a configuration CSR changes only by a CSRW that names it,
and MAX_LEN by nothing. -/
def Obligations.OnlyCsrwWritesConfiguration : Prop :=
  ∀ (s t : State) (i : Instr), exec i s = .next t →
    (t.mode ≠ s.mode → i = .csrw 0x00) ∧ (t.fsIn ≠ s.fsIn → i = .csrw 0x01) ∧
    (t.fsOut ≠ s.fsOut → i = .csrw 0x02) ∧ (t.sqThresh ≠ s.sqThresh → i = .csrw 0x03) ∧
    (t.bufBytes ≠ s.bufBytes → i = .csrw 0x04) ∧ t.maxLen = s.maxLen

/-- 10_state.md R48, 20_memory.md R80: there is no hidden state: a command's response and the registers it leaves do not
depend on what was answered before or what the host will send next. The two runs compared have the same draw count,
hence the same NaNs (log 5). -/
def Obligations.CommandsSeeOnlyTheRegisters : Prop :=
  ∀ (i : Instr) (s : State) (p : Payload) (w w' : Word) (rest rest' : List HostInput) (rs rs' : List Response),
    ∃ (t t' : State) (r : Response),
      exec i { s with hostIn := .command ⟨w, p⟩ :: rest, responses := rs } = .next t ∧
      exec i { s with hostIn := .command ⟨w', p⟩ :: rest', responses := rs' } = .next t' ∧
      t.regs = t'.regs ∧ t.nanDraws = t'.nanDraws ∧ t.maxLen = t'.maxLen ∧
      t.responses = rs ++ [r] ∧ t'.responses = rs' ++ [r] ∧ t.hostIn = rest ∧ t'.hostIn = rest'

/-! ### Frames -/

/-- 20_memory.md R78, 60_exceptions.md R304: ENCODE, IQDEC, SQUELCH and CSRR change no register but STATUS, and STATUS
only with a fault. -/
def Obligations.PureCommandsChangeOnlyStatus : Prop :=
  ∀ (i : Instr) (o n : Byte) (s t : State), i ∈ [.encode o, .iqdec, .squelch, .csrr n] → exec i s = .next t →
    t = { s with status := t.status, hostIn := s.hostIn.tail, responses := t.responses } ∧
    (t.status = s.status ∨ ∃ c, t.responses = s.responses ++ [Response.fault c] ∧ t.status = s.status.onFault c)

/-- 42_fm_demodulator.md R181, R182: FMDEMOD changes no register but the demodulator lookback, that only with
DM_CONT = 1, and STATUS with a fault. -/
def Obligations.FmdemodFrame : Prop :=
  ∀ s t : State, exec .fmdemod s = .next t →
    t = { s with dmPrev := t.dmPrev, dmPrevv := t.dmPrevv, status := t.status, nanDraws := t.nanDraws,
                 hostIn := s.hostIn.tail, responses := t.responses } ∧
    (s.mode.getLsbD 2 = false → t.dmPrev = s.dmPrev ∧ t.dmPrevv = s.dmPrevv) ∧
    (t.status = s.status ∨ ∃ c, t = s.takeFault c)

/-- 44_deemphasis.md R221: DEEMPH changes no register but DE_Y, and STATUS with a fault. -/
def Obligations.DeemphFrame : Prop :=
  ∀ s t : State, exec .deemph s = .next t →
    t = { s with deY := t.deY, status := t.status, nanDraws := t.nanDraws,
                 hostIn := s.hostIn.tail, responses := t.responses } ∧
    (t.status = s.status ∨ ∃ c, t = s.takeFault c)

/-- 45_resampler.md R241, R242: RESAMPLE changes no register but the resampler's, those only with RS_CONT = 1, and
STATUS with a fault. -/
def Obligations.ResampleFrame : Prop :=
  ∀ s t : State, exec .resample s = .next t →
    t = { s with rsNum := t.rsNum, rsLb := t.rsLb, rsLbv := t.rsLbv, status := t.status, nanDraws := t.nanDraws,
                 hostIn := s.hostIn.tail, responses := t.responses } ∧
    (s.mode.getLsbD 1 = false → t.rsNum = s.rsNum ∧ t.rsLb = s.rsLb ∧ t.rsLbv = s.rsLbv) ∧
    (t.status = s.status ∨ ∃ c, t = s.takeFault c)

/-- 46_pipeline_and_control.md R270: PROCESS changes no register but the stream state, the resampler's part only with
RS_CONT = 1 and the demodulator's only with DM_CONT = 1, and STATUS with a fault; on an empty payload it changes
nothing but DE_Y, and that only with DE_CONT = 0. -/
def Obligations.ProcessFrame : Prop :=
  ∀ s t : State, exec .process s = .next t →
    t = { s with deY := t.deY, rsNum := t.rsNum, rsLb := t.rsLb, rsLbv := t.rsLbv, dmPrev := t.dmPrev,
                 dmPrevv := t.dmPrevv, status := t.status, nanDraws := t.nanDraws,
                 hostIn := s.hostIn.tail, responses := t.responses } ∧
    (s.mode.getLsbD 1 = false → t.rsNum = s.rsNum ∧ t.rsLb = s.rsLb ∧ t.rsLbv = s.rsLbv) ∧
    (s.mode.getLsbD 2 = false → t.dmPrev = s.dmPrev ∧ t.dmPrevv = s.dmPrevv) ∧
    (s.payload = .bytes [] → s.fsIn ≠ 0 → s.fsOut ≠ 0 →
      t.responses = s.responses ++ [Response.ok (Payload.f32 [])] ∧
      t.regs = { s with deY := if s.mode.getLsbD 0 then s.deY else 0 }.regs) ∧
    (t.status = s.status ∨ ∃ c, t = s.takeFault c)

/-- 46_pipeline_and_control.md R271: RSTATE changes no register but the stream state, and STATUS with a fault. -/
def Obligations.RstateFrame : Prop :=
  ∀ s t : State, exec .rstate s = .next t →
    t = { s with deY := t.deY, rsNum := t.rsNum, rsLb := t.rsLb, rsLbv := t.rsLbv, dmPrev := t.dmPrev,
                 dmPrevv := t.dmPrevv, status := t.status, hostIn := s.hostIn.tail, responses := t.responses } ∧
    (t.status = s.status ∨ ∃ c, t = s.takeFault c)

/-- 46_pipeline_and_control.md R273, 10_state.md R47: CSRW changes no register but the one it names, the stream state as
R47 says for MODE, FS_IN and FS_OUT, and STATUS with a fault; it draws no NaN. -/
def Obligations.CsrwFrame : Prop :=
  ∀ (n : Byte) (s t : State), exec (.csrw n) s = .next t →
    t.hostIn = s.hostIn.tail ∧ t.maxLen = s.maxLen ∧ t.nanDraws = s.nanDraws ∧
    (n ≠ 0x00 → t.mode = s.mode ∧ t.deY = s.deY ∧ t.dmPrev = s.dmPrev ∧ t.dmPrevv = s.dmPrevv) ∧
    (n ≠ 0x01 → t.fsIn = s.fsIn) ∧ (n ≠ 0x02 → t.fsOut = s.fsOut) ∧ (n ≠ 0x03 → t.sqThresh = s.sqThresh) ∧
    (n ≠ 0x04 → t.bufBytes = s.bufBytes) ∧
    (n ≠ 0x00 → n ≠ 0x01 → n ≠ 0x02 → t.rsNum = s.rsNum ∧ t.rsLb = s.rsLb ∧ t.rsLbv = s.rsLbv) ∧
    (t.status = s.status ∨ (n = 0x05 ∧ t.status = ⟨false, false, 0⟩) ∨
      ∃ c, t = s.takeFault c)

/-! ### Arithmetic -/

/-- 00_scope.md R12: the rounding the model runs on rationals is `rnd32`: nearest, ties to the even fraction, infinite
from 2^128 - 2^103 on, subnormals kept, `rnd32(0) = +0`. That a number other than 0 which rounds to zero gives the
zero of its sign is the model's reading (log 10, DEDUCED): the rule's words do not say which zero. -/
def Obligations.RoundingIsNearestEven : Prop :=
  ∀ (neg : Bool) (num den : Nat), 0 < den →
    IsRnd32 ((if neg then -1 else 1) * ((num : ℝ) / (den : ℝ))) (rnd32 neg num den)

/-- 00_scope.md R13: `fadd` and `fsub` of finite operands: `rnd32` of the exact result where it is not 0, else `+0` but
for `(-0) + (-0)` and `(-0) - (+0)`; infinities as IEEE 754, `finite - inf` the infinity of the other sign; the drawn
NaN for a NaN operand, for infinities of unlike signs added and for infinities of like signs subtracted. The sign of
a result rounded to zero is log 10, the infinite cases the rule leaves to IEEE 754 are log 11. -/
def Obligations.AdditionRoundsTheExactSum : Prop :=
  ∀ (d : Nat) (a b : F32),
    (isFinite a = true → isFinite b = true → realValue a + realValue b ≠ 0 →
      IsRnd32 (realValue a + realValue b) (fadd d a b)) ∧
    (isFinite a = true → isFinite b = true → realValue a - realValue b ≠ 0 →
      IsRnd32 (realValue a - realValue b) (fsub d a b)) ∧
    (isFinite a = true → isFinite b = true → realValue a + realValue b = 0 →
      fadd d a b = if a = 0x80000000 ∧ b = 0x80000000 then 0x80000000 else 0) ∧
    (isFinite a = true → isFinite b = true → realValue a - realValue b = 0 →
      fsub d a b = if a = 0x80000000 ∧ b = 0 then 0x80000000 else 0) ∧
    (isInf a = true → isFinite b = true → fadd d a b = a ∧ fadd d b a = a) ∧
    (isInf a = true → isInf b = true → signBit a = signBit b → fadd d a b = a) ∧
    (isInf a = true → isInf b = true → signBit a ≠ signBit b →
      fadd d a b = (Config.nanOut d).pattern ∧ isNaN (fadd d a b) = true) ∧
    (isNaN a = true ∨ isNaN b = true → fadd d a b = (Config.nanOut d).pattern ∧ isNaN (fadd d a b) = true) ∧
    (isInf a = true → isFinite b = true → fsub d a b = a ∧ fsub d b a = a ^^^ 0x80000000) ∧
    (isInf a = true → isInf b = true → signBit a ≠ signBit b → fsub d a b = a) ∧
    (isInf a = true → isInf b = true → signBit a = signBit b →
      fsub d a b = (Config.nanOut d).pattern ∧ isNaN (fsub d a b) = true) ∧
    (isNaN a = true ∨ isNaN b = true → fsub d a b = (Config.nanOut d).pattern ∧ isNaN (fsub d a b) = true)

/-- 00_scope.md R13: `fmul`: `rnd32` of the exact product where it is not 0, a zero of the XOR of the signs where it is;
infinities as IEEE 754; a NaN for a NaN operand and for `0 × inf`. -/
def Obligations.MultiplicationRoundsTheExactProduct : Prop :=
  ∀ (d : Nat) (a b : F32),
    (isFinite a = true → isFinite b = true → realValue a * realValue b ≠ 0 →
      IsRnd32 (realValue a * realValue b) (fmul d a b)) ∧
    (isFinite a = true → isFinite b = true → realValue a * realValue b = 0 →
      fmul d a b = if signBit a = signBit b then 0 else 0x80000000) ∧
    (isInf a = true → isNaN b = false → magBits b ≠ 0 →
      isInf (fmul d a b) = true ∧ isInf (fmul d b a) = true ∧
      signBit (fmul d a b) = (signBit a ^^ signBit b) ∧ signBit (fmul d b a) = (signBit a ^^ signBit b)) ∧
    (isInf a = true → magBits b = 0 → isNaN (fmul d a b) = true ∧ isNaN (fmul d b a) = true) ∧
    (isNaN a = true ∨ isNaN b = true → fmul d a b = (Config.nanOut d).pattern ∧ isNaN (fmul d a b) = true)

/-- 00_scope.md R14: `flt` compares finite values as reals, `-0` and `+0` as equal, infinities beyond every finite value,
and is false for a NaN; `fabs` clears the sign bit of every pattern and nothing else. -/
def Obligations.ComparisonAndMagnitude : Prop :=
  (∀ a b : F32, isFinite a = true → isFinite b = true →
    (flt a b = true ↔ realValue a < realValue b)) ∧
  (∀ a b : F32, isFinite a = true → isInf b = true →
    flt a b = !signBit b ∧ flt b a = signBit b) ∧
  (∀ a b : F32, isInf a = true → isInf b = true → flt a b = (signBit a && !signBit b)) ∧
  (∀ a b : F32, isNaN a = true ∨ isNaN b = true → flt a b = false) ∧
  (∀ a : F32, signBit (fabs a) = false ∧ magBits (fabs a) = magBits a)

/-- 00_scope.md R11: `f32_of_u8` is exact, and the constants 1.0, 127.5 and 0.5 stand for those reals. -/
def Obligations.ByteConversionIsExact : Prop :=
  (∀ b : Byte, isFinite (f32OfU8 b) = true ∧ realValue (f32OfU8 b) = (b.toNat : ℝ)) ∧
  realValue one = 1 ∧ realValue dcOffset = 127.5 ∧ realValue 0x3F000000 = 0.5

/-! ### Sessions that RESAMPLE and PROCESS feed alike -/

/-- 45_resampler.md R244 (a), (b), R245: in a session with RS_CONT = 1, whichever RESAMPLE and PROCESS commands feed it
and whatever other commands stand between them, the outputs, concatenated, are `interp(X, k FS_IN)` for `k` below
`ceil((M - 1) FS_OUT / FS_IN)`, X being all that went into the resampler and M its length; the cursor and the
lookback are those of X, and the cursor is below FS_IN. What a PROCESS puts in is read off a second run, of the four
stages as commands of their own: where it holds a NaN, or a result that comes from one, the two runs agree because
the model numbers their draws alike (log 5). -/
def Obligations.SessionWithProcessIsOneInterpolation : Prop :=
  ∀ (x y : List F32) (s : State) (fi fo : Nat), ResamplerSession x y s → fi = s.fsIn.toNat → fo = s.fsOut.toNat →
    s.rsNum.toNat < fi ∧
    (x = [] → y = [] ∧ s.rsNum = 0 ∧ s.rsLbv = false) ∧
    (x ≠ [] →
      y.length = ((x.length - 1) * fo + (fi - 1)) / fi ∧
      (∀ k < y.length, ∃ d, y[k]? = some (interp d fo x (k * fi))) ∧
      s.rsNum.toNat + (x.length - 1) * fo = y.length * fi ∧
      x.getLast? = some s.rsLb ∧ s.rsLbv = true)
end

