-- ==== Sys2Proof/Laws/PerInstr.lean ====
section
/-! SUPPORT. Facts about each instruction as syntax, one lemma per constructor. -/

namespace Sys2Proof.Laws.WordShape

open Sys2Proof

/-- The word of an instruction has RES = 0 and carries its operation code and its argument in their fields
(30_encoding.md R100 to R103). -/
def Statement (i : Instr) : Prop :=
  resField (Sys2Proof.encode i) = 0 ∧ opField (Sys2Proof.encode i) = i.op ∧ argField (Sys2Proof.encode i) = i.arg

/-- The three fields of a word put together from them. -/
theorem fields (op a : Byte) :
    resField ((0#16 : BitVec 16) ++ a ++ op) = 0 ∧ opField ((0#16 : BitVec 16) ++ a ++ op) = op ∧
      argField ((0#16 : BitVec 16) ++ a ++ op) = a := by
  refine ⟨?_, ?_, ?_⟩ <;>
    (apply BitVec.eq_of_getLsbD_eq; intro k hk
     simp only [resField, opField, argField, BitVec.getLsbD_extractLsb', BitVec.getLsbD_append])
  · have h1 : ¬ 16 + k < 8 := by omega
    have h2 : ¬ 16 + k - 8 < 8 := by omega
    simp [hk, h1, h2]
  · simp [hk]
  · have h1 : ¬ 8 + k < 8 := by omega
    simp [hk, h1]

theorem encode (opc : Byte) : Statement (.encode opc) := fields 0x01 opc
theorem iqdec : Statement .iqdec := fields 0x02 0
theorem fmdemod : Statement .fmdemod := fields 0x03 0
theorem squelch : Statement .squelch := fields 0x04 0
theorem deemph : Statement .deemph := fields 0x05 0
theorem resample : Statement .resample := fields 0x06 0
theorem process : Statement .process := fields 0x07 0
theorem rstate : Statement .rstate := fields 0x08 0
theorem csrr (n : Byte) : Statement (.csrr n) := fields 0x09 n
theorem csrw (n : Byte) : Statement (.csrw n) := fields 0x0A n

end Sys2Proof.Laws.WordShape
end

