-- ==== Sys2Proof/Laws/Decode.lean ====
section
/-! SUPPORT. What a word that decodes says of the instruction, and a word put together from its fields. -/

namespace Sys2Proof

/-- Every instruction's word has the shape of `Laws.WordShape`. -/
theorem wordShape (i : Instr) : Laws.WordShape.Statement i := by
  cases i
  · exact Laws.WordShape.encode _
  · exact Laws.WordShape.iqdec
  · exact Laws.WordShape.fmdemod
  · exact Laws.WordShape.squelch
  · exact Laws.WordShape.deemph
  · exact Laws.WordShape.resample
  · exact Laws.WordShape.process
  · exact Laws.WordShape.rstate
  · exact Laws.WordShape.csrr _
  · exact Laws.WordShape.csrw _

/-- A word is its three fields, RES most significant. -/
theorem word_eq_fields (w : Word) : w = resField w ++ argField w ++ opField w := by
  apply BitVec.eq_of_getLsbD_eq; intro k hk
  simp only [resField, opField, argField, BitVec.getLsbD_extractLsb', BitVec.getLsbD_append]
  by_cases h1 : k < 8
  · simp [h1]
  · by_cases h2 : k - 8 < 8
    · simp [h1, h2, show 8 + (k - 8) = k by omega]
    · have h3 : k - 8 - 8 < 16 := by omega
      simp [h1, h2, h3, show 16 + (k - 8 - 8) = k by omega]

theorem decodeOp_ok {op a : Byte} {i : Instr} (h : decodeOp op a = .ok i) : i.op = op ∧ i.arg = a := by
  unfold decodeOp withoutArg at h
  split at h
  all_goals first
    | (cases h; done)
    | (split at h <;> first | (cases h; done) | skip)
    | skip
  all_goals
    injection h with h; subst h
    constructor <;> first | (apply BitVec.eq_of_toNat_eq; simp_all [Instr.op]; done) | simp_all [Instr.arg]

/-- The fields of a word that decodes. -/
theorem decodeWord_ok {w : Word} {i : Instr} (h : decodeWord w = .ok i) :
    resField w = 0 ∧ i.op = opField w ∧ i.arg = argField w := by
  unfold decodeWord at h
  split at h
  · exact ⟨by assumption, decodeOp_ok h⟩
  · cases h

end Sys2Proof
end

