-- ==== Sys2Proof/Laws/State.lean ====
section
/-! SUPPORT. What each shared operation on State leaves in each field: one lemma per field per operation. -/

namespace Sys2Proof.Machine

open Sys2Proof

variable (s : State)

/-! `respond` -/

@[simp] theorem State.respond_mode (r : Response) : (s.respond r).mode = s.mode := rfl
@[simp] theorem State.respond_fsIn (r : Response) : (s.respond r).fsIn = s.fsIn := rfl
@[simp] theorem State.respond_fsOut (r : Response) : (s.respond r).fsOut = s.fsOut := rfl
@[simp] theorem State.respond_sqThresh (r : Response) : (s.respond r).sqThresh = s.sqThresh := rfl
@[simp] theorem State.respond_bufBytes (r : Response) : (s.respond r).bufBytes = s.bufBytes := rfl
@[simp] theorem State.respond_status (r : Response) : (s.respond r).status = s.status := rfl
@[simp] theorem State.respond_deY (r : Response) : (s.respond r).deY = s.deY := rfl
@[simp] theorem State.respond_rsNum (r : Response) : (s.respond r).rsNum = s.rsNum := rfl
@[simp] theorem State.respond_rsLb (r : Response) : (s.respond r).rsLb = s.rsLb := rfl
@[simp] theorem State.respond_rsLbv (r : Response) : (s.respond r).rsLbv = s.rsLbv := rfl
@[simp] theorem State.respond_dmPrev (r : Response) : (s.respond r).dmPrev = s.dmPrev := rfl
@[simp] theorem State.respond_dmPrevv (r : Response) : (s.respond r).dmPrevv = s.dmPrevv := rfl
@[simp] theorem State.respond_maxLen (r : Response) : (s.respond r).maxLen = s.maxLen := rfl
@[simp] theorem State.respond_nanDraws (r : Response) : (s.respond r).nanDraws = s.nanDraws := rfl
@[simp] theorem State.respond_hostIn (r : Response) : (s.respond r).hostIn = s.hostIn.tail := rfl
@[simp] theorem State.respond_responses (r : Response) : (s.respond r).responses = s.responses ++ [r] := rfl

/-! `takeFault` -/

@[simp] theorem State.takeFault_mode (c : FaultCode) : (s.takeFault c).mode = s.mode := rfl
@[simp] theorem State.takeFault_fsIn (c : FaultCode) : (s.takeFault c).fsIn = s.fsIn := rfl
@[simp] theorem State.takeFault_fsOut (c : FaultCode) : (s.takeFault c).fsOut = s.fsOut := rfl
@[simp] theorem State.takeFault_sqThresh (c : FaultCode) : (s.takeFault c).sqThresh = s.sqThresh := rfl
@[simp] theorem State.takeFault_bufBytes (c : FaultCode) : (s.takeFault c).bufBytes = s.bufBytes := rfl
@[simp] theorem State.takeFault_status (c : FaultCode) : (s.takeFault c).status = s.status.onFault c := rfl
@[simp] theorem State.takeFault_deY (c : FaultCode) : (s.takeFault c).deY = s.deY := rfl
@[simp] theorem State.takeFault_rsNum (c : FaultCode) : (s.takeFault c).rsNum = s.rsNum := rfl
@[simp] theorem State.takeFault_rsLb (c : FaultCode) : (s.takeFault c).rsLb = s.rsLb := rfl
@[simp] theorem State.takeFault_rsLbv (c : FaultCode) : (s.takeFault c).rsLbv = s.rsLbv := rfl
@[simp] theorem State.takeFault_dmPrev (c : FaultCode) : (s.takeFault c).dmPrev = s.dmPrev := rfl
@[simp] theorem State.takeFault_dmPrevv (c : FaultCode) : (s.takeFault c).dmPrevv = s.dmPrevv := rfl
@[simp] theorem State.takeFault_maxLen (c : FaultCode) : (s.takeFault c).maxLen = s.maxLen := rfl
@[simp] theorem State.takeFault_nanDraws (c : FaultCode) : (s.takeFault c).nanDraws = s.nanDraws := rfl
@[simp] theorem State.takeFault_hostIn (c : FaultCode) : (s.takeFault c).hostIn = s.hostIn.tail := rfl
@[simp] theorem State.takeFault_responses (c : FaultCode) : (s.takeFault c).responses = s.responses ++ [.fault c] := rfl

/-! `resetResampler` -/

@[simp] theorem State.resetResampler_mode : (s.resetResampler).mode = s.mode := rfl
@[simp] theorem State.resetResampler_fsIn : (s.resetResampler).fsIn = s.fsIn := rfl
@[simp] theorem State.resetResampler_fsOut : (s.resetResampler).fsOut = s.fsOut := rfl
@[simp] theorem State.resetResampler_sqThresh : (s.resetResampler).sqThresh = s.sqThresh := rfl
@[simp] theorem State.resetResampler_bufBytes : (s.resetResampler).bufBytes = s.bufBytes := rfl
@[simp] theorem State.resetResampler_status : (s.resetResampler).status = s.status := rfl
@[simp] theorem State.resetResampler_deY : (s.resetResampler).deY = s.deY := rfl
@[simp] theorem State.resetResampler_rsNum : (s.resetResampler).rsNum = 0 := rfl
@[simp] theorem State.resetResampler_rsLb : (s.resetResampler).rsLb = 0 := rfl
@[simp] theorem State.resetResampler_rsLbv : (s.resetResampler).rsLbv = false := rfl
@[simp] theorem State.resetResampler_dmPrev : (s.resetResampler).dmPrev = s.dmPrev := rfl
@[simp] theorem State.resetResampler_dmPrevv : (s.resetResampler).dmPrevv = s.dmPrevv := rfl
@[simp] theorem State.resetResampler_maxLen : (s.resetResampler).maxLen = s.maxLen := rfl
@[simp] theorem State.resetResampler_nanDraws : (s.resetResampler).nanDraws = s.nanDraws := rfl
@[simp] theorem State.resetResampler_hostIn : (s.resetResampler).hostIn = s.hostIn := rfl
@[simp] theorem State.resetResampler_responses : (s.resetResampler).responses = s.responses := rfl

/-! `resetStream` -/

@[simp] theorem State.resetStream_mode : (s.resetStream).mode = s.mode := rfl
@[simp] theorem State.resetStream_fsIn : (s.resetStream).fsIn = s.fsIn := rfl
@[simp] theorem State.resetStream_fsOut : (s.resetStream).fsOut = s.fsOut := rfl
@[simp] theorem State.resetStream_sqThresh : (s.resetStream).sqThresh = s.sqThresh := rfl
@[simp] theorem State.resetStream_bufBytes : (s.resetStream).bufBytes = s.bufBytes := rfl
@[simp] theorem State.resetStream_status : (s.resetStream).status = s.status := rfl
@[simp] theorem State.resetStream_deY : (s.resetStream).deY = 0 := rfl
@[simp] theorem State.resetStream_rsNum : (s.resetStream).rsNum = 0 := rfl
@[simp] theorem State.resetStream_rsLb : (s.resetStream).rsLb = 0 := rfl
@[simp] theorem State.resetStream_rsLbv : (s.resetStream).rsLbv = false := rfl
@[simp] theorem State.resetStream_dmPrev : (s.resetStream).dmPrev = ⟨0, 0⟩ := rfl
@[simp] theorem State.resetStream_dmPrevv : (s.resetStream).dmPrevv = false := rfl
@[simp] theorem State.resetStream_maxLen : (s.resetStream).maxLen = s.maxLen := rfl
@[simp] theorem State.resetStream_nanDraws : (s.resetStream).nanDraws = s.nanDraws := rfl
@[simp] theorem State.resetStream_hostIn : (s.resetStream).hostIn = s.hostIn := rfl
@[simp] theorem State.resetStream_responses : (s.resetStream).responses = s.responses := rfl

/-! `takeReset` -/

@[simp] theorem State.takeReset_mode : (s.takeReset).mode = 3#3 := rfl
@[simp] theorem State.takeReset_fsIn : (s.takeReset).fsIn = 0 := rfl
@[simp] theorem State.takeReset_fsOut : (s.takeReset).fsOut = 0 := rfl
@[simp] theorem State.takeReset_sqThresh : (s.takeReset).sqThresh = 0 := rfl
@[simp] theorem State.takeReset_bufBytes : (s.takeReset).bufBytes = 0 := rfl
@[simp] theorem State.takeReset_status : (s.takeReset).status = Status.clear := rfl
@[simp] theorem State.takeReset_deY : (s.takeReset).deY = 0 := rfl
@[simp] theorem State.takeReset_rsNum : (s.takeReset).rsNum = 0 := rfl
@[simp] theorem State.takeReset_rsLb : (s.takeReset).rsLb = 0 := rfl
@[simp] theorem State.takeReset_rsLbv : (s.takeReset).rsLbv = false := rfl
@[simp] theorem State.takeReset_dmPrev : (s.takeReset).dmPrev = ⟨0, 0⟩ := rfl
@[simp] theorem State.takeReset_dmPrevv : (s.takeReset).dmPrevv = false := rfl
@[simp] theorem State.takeReset_maxLen : (s.takeReset).maxLen = s.maxLen := rfl
@[simp] theorem State.takeReset_nanDraws : (s.takeReset).nanDraws = s.nanDraws := rfl
@[simp] theorem State.takeReset_hostIn : (s.takeReset).hostIn = s.hostIn.tail := rfl
@[simp] theorem State.takeReset_responses : (s.takeReset).responses = s.responses := rfl

/-! `drew` -/

@[simp] theorem State.drew_mode (k : Nat) : (s.drew k).mode = s.mode := rfl
@[simp] theorem State.drew_fsIn (k : Nat) : (s.drew k).fsIn = s.fsIn := rfl
@[simp] theorem State.drew_fsOut (k : Nat) : (s.drew k).fsOut = s.fsOut := rfl
@[simp] theorem State.drew_sqThresh (k : Nat) : (s.drew k).sqThresh = s.sqThresh := rfl
@[simp] theorem State.drew_bufBytes (k : Nat) : (s.drew k).bufBytes = s.bufBytes := rfl
@[simp] theorem State.drew_status (k : Nat) : (s.drew k).status = s.status := rfl
@[simp] theorem State.drew_deY (k : Nat) : (s.drew k).deY = s.deY := rfl
@[simp] theorem State.drew_rsNum (k : Nat) : (s.drew k).rsNum = s.rsNum := rfl
@[simp] theorem State.drew_rsLb (k : Nat) : (s.drew k).rsLb = s.rsLb := rfl
@[simp] theorem State.drew_rsLbv (k : Nat) : (s.drew k).rsLbv = s.rsLbv := rfl
@[simp] theorem State.drew_dmPrev (k : Nat) : (s.drew k).dmPrev = s.dmPrev := rfl
@[simp] theorem State.drew_dmPrevv (k : Nat) : (s.drew k).dmPrevv = s.dmPrevv := rfl
@[simp] theorem State.drew_maxLen (k : Nat) : (s.drew k).maxLen = s.maxLen := rfl
@[simp] theorem State.drew_nanDraws (k : Nat) : (s.drew k).nanDraws = s.nanDraws + k := rfl
@[simp] theorem State.drew_hostIn (k : Nat) : (s.drew k).hostIn = s.hostIn := rfl
@[simp] theorem State.drew_responses (k : Nat) : (s.drew k).responses = s.responses := rfl

/-! `offer` -/

@[simp] theorem State.offer_mode (i : Instr) (p : Payload) : (s.offer i p).mode = s.mode := rfl
@[simp] theorem State.offer_fsIn (i : Instr) (p : Payload) : (s.offer i p).fsIn = s.fsIn := rfl
@[simp] theorem State.offer_fsOut (i : Instr) (p : Payload) : (s.offer i p).fsOut = s.fsOut := rfl
@[simp] theorem State.offer_sqThresh (i : Instr) (p : Payload) : (s.offer i p).sqThresh = s.sqThresh := rfl
@[simp] theorem State.offer_bufBytes (i : Instr) (p : Payload) : (s.offer i p).bufBytes = s.bufBytes := rfl
@[simp] theorem State.offer_status (i : Instr) (p : Payload) : (s.offer i p).status = s.status := rfl
@[simp] theorem State.offer_deY (i : Instr) (p : Payload) : (s.offer i p).deY = s.deY := rfl
@[simp] theorem State.offer_rsNum (i : Instr) (p : Payload) : (s.offer i p).rsNum = s.rsNum := rfl
@[simp] theorem State.offer_rsLb (i : Instr) (p : Payload) : (s.offer i p).rsLb = s.rsLb := rfl
@[simp] theorem State.offer_rsLbv (i : Instr) (p : Payload) : (s.offer i p).rsLbv = s.rsLbv := rfl
@[simp] theorem State.offer_dmPrev (i : Instr) (p : Payload) : (s.offer i p).dmPrev = s.dmPrev := rfl
@[simp] theorem State.offer_dmPrevv (i : Instr) (p : Payload) : (s.offer i p).dmPrevv = s.dmPrevv := rfl
@[simp] theorem State.offer_maxLen (i : Instr) (p : Payload) : (s.offer i p).maxLen = s.maxLen := rfl
@[simp] theorem State.offer_nanDraws (i : Instr) (p : Payload) : (s.offer i p).nanDraws = s.nanDraws := rfl
@[simp] theorem State.offer_hostIn (i : Instr) (p : Payload) : (s.offer i p).hostIn = [.command (assemble i p)] := rfl
@[simp] theorem State.offer_responses (i : Instr) (p : Payload) : (s.offer i p).responses = s.responses := rfl

end Sys2Proof.Machine
end

