-- ==== Sys2Proof/Laws/Ops.lean ====
section
/-! SUPPORT. What the shared operations answer: operand forms against well-formedness, the two ways a command ends, and
the cases of each meaning. -/

namespace Sys2Proof.Machine

open Sys2Proof

/-! ### The command port -/

@[simp] theorem State.payload_command (s : State) (c : Command) (rest : List HostInput)
    (h : s.hostIn = .command c :: rest) : s.payload = c.payload := by
  simp [State.payload, h]

@[simp] theorem State.payload_offer (s : State) (i : Instr) (p : Payload) : (s.offer i p).payload = p := rfl

/-! ### Ends of a command -/

@[simp] theorem completed_eq (p : Payload) (s : State) : completed p s = .next (s.respond (.ok p)) := rfl

@[simp] theorem faulted_eq (c : FaultCode) (s : State) : faulted c s = .next (s.takeFault c) := rfl

theorem State.takeFault_eq (c : FaultCode) (s : State) :
    s.takeFault c =
      { s with status := s.status.onFault c, hostIn := s.hostIn.tail,
               responses := s.responses ++ [.fault c] } := rfl

theorem State.respond_eq (r : Response) (s : State) :
    s.respond r = { s with hostIn := s.hostIn.tail, responses := s.responses ++ [r] } := rfl

theorem Status.onFault_first {st : Status} (c : FaultCode) (h : st.fault = false) :
    st.onFault c = ⟨true, st.overflow, c.code⟩ := by simp [Status.onFault, h]

theorem Status.onFault_later {st : Status} (c : FaultCode) (h : st.fault = true) :
    st.onFault c = ⟨true, true, st.errCode⟩ := by
  cases st; simp_all [Status.onFault]

@[simp] theorem Status.onFault_fault (st : Status) (c : FaultCode) : (st.onFault c).fault = true := by
  cases h : st.fault
  · rw [Status.onFault_first c h]
  · rw [Status.onFault_later c h]

/-! ### Operand forms -/

theorem State.tooLong_iff (s : State) (p : Payload) :
    s.tooLong p.length = true ↔ p.fits s.maxLen = false := by
  unfold State.tooLong Payload.fits
  cases s.maxLen <;> simp
  omega

theorem State.noOperand_iff (s : State) : s.noOperand = true ↔ s.payload = .none := by
  unfold State.noOperand; cases s.payload <;> simp

theorem State.wordOperand_some (s : State) (v : Word) : s.wordOperand = some v ↔ s.payload = .word v := by
  unfold State.wordOperand; cases s.payload <;> simp

theorem State.wordOperand_none (s : State) : s.wordOperand = none ↔ s.payload.kind ≠ .word := by
  unfold State.wordOperand; cases s.payload <;> simp [Payload.kind]

theorem State.bytesOperand_some (s : State) (b : List Byte) :
    s.bytesOperand = some b ↔ s.payload = .bytes b ∧ (Payload.bytes b).fits s.maxLen = true := by
  have h := s.tooLong_iff (.bytes b)
  unfold State.bytesOperand
  cases s.payload <;> simp_all [Payload.length]
  constructor <;> (rintro ⟨h₁, h₂⟩; subst_vars; simp_all)

theorem State.iqOperand_some (s : State) (x : List IQ) :
    s.iqOperand = some x ↔ s.payload = .iq x ∧ (Payload.iq x).fits s.maxLen = true := by
  have h := s.tooLong_iff (.iq x)
  unfold State.iqOperand
  cases s.payload <;> simp_all [Payload.length]
  constructor <;> (rintro ⟨h₁, h₂⟩; subst_vars; simp_all)

theorem State.f32Operand_some (s : State) (x : List F32) :
    s.f32Operand = some x ↔ s.payload = .f32 x ∧ (Payload.f32 x).fits s.maxLen = true := by
  have h := s.tooLong_iff (.f32 x)
  unfold State.f32Operand
  cases s.payload <;> simp_all [Payload.length]
  constructor <;> (rintro ⟨h₁, h₂⟩; subst_vars; simp_all)

theorem State.bytesOperand_none (s : State) :
    s.bytesOperand = none ↔ s.payload.kind ≠ .bytes ∨ s.payload.fits s.maxLen = false := by
  have h := s.tooLong_iff s.payload
  unfold State.bytesOperand
  cases hp : s.payload <;> simp_all [Payload.length, Payload.kind]

theorem State.iqOperand_none (s : State) :
    s.iqOperand = none ↔ s.payload.kind ≠ .iq ∨ s.payload.fits s.maxLen = false := by
  have h := s.tooLong_iff s.payload
  unfold State.iqOperand
  cases hp : s.payload <;> simp_all [Payload.length, Payload.kind]

theorem State.f32Operand_none (s : State) :
    s.f32Operand = none ↔ s.payload.kind ≠ .f32 ∨ s.payload.fits s.maxLen = false := by
  have h := s.tooLong_iff s.payload
  unfold State.f32Operand
  cases hp : s.payload <;> simp_all [Payload.length, Payload.kind]

/-! ### The stages leave alone what they do not write -/

theorem State.dmUpdate_eq (iq : List IQ) (s : State) :
    s.dmUpdate iq =
      { s with dmPrev := if s.dmCont then iq.getLast?.getD s.dmPrev else s.dmPrev,
               dmPrevv := s.dmPrevv || (s.dmCont && !iq.isEmpty) } := by
  unfold State.dmUpdate
  cases h : s.dmCont <;> cases hl : iq.getLast? <;> cases iq <;> simp_all

/-- All that the body of FMDEMOD does to the state. -/
theorem fmdemodBody_state (iq : List IQ) (s : State) :
    (fmdemodBody iq s).2 =
      { s with dmPrev := if s.dmCont then iq.getLast?.getD s.dmPrev else s.dmPrev,
               dmPrevv := s.dmPrevv || (s.dmCont && !iq.isEmpty),
               nanDraws := s.nanDraws + discOps * (fmdemodBody iq s).1.length } := by
  simp [fmdemodBody, State.drew, State.dmUpdate_eq]

/-- All that the body of DEEMPH does to the state. -/
theorem deemphBody_state (x : List F32) (s : State) :
    (deemphBody x s).2 =
      { s with deY := (deemphBody x s).1.getLastD s.deStart,
               nanDraws := s.nanDraws + deemphOps * x.length } := rfl

/-- All that the body of RESAMPLE does to the state: the cursor and the lookback. -/
theorem resampleBody_state (x : List F32) (s : State) :
    (resampleBody x s).2 =
      { s with rsNum := (resampleBody x s).2.rsNum, rsLb := (resampleBody x s).2.rsLb,
               rsLbv := (resampleBody x s).2.rsLbv,
               nanDraws := s.nanDraws + interpOps * (resampleBody x s).1.length } := by
  unfold resampleBody
  split
  · unfold resampleCont
    by_cases hw : s.resampleInput x = [] <;> simp [hw, State.drew]
  · rfl

/-- With RS_CONT = 0 the body of RESAMPLE writes no register. -/
theorem resampleBody_local (x : List F32) (s : State) (h : s.rsCont = false) :
    (resampleBody x s).2 = s.drew (interpOps * (resampleBody x s).1.length) := by
  simp [resampleBody, h]

/-- All that the body of PROCESS does to the state: the stream-state registers. -/
theorem processBody_state (b : List Byte) (s : State) :
    (processBody b s).2 =
      { s with dmPrev := (processBody b s).2.dmPrev, dmPrevv := (processBody b s).2.dmPrevv,
               deY := (processBody b s).2.deY, rsNum := (processBody b s).2.rsNum,
               rsLb := (processBody b s).2.rsLb, rsLbv := (processBody b s).2.rsLbv,
               nanDraws := (processBody b s).2.nanDraws } := by
  unfold processBody
  simp only
  rw [resampleBody_state, deemphBody_state, fmdemodBody_state]

end Sys2Proof.Machine
end

