-- ==== Sys2Proof/Laws/Exec.lean ====
section
/-! SUPPORT. Every way each meaning can end: one inversion lemma per command. -/

namespace Sys2Proof.Machine

open Sys2Proof

variable (s : State)

theorem execEncode_cases (o : Byte) :
    (∃ p, s.payload = .word p ∧ execEncode o s = .next (s.respond (.ok (.bytes (frame o p))))) ∨
    (s.payload.kind ≠ .word ∧ execEncode o s = .next (s.takeFault .operandFormat)) := by
  cases h : s.wordOperand
  · exact .inr ⟨s.wordOperand_none.1 h, by simp [execEncode, h]⟩
  · exact .inl ⟨_, (s.wordOperand_some _).1 h, by simp [execEncode, h]⟩

theorem execIqdec_cases :
    (∃ b, s.payload = .bytes b ∧ (Payload.bytes b).fits s.maxLen = true ∧ s.iqLenOk b.length = true ∧
      execIqdec s = .next (s.respond (.ok (.iq (iqDecode s.nanDraws b))))) ∨
    (∃ b, s.payload = .bytes b ∧ (Payload.bytes b).fits s.maxLen = true ∧ s.iqLenOk b.length = false ∧
      execIqdec s = .next (s.takeFault .streamIntegrity)) ∨
    ((s.payload.kind ≠ .bytes ∨ s.payload.fits s.maxLen = false) ∧
      execIqdec s = .next (s.takeFault .operandFormat)) := by
  cases h : s.bytesOperand with
  | none => exact .inr (.inr ⟨s.bytesOperand_none.1 h, by simp [execIqdec, h]⟩)
  | some b =>
    obtain ⟨hp, hf⟩ := (s.bytesOperand_some b).1 h
    cases hl : s.iqLenOk b.length
    · exact .inr (.inl ⟨b, hp, hf, hl, by simp [execIqdec, h, hl]⟩)
    · exact .inl ⟨b, hp, hf, hl, by simp [execIqdec, h, hl]⟩

theorem execFmdemod_cases :
    (∃ x, s.payload = .iq x ∧ (Payload.iq x).fits s.maxLen = true ∧
      execFmdemod s = .next ((fmdemodBody x s).2.respond (.ok (.f32 (fmdemodBody x s).1)))) ∨
    ((s.payload.kind ≠ .iq ∨ s.payload.fits s.maxLen = false) ∧
      execFmdemod s = .next (s.takeFault .operandFormat)) := by
  cases h : s.iqOperand with
  | none => exact .inr ⟨s.iqOperand_none.1 h, by simp [execFmdemod, h]⟩
  | some x =>
    obtain ⟨hp, hf⟩ := (s.iqOperand_some x).1 h
    exact .inl ⟨x, hp, hf, by simp [execFmdemod, h]⟩

theorem execSquelch_cases :
    (∃ x, s.payload = .f32 x ∧ (Payload.f32 x).fits s.maxLen = true ∧
      execSquelch s = .next (s.respond (.ok (.f32 (x.map (gate s.sqThresh)))))) ∨
    ((s.payload.kind ≠ .f32 ∨ s.payload.fits s.maxLen = false) ∧
      execSquelch s = .next (s.takeFault .operandFormat)) := by
  cases h : s.f32Operand with
  | none => exact .inr ⟨s.f32Operand_none.1 h, by simp [execSquelch, h]⟩
  | some x =>
    obtain ⟨hp, hf⟩ := (s.f32Operand_some x).1 h
    exact .inl ⟨x, hp, hf, by simp [execSquelch, h, squelchBody]⟩

theorem execDeemph_cases :
    (∃ x, s.payload = .f32 x ∧ (Payload.f32 x).fits s.maxLen = true ∧ s.fsIn ≠ 0 ∧
      execDeemph s = .next ((deemphBody x s).2.respond (.ok (.f32 (deemphBody x s).1)))) ∨
    (s.payload.kind = .f32 ∧ s.payload.fits s.maxLen = true ∧ s.fsIn = 0 ∧
      execDeemph s = .next (s.takeFault .config)) ∨
    ((s.payload.kind ≠ .f32 ∨ s.payload.fits s.maxLen = false) ∧
      execDeemph s = .next (s.takeFault .operandFormat)) := by
  cases h : s.f32Operand with
  | none => exact .inr (.inr ⟨s.f32Operand_none.1 h, by simp [execDeemph, h]⟩)
  | some x =>
    obtain ⟨hp, hf⟩ := (s.f32Operand_some x).1 h
    by_cases hr : s.fsIn = 0
    · exact .inr (.inl ⟨by simp [hp, Payload.kind], by rw [hp]; exact hf, hr, by simp [execDeemph, h, hr]⟩)
    · exact .inl ⟨x, hp, hf, hr, by simp only [execDeemph, h, if_neg hr, completed_eq]⟩

theorem execResample_cases :
    (∃ x, s.payload = .f32 x ∧ (Payload.f32 x).fits s.maxLen = true ∧ s.fsIn ≠ 0 ∧ s.fsOut ≠ 0 ∧
      execResample s = .next ((resampleBody x s).2.respond (.ok (.f32 (resampleBody x s).1)))) ∨
    (s.payload.kind = .f32 ∧ s.payload.fits s.maxLen = true ∧ (s.fsIn = 0 ∨ s.fsOut = 0) ∧
      execResample s = .next (s.takeFault .config)) ∨
    ((s.payload.kind ≠ .f32 ∨ s.payload.fits s.maxLen = false) ∧
      execResample s = .next (s.takeFault .operandFormat)) := by
  cases h : s.f32Operand with
  | none => exact .inr (.inr ⟨s.f32Operand_none.1 h, by simp [execResample, h]⟩)
  | some x =>
    obtain ⟨hp, hf⟩ := (s.f32Operand_some x).1 h
    by_cases hr : s.fsIn = 0 ∨ s.fsOut = 0
    · exact .inr (.inl ⟨by simp [hp, Payload.kind], by rw [hp]; exact hf, hr,
        by simp only [execResample, h, if_pos hr, faulted_eq]⟩)
    · exact .inl ⟨x, hp, hf, fun h0 => hr (.inl h0), fun h0 => hr (.inr h0),
        by simp only [execResample, h, if_neg hr, completed_eq]⟩

theorem execProcess_cases :
    (∃ b, s.payload = .bytes b ∧ (Payload.bytes b).fits s.maxLen = true ∧ s.fsIn ≠ 0 ∧ s.fsOut ≠ 0 ∧
      s.iqLenOk b.length = true ∧
      execProcess s = .next ((processBody b s).2.respond (.ok (.f32 (processBody b s).1)))) ∨
    (∃ b, s.payload = .bytes b ∧ (Payload.bytes b).fits s.maxLen = true ∧ s.fsIn ≠ 0 ∧ s.fsOut ≠ 0 ∧
      s.iqLenOk b.length = false ∧ execProcess s = .next (s.takeFault .streamIntegrity)) ∨
    (s.payload.kind = .bytes ∧ s.payload.fits s.maxLen = true ∧ (s.fsIn = 0 ∨ s.fsOut = 0) ∧
      execProcess s = .next (s.takeFault .config)) ∨
    ((s.payload.kind ≠ .bytes ∨ s.payload.fits s.maxLen = false) ∧
      execProcess s = .next (s.takeFault .operandFormat)) := by
  cases h : s.bytesOperand with
  | none => exact .inr (.inr (.inr ⟨s.bytesOperand_none.1 h, by simp [execProcess, h]⟩))
  | some b =>
    obtain ⟨hp, hf⟩ := (s.bytesOperand_some b).1 h
    by_cases hr : s.fsIn = 0 ∨ s.fsOut = 0
    · exact .inr (.inr (.inl ⟨by simp [hp, Payload.kind], by rw [hp]; exact hf, hr,
        by simp only [execProcess, h, if_pos hr, faulted_eq]⟩))
    · have h1 : s.fsIn ≠ 0 := fun h0 => hr (.inl h0)
      have h2 : s.fsOut ≠ 0 := fun h0 => hr (.inr h0)
      cases hl : s.iqLenOk b.length
      · exact .inr (.inl ⟨b, hp, hf, h1, h2, hl, by simp only [execProcess, h, if_neg hr, hl, if_false, faulted_eq, Bool.false_eq_true]⟩)
      · exact .inl ⟨b, hp, hf, h1, h2, hl, by simp only [execProcess, h, if_neg hr, hl, if_true, completed_eq]⟩

theorem execRstate_cases :
    (s.payload = .none ∧ execRstate s = .next (s.resetStream.respond (.ok .none))) ∨
    (s.payload ≠ .none ∧ execRstate s = .next (s.takeFault .operandFormat)) := by
  have hiff := s.noOperand_iff
  cases h : s.noOperand
  · exact .inr ⟨fun hp => absurd (hiff.2 hp) (by simp [h]), by simp [execRstate, h]⟩
  · exact .inl ⟨hiff.1 h, by simp [execRstate, h]⟩

theorem execCsrr_cases (n : Byte) :
    (∃ r, Csr.ofNumber n = some r ∧ s.payload = .none ∧
      execCsrr n s = .next (s.respond (.ok (.word (csrValue s r))))) ∨
    (∃ r, Csr.ofNumber n = some r ∧ s.payload ≠ .none ∧
      execCsrr n s = .next (s.takeFault .operandFormat)) ∨
    (Csr.ofNumber n = none ∧ execCsrr n s = .next (s.takeFault .illegalCsr)) := by
  have hiff := s.noOperand_iff
  cases hr : Csr.ofNumber n with
  | none => exact .inr (.inr ⟨rfl, by simp [execCsrr, hr]⟩)
  | some r =>
    cases h : s.noOperand
    · exact .inr (.inl ⟨r, rfl, fun hp => absurd (hiff.2 hp) (by simp [h]), by simp [execCsrr, hr, h]⟩)
    · exact .inl ⟨r, rfl, hiff.1 h, by simp [execCsrr, hr, h]⟩

theorem execCsrw_cases (n : Byte) :
    (∃ r v, Csr.ofNumber n = some r ∧ r.writable = true ∧ s.payload = .word v ∧
      execCsrw n s = .next ((csrWrite s v r).respond (.ok .none))) ∨
    (∃ r, Csr.ofNumber n = some r ∧ r.writable = true ∧ s.payload.kind ≠ .word ∧
      execCsrw n s = .next (s.takeFault .operandFormat)) ∨
    ((∀ r, Csr.ofNumber n = some r → r.writable = false) ∧
      execCsrw n s = .next (s.takeFault .illegalCsr)) := by
  cases hr : Csr.ofNumber n with
  | none => exact .inr (.inr ⟨by simp, by simp [execCsrw, hr]⟩)
  | some r =>
    cases hw : r.writable
    · exact .inr (.inr ⟨by rintro r' ⟨⟩; exact hw, by simp [execCsrw, hr, hw]⟩)
    · cases h : s.wordOperand with
      | none => exact .inr (.inl ⟨r, rfl, hw, s.wordOperand_none.1 h, by simp [execCsrw, hr, hw, h]⟩)
      | some v => exact .inl ⟨r, v, rfl, hw, (s.wordOperand_some v).1 h, by simp [execCsrw, hr, hw, h]⟩

/-- The implemented CSR numbers are those up to 0x0C, and each number's CSR has that number. -/
theorem ofNumber_some {n : Byte} {r : Csr} (h : Csr.ofNumber n = some r) : r.number = n ∧ n.toNat ≤ 0x0C := by
  revert n r; decide

theorem ofNumber_none {n : Byte} (h : Csr.ofNumber n = none) : 0x0D ≤ n.toNat := by
  revert n; decide

end Sys2Proof.Machine
end

