-- ==== Sys2Proof/Laws/Float.lean ====
section
/-! SUPPORT. The small lemmas of binary32 patterns, the rounding lemma all of the arithmetic rests on, and the
independence of results that are no NaN from the draws. -/

namespace Sys2Proof.Machine

open Sys2Proof

/-! ### Patterns -/

theorem magBits_lt (x : F32) : magBits x < 2 ^ 31 := Nat.mod_lt _ (by decide)

theorem signBit_iff (x : F32) : signBit x = true ↔ 2 ^ 31 ≤ x.toNat := by
  simp [signBit, BitVec.msb_eq_decide]

theorem toNat_eq_sign_mag (x : F32) : x.toNat = (if signBit x then 2 ^ 31 else 0) + magBits x := by
  have hx : x.toNat < 2 ^ 32 := x.isLt
  have h := signBit_iff x
  unfold magBits
  split <;> rename_i hs
  · have := h.1 hs; omega
  · have : ¬ 2 ^ 31 ≤ x.toNat := fun h' => hs (h.2 h')
    omega

theorem packMag_toNat (neg : Bool) {m : Nat} (hm : m < 2 ^ 31) :
    (packMag neg m).toNat = (if neg then 2 ^ 31 else 0) + m := by
  unfold packMag
  rw [BitVec.toNat_ofNat, Nat.mod_eq_of_lt]
  cases neg <;> simp <;> omega

theorem magBits_packMag (neg : Bool) {m : Nat} (hm : m < 2 ^ 31) : magBits (packMag neg m) = m := by
  unfold magBits; rw [packMag_toNat neg hm]; cases neg <;> simp <;> omega

theorem signBit_packMag (neg : Bool) {m : Nat} (hm : m < 2 ^ 31) : signBit (packMag neg m) = neg := by
  have h := signBit_iff (packMag neg m)
  rw [packMag_toNat neg hm] at h
  cases neg
  · simp only [Bool.false_eq_true, if_false] at h
    cases hs : signBit (packMag false m)
    · rfl
    · have := h.1 hs; omega
  · exact h.2 (by simp)

theorem packMag_self (x : F32) : packMag (signBit x) (magBits x) = x := by
  apply BitVec.eq_of_toNat_eq
  rw [packMag_toNat _ (magBits_lt x), ← toNat_eq_sign_mag]

theorem eq_of_sign_mag {x y : F32} (hs : signBit x = signBit y) (hm : magBits x = magBits y) : x = y := by
  rw [← packMag_self x, ← packMag_self y, hs, hm]

theorem signBit_fneg (x : F32) : signBit (fneg x) = !signBit x := by
  have h : (0x80000000#32).msb = true := by decide
  simp [signBit, fneg, BitVec.msb_xor, h]

theorem magBits_fneg (x : F32) : magBits (fneg x) = magBits x := by
  have h : (fneg x).toNat = x.toNat ^^^ 2 ^ 31 := by simp [fneg]
  unfold magBits
  rw [h, Nat.xor_mod_two_pow]; simp

/-- Every NaN of the type is a NaN pattern. -/
theorem isNaN_pattern (n : NaN) : isNaN n.pattern = true := by
  have hs := n.sign.isLt
  have hf := n.below.isLt
  have hp : n.pattern.toNat = (n.sign.toNat * 2 ^ 8 + 255) * 2 ^ 23 + (n.below.val + 1) := by
    unfold NaN.pattern
    rw [BitVec.toNat_append, BitVec.toNat_append, BitVec.toNat_ofNat, BitVec.toNat_ofNat,
      Nat.mod_eq_of_lt (show n.below.val + 1 < 2 ^ 23 by omega),
      ← Nat.shiftLeft_add_eq_or_of_lt (show n.below.val + 1 < 2 ^ 23 by omega),
      ← Nat.shiftLeft_add_eq_or_of_lt (show 255 % 2 ^ 8 < 2 ^ 8 by decide), Nat.shiftLeft_eq, Nat.shiftLeft_eq,
      Nat.mod_eq_of_lt (show 255 < 2 ^ 8 by decide)]
  unfold isNaN magBits infMag
  rw [hp, decide_eq_true_eq]
  omega

theorem isNaN_drawNaN (d : Nat) : isNaN (drawNaN d) = true := isNaN_pattern _

/-! ### Units -/

/-- The units of 2^-149 a magnitude pattern stands for; `magUnits` on patterns below infinity. -/
def unitsOf (m : Nat) : Nat :=
  if m / 2 ^ 23 = 0 then m % 2 ^ 23 else (2 ^ 23 + m % 2 ^ 23) * 2 ^ (m / 2 ^ 23 - 1)

theorem magUnits_eq (x : F32) : magUnits x = unitsOf (magBits x) := rfl

/-- A significand `r` of at most `2^24` added to exponent step `k` stands for `r 2^k`. -/
theorem unitsOf_pack {k r : Nat} (hr : r ≤ 2 ^ 24) (hk : k = 0 ∨ 2 ^ 23 ≤ r) :
    unitsOf (k * 2 ^ 23 + r) = r * 2 ^ k := by
  unfold unitsOf
  by_cases hsub : r < 2 ^ 23
  · have hk0 : k = 0 := by omega
    subst hk0
    rw [if_pos (by omega)]; simp; omega
  · by_cases hcarry : r = 2 ^ 24
    · subst hcarry
      have h1 : (k * 2 ^ 23 + 2 ^ 24) / 2 ^ 23 = k + 2 := by omega
      have h2 : (k * 2 ^ 23 + 2 ^ 24) % 2 ^ 23 = 0 := by omega
      rw [h1, h2, if_neg (by omega), show k + 2 - 1 = k + 1 by omega, pow_succ]
      ring
    · have h1 : (k * 2 ^ 23 + r) / 2 ^ 23 = k + 1 := by omega
      have h2 : (k * 2 ^ 23 + r) % 2 ^ 23 = r - 2 ^ 23 := by omega
      rw [h1, h2, if_neg (by omega), show k + 1 - 1 = k by omega, show 2 ^ 23 + (r - 2 ^ 23) = r by omega]

/-- A magnitude of at least `2^(23+k)` units is a whole number of steps of `2^k` units. -/
theorem unitsOf_dvd {m k : Nat} (h : 2 ^ (23 + k) ≤ unitsOf m) : 2 ^ k ∣ unitsOf m := by
  unfold unitsOf at *
  split at h
  · rename_i h0
    have h1 : m % 2 ^ 23 < 2 ^ 23 := Nat.mod_lt _ (by decide)
    have h2 : 2 ^ 23 ≤ 2 ^ (23 + k) := Nat.pow_le_pow_right (by decide) (by omega)
    omega
  · rename_i h0
    rw [if_neg h0]
    apply Dvd.dvd.mul_left
    apply pow_dvd_pow
    by_contra hlt
    have h1 : m % 2 ^ 23 < 2 ^ 23 := Nat.mod_lt _ (by decide)
    have h2 : (2 ^ 23 + m % 2 ^ 23) * 2 ^ (m / 2 ^ 23 - 1) < 2 ^ 24 * 2 ^ (m / 2 ^ 23 - 1) :=
      Nat.mul_lt_mul_of_pos_right (by omega) (by positivity)
    rw [← pow_add] at h2
    have h3 : 2 ^ (24 + (m / 2 ^ 23 - 1)) ≤ 2 ^ (23 + k) := Nat.pow_le_pow_right (by decide) (by omega)
    omega

theorem unitsOf_succ_lt (m : Nat) : unitsOf m < unitsOf (m + 1) := by
  have key : ∀ k r : Nat, r < 2 ^ 23 → unitsOf (k * 2 ^ 23 + 2 ^ 23 + r) = (2 ^ 23 + r) * 2 ^ k := fun k r hr => by
    rw [Nat.add_assoc]; exact unitsOf_pack (by omega) (.inr (by omega))
  by_cases hlow : m + 1 < 2 ^ 24
  · have h1 : unitsOf m = m := by simpa using unitsOf_pack (k := 0) (r := m) (by omega) (.inl rfl)
    have h2 : unitsOf (m + 1) = m + 1 := by simpa using unitsOf_pack (k := 0) (r := m + 1) (by omega) (.inl rfl)
    omega
  · obtain ⟨k, r, hr, rfl⟩ : ∃ k r, r < 2 ^ 23 ∧ m = k * 2 ^ 23 + 2 ^ 23 + r :=
      ⟨m / 2 ^ 23 - 1, m % 2 ^ 23, Nat.mod_lt _ (by decide), by omega⟩
    have h2 : unitsOf (k * 2 ^ 23 + 2 ^ 23 + r + 1) = (2 ^ 23 + r + 1) * 2 ^ k := by
      rw [show k * 2 ^ 23 + 2 ^ 23 + r + 1 = k * 2 ^ 23 + (2 ^ 23 + r + 1) by omega]
      exact unitsOf_pack (by omega) (.inr (by omega))
    rw [key k r hr, h2]
    exact Nat.mul_lt_mul_of_pos_right (by omega) (by positivity)

theorem unitsOf_strictMono : StrictMono unitsOf := strictMono_nat_of_lt_succ unitsOf_succ_lt

/-! ### Rounding -/

/-- `roundEven` is nearest, and even where another whole number is as near. -/
theorem roundEven_nearest (num : Nat) {den : Nat} (hden : 0 < den) (t : Nat) :
    |(roundEven num den : Int) * den - num| ≤ |(t : Int) * den - num| ∧
    (|(roundEven num den : Int) * den - num| = |(t : Int) * den - num| →
      t = roundEven num den ∨ roundEven num den % 2 = 0) := by
  have hdm := Nat.div_add_mod num den
  have hlt := Nat.mod_lt num hden
  generalize hq : num / den = q at *
  generalize hm : num % den = m at *
  have hnum : (num : Int) = q * den + m := by rw [← hdm]; push_cast; ring
  have key : ∀ r : Nat, ((r : Int) * den - num = (r - q) * den - m) := fun r => by rw [hnum]; ring
  have hdZ : (0 : Int) < den := by exact_mod_cast hden
  have hmZ : (m : Int) < den := by exact_mod_cast hlt
  have hm0 : (0 : Int) ≤ m := Int.natCast_nonneg m
  rw [key, key]
  unfold roundEven
  simp only [hq, hm]
  rcases lt_trichotomy (t : Int) q with ht | ht | ht
  · have h1 : ((t : Int) - q) * den ≤ -den := by nlinarith
    split
    · rename_i hc
      push_cast
      rw [show ((q : Int) + 1 - q) * den - m = den - m by ring, abs_of_nonneg (by omega), abs_of_neg (by omega)]
      constructor <;> omega
    · rename_i hc
      rw [show ((q : Int) - q) * den - m = -m by ring, abs_neg, abs_of_nonneg hm0, abs_of_neg (by omega)]
      constructor <;> omega
  · have htq : t = q := by exact_mod_cast ht
    subst htq
    split
    · rename_i hc
      push_cast
      rw [show ((t : Int) + 1 - t) * den - m = den - m by ring, show ((t : Int) - t) * den - m = -m by ring,
        abs_of_nonneg (by omega), abs_neg, abs_of_nonneg hm0]
      constructor <;> omega
    · exact ⟨le_refl _, fun _ => .inl rfl⟩
  · have h1 : (den : Int) ≤ ((t : Int) - q) * den := by nlinarith
    split
    · rename_i hc
      push_cast
      rw [show ((q : Int) + 1 - q) * den - m = den - m by ring, abs_of_nonneg (by omega), abs_of_nonneg (by omega)]
      refine ⟨by omega, fun he => ?_⟩
      left
      have h2 : ((t : Int) - q) * den = den := by omega
      have h3 : (t : Int) - q = 1 := by nlinarith
      omega
    · rename_i hc
      rw [show ((q : Int) - q) * den - m = -m by ring, abs_neg, abs_of_nonneg hm0, abs_of_nonneg (by omega)]
      constructor <;> omega

theorem roundEven_bounds (num den : Nat) : num / den ≤ roundEven num den ∧ roundEven num den ≤ num / den + 1 := by
  unfold roundEven; simp only; split <;> omega

/-- The step exponent of `roundMag`. -/
def stepOf (num den : Nat) : Nat := (num / den).log2 - 23

/-- The magnitude pattern `roundMag` gives before its cut at infinity. -/
def rawMag (num den : Nat) : Nat := stepOf num den * 2 ^ 23 + roundEven num (den * 2 ^ stepOf num den)

theorem roundMag_eq (num den : Nat) : roundMag num den = min (rawMag num den) infMag := rfl

theorem scaled_lt (num den : Nat) : num / (den * 2 ^ stepOf num den) < 2 ^ 24 := by
  rw [← Nat.div_div_eq_div_mul, Nat.div_lt_iff_lt_mul (by positivity), ← pow_add]
  have h1 : num / den < 2 ^ ((num / den).log2 + 1) := Nat.lt_log2_self
  have h2 : 2 ^ ((num / den).log2 + 1) ≤ 2 ^ (24 + stepOf num den) :=
    Nat.pow_le_pow_right (by decide) (by unfold stepOf; omega)
  omega

theorem le_scaled {num den : Nat} (hk : stepOf num den ≠ 0) : 2 ^ 23 ≤ num / (den * 2 ^ stepOf num den) := by
  rw [← Nat.div_div_eq_div_mul, Nat.le_div_iff_mul_le (by positivity), ← pow_add]
  have h0 : num / den ≠ 0 := by
    intro h; simp [stepOf, h] at hk
  have h1 := Nat.log2_self_le h0
  have h2 : 23 + stepOf num den = (num / den).log2 := by unfold stepOf at *; omega
  rw [h2]; exact h1

/-- What the pattern before the cut stands for. -/
theorem unitsOf_rawMag (num den : Nat) :
    unitsOf (rawMag num den) = roundEven num (den * 2 ^ stepOf num den) * 2 ^ stepOf num den := by
  have hb := roundEven_bounds num (den * 2 ^ stepOf num den)
  have h1 := scaled_lt num den
  apply unitsOf_pack (by omega)
  by_cases hk : stepOf num den = 0
  · exact .inl hk
  · have := le_scaled hk; exact .inr (by omega)

/-- The pattern before the cut is the nearest of all magnitude patterns, those past infinity included; where
another is as near, it stands for the same number or the pattern is even. -/
theorem rawMag_nearest (num : Nat) {den : Nat} (hden : 0 < den) (m : Nat) :
    |(unitsOf (rawMag num den) : Int) * den - num| ≤ |(unitsOf m : Int) * den - num| ∧
    (|(unitsOf (rawMag num den) : Int) * den - num| = |(unitsOf m : Int) * den - num| →
      unitsOf m = unitsOf (rawMag num den) ∨ rawMag num den % 2 = 0) := by
  have hu := unitsOf_rawMag num den
  have hnear := roundEven_nearest num (show 0 < den * 2 ^ stepOf num den by positivity)
  have hpar : rawMag num den % 2 = roundEven num (den * 2 ^ stepOf num den) % 2 := by unfold rawMag; omega
  have hscale : ∀ t : Nat, ((t * 2 ^ stepOf num den : Nat) : Int) * den - num =
      (t : Int) * ((den * 2 ^ stepOf num den : Nat) : Int) - num := fun t => by push_cast; ring
  rw [hpar, hu, hscale]
  by_cases hlow : 2 ^ (23 + stepOf num den) ≤ unitsOf m ∨ stepOf num den = 0
  · have hd : 2 ^ stepOf num den ∣ unitsOf m := by
      rcases hlow with h | h
      · exact unitsOf_dvd h
      · rw [h]; exact one_dvd _
    obtain ⟨t, ht⟩ := hd
    rw [Nat.mul_comm] at ht
    rw [ht, hscale]
    exact ⟨(hnear t).1, fun he => ((hnear t).2 he).imp (fun h => by rw [h]) id⟩
  · rw [not_or, not_le] at hlow
    have h1 := le_scaled hlow.2
    rw [Nat.le_div_iff_mul_le (by positivity)] at h1
    have h2 := (hnear (2 ^ 23)).1
    have h3 : unitsOf m * den < 2 ^ (23 + stepOf num den) * den := Nat.mul_lt_mul_of_pos_right hlow.1 hden
    have h4 : 2 ^ 23 * (den * 2 ^ stepOf num den) = 2 ^ (23 + stepOf num den) * den := by rw [pow_add]; ring
    have h5 : ((2 ^ 23 : Nat) : Int) * ((den * 2 ^ stepOf num den : Nat) : Int) ≤ num := by exact_mod_cast h1
    have h6 : ((unitsOf m : Int)) * den < ((2 ^ 23 : Nat) : Int) * ((den * 2 ^ stepOf num den : Nat) : Int) := by
      rw [h4.symm] at h3; exact_mod_cast h3
    have h7 : |((2 ^ 23 : Nat) : Int) * ((den * 2 ^ stepOf num den : Nat) : Int) - num| <
        |(unitsOf m : Int) * den - num| := by
      rw [abs_of_nonpos (by omega), abs_of_neg (by omega)]; omega
    exact ⟨le_of_lt (lt_of_le_of_lt h2 h7), fun he => absurd he (ne_of_lt (lt_of_le_of_lt h2 h7))⟩

/-- The cut: from `(2^25 - 1) 2^252` units, that is `2^128 - 2^103`, on the result is infinite (00_scope.md R12). -/
theorem infMag_le_rawMag (num : Nat) {den : Nat} (hden : 0 < den) :
    infMag ≤ rawMag num den ↔ (2 ^ 25 - 1) * 2 ^ 252 * den ≤ num := by
  have hinf : unitsOf infMag = 2 ^ 25 * 2 ^ 252 := by decide
  have htop : unitsOf (infMag - 1) = (2 ^ 25 - 2) * 2 ^ 252 := by decide
  have hnI := rawMag_nearest num hden infMag
  have hnT := (rawMag_nearest num hden (infMag - 1)).1
  rw [hinf] at hnI
  rw [htop] at hnT
  have hdZ : (0 : Int) < den := by exact_mod_cast hden
  have e1 : ((2 ^ 25 * 2 ^ 252 : Nat) : Int) * den = 2 ^ 25 * (2 ^ 252 * (den : Int)) := by push_cast; ring
  have e2 : (((2 ^ 25 - 2) * 2 ^ 252 : Nat) : Int) * den = (2 ^ 25 - 2) * (2 ^ 252 * (den : Int)) := by
    push_cast; ring
  have e3 : ((2 ^ 25 - 1) * 2 ^ 252 * den ≤ num) ↔ (2 ^ 25 - 1) * (2 ^ 252 * (den : Int)) ≤ num := by
    rw [← Int.ofNat_le]; push_cast; constructor <;> intro h <;> linarith
  have hD : (0 : Int) < 2 ^ 252 * den := by positivity
  rw [e3]
  rw [e1] at hnI
  rw [e2] at hnT
  generalize 2 ^ 252 * (den : Int) = D at *
  generalize hU : (unitsOf (rawMag num den) : Int) * den = U at *
  constructor
  · intro h
    have hm : unitsOf infMag ≤ unitsOf (rawMag num den) := unitsOf_strictMono.monotone h
    have hm' : 2 ^ 25 * D ≤ U := by
      rw [← e1, ← hU, ← hinf]; exact mul_le_mul_of_nonneg_right (by exact_mod_cast hm) hdZ.le
    by_contra hlt
    rw [abs_of_nonneg (by omega)] at hnT
    rcases abs_cases ((2 ^ 25 - 2) * D - (num : Int)) with ⟨h1, -⟩ | ⟨h1, -⟩ <;> omega
  · intro h
    by_contra hlt
    have hm : unitsOf (rawMag num den) ≤ unitsOf (infMag - 1) := unitsOf_strictMono.monotone (by omega)
    have hm' : U ≤ (2 ^ 25 - 2) * D := by
      rw [← e2, ← hU, ← htop]; exact mul_le_mul_of_nonneg_right (by exact_mod_cast hm) hdZ.le
    have hle := hnI.1
    rw [abs_of_nonpos (by omega)] at hle hnI
    have htie : -(U - (num : Int)) = |2 ^ 25 * D - (num : Int)| := by
      rcases abs_cases (2 ^ 25 * D - (num : Int)) with ⟨h1, -⟩ | ⟨h1, -⟩ <;> omega
    have hUeq : U = (2 ^ 25 - 2) * D := by
      rcases abs_cases (2 ^ 25 * D - (num : Int)) with ⟨h1, -⟩ | ⟨h1, -⟩ <;> omega
    have hraw : rawMag num den = infMag - 1 := by
      apply unitsOf_strictMono.injective
      have h1 : (unitsOf (rawMag num den) : Int) * den = (unitsOf (infMag - 1) : Int) * den := by
        rw [hU, htop, e2, hUeq]
      exact_mod_cast mul_right_cancel₀ hdZ.ne' h1
    rcases hnI.2 htie with h2 | h2
    · rw [hraw] at h2; exact absurd h2 (by decide)
    · rw [hraw] at h2; exact absurd h2 (by decide)

/-! ### Draws -/

/-- A sum that is no NaN does not depend on the draw. -/
theorem fadd_draw {d : Nat} {a b : F32} (h : isNaN (fadd d a b) = false) (e : Nat) : fadd e a b = fadd d a b := by
  have hd := isNaN_drawNaN d
  unfold fadd at *
  split
  · rw [if_pos (by assumption), hd] at h; cases h
  · rename_i h1; rw [if_neg h1] at h
    split
    · rename_i h2; rw [if_pos h2] at h
      split
      · rename_i h3; rw [if_pos h3, hd] at h; cases h
      · rfl
    · rfl

/-- A difference that is no NaN does not depend on the draw. -/
theorem fsub_draw {d : Nat} {a b : F32} (h : isNaN (fsub d a b) = false) (e : Nat) : fsub e a b = fsub d a b :=
  fadd_draw h e

/-- A product that is no NaN does not depend on the draw. -/
theorem fmul_draw {d : Nat} {a b : F32} (h : isNaN (fmul d a b) = false) (e : Nat) : fmul e a b = fmul d a b := by
  have hd := isNaN_drawNaN d
  unfold fmul at *
  simp only at *
  split
  · rw [if_pos (by assumption), hd] at h; cases h
  · rename_i h1; rw [if_neg h1] at h
    split
    · rename_i h2; rw [if_pos h2] at h
      split
      · rename_i h3; rw [if_pos h3, hd] at h; cases h
      · rfl
    · rename_i h2; rw [if_neg h2] at h
      split
      · rename_i h3; rw [if_pos h3] at h
        split
        · rename_i h4; rw [if_pos h4, hd] at h; cases h
        · rfl
      · rfl

end Sys2Proof.Machine
end

