-- ==== Sys2Proof/Laws/Stages.lean ====
section
/-! SUPPORT. What the five stages compute, said once: lengths, elements, and what becomes of a sequence cut in two. -/

namespace Sys2Proof.Machine

open Sys2Proof

/-! ### IQDecoder -/

theorem iqDecode_length (d : Nat) : ∀ b : List Byte, (iqDecode d b).length = b.length / 2
  | i :: q :: rest => by simp [iqDecode, iqDecode_length d rest]; omega
  | [_]            => by simp [iqDecode]
  | []             => rfl

theorem iqDecode_get (d : Nat) : ∀ (b : List Byte) (k : Nat) (i q : Byte),
    b[2 * k]? = some i → b[2 * k + 1]? = some q →
    (iqDecode d b)[k]? = some ⟨iqComponent d i, iqComponent d q⟩
  | i' :: q' :: rest, 0, i, q, hi, hq => by simp_all [iqDecode]
  | i' :: q' :: rest, k + 1, i, q, hi, hq => by
    have hi' : rest[2 * k]? = some i := by simpa [show 2 * (k + 1) = 2 * k + 1 + 1 by omega] using hi
    have hq' : rest[2 * k + 1]? = some q := by
      simpa [show 2 * (k + 1) + 1 = (2 * k + 1) + 1 + 1 by omega] using hq
    simpa [iqDecode] using iqDecode_get d rest k i q hi' hq'
  | [_], k, i, q, hi, hq => by simp at hq
  | [], k, i, q, hi, hq => by simp at hi

/-! ### FMDemodulator -/

@[simp] theorem demodFrom_length (d : Nat) (p : IQ) (w : List IQ) : (demodFrom d p w).length = w.length := by
  induction w generalizing d p with
  | nil => rfl
  | cons c w ih => simp [demodFrom, ih]

@[simp] theorem demodSeq_length (d : Nat) (w : List IQ) : (demodSeq d w).length = w.length - 1 := by
  cases w <;> simp [demodSeq]

theorem demodFrom_get (d : Nat) (p : IQ) (w : List IQ) (k : Nat) (prev curr : IQ)
    (h₁ : (p :: w)[k]? = some prev) (h₂ : w[k]? = some curr) :
    (demodFrom d p w)[k]? = some (disc (d + discOps * k) prev curr) := by
  induction w generalizing d p k with
  | nil => simp at h₂
  | cons c w ih =>
    cases k with
    | zero => simp_all [demodFrom]
    | succ k =>
      simp only [List.getElem?_cons_succ] at h₁ h₂
      simp only [demodFrom, List.getElem?_cons_succ, ih _ _ _ h₁ h₂]
      rw [show d + discOps + discOps * k = d + discOps * (k + 1) by ring]

/-- Output `k` compares samples `k` and `k + 1` (42_fm_demodulator.md R181). -/
theorem demodSeq_get (d : Nat) (w : List IQ) (k : Nat) (prev curr : IQ)
    (h₁ : w[k]? = some prev) (h₂ : w[k + 1]? = some curr) :
    (demodSeq d w)[k]? = some (disc (d + discOps * k) prev curr) := by
  cases w with
  | nil => simp at h₁
  | cons p w => exact demodFrom_get d p w k prev curr h₁ (by simpa using h₂)

theorem demodFrom_append (d : Nat) (p : IQ) (u v : List IQ) :
    demodFrom d p (u ++ v) = demodFrom d p u ++ demodFrom (d + discOps * u.length) (u.getLastD p) v := by
  induction u generalizing d p with
  | nil => simp [demodFrom]
  | cons c u ih =>
    simp only [List.cons_append, demodFrom, ih, List.length_cons, List.getLastD_cons]
    rw [show d + discOps + discOps * u.length = d + discOps * (u.length + 1) by ring]

/-! ### DeEmphasisFilter -/

@[simp] theorem deemphSeq_length (a b : F32) (d : Nat) (y : F32) (x : List F32) :
    (deemphSeq a b d y x).length = x.length := by
  induction x generalizing d y with
  | nil => rfl
  | cons v x ih => simp [deemphSeq, ih]

theorem deemphSeq_get (a b : F32) (d : Nat) (y : F32) (x : List F32) (n : Nat) (v before : F32)
    (h₁ : x[n]? = some v) (h₂ : (y :: deemphSeq a b d y x)[n]? = some before) :
    (deemphSeq a b d y x)[n]? = some (fadd (d + deemphOps * n + 2) (fmul (d + deemphOps * n) a v)
      (fmul (d + deemphOps * n + 1) b before)) := by
  induction x generalizing d y n with
  | nil => simp at h₁
  | cons c x ih =>
    cases n with
    | zero => simp_all [deemphSeq]
    | succ n =>
      simp only [List.getElem?_cons_succ] at h₁
      simp only [deemphSeq, List.getElem?_cons_succ] at h₂ ⊢
      rw [ih _ _ _ h₁ h₂, show d + deemphOps + deemphOps * n = d + deemphOps * (n + 1) by ring]

theorem deemphSeq_append (a b : F32) (d : Nat) (y : F32) (u v : List F32) :
    deemphSeq a b d y (u ++ v) =
      deemphSeq a b d y u ++
        deemphSeq a b (d + deemphOps * u.length) ((deemphSeq a b d y u).getLastD y) v := by
  induction u generalizing d y with
  | nil => simp [deemphSeq]
  | cons c u ih =>
    simp only [List.cons_append, deemphSeq, ih, List.length_cons, List.getLastD_cons]
    rw [show d + deemphOps + deemphOps * u.length = d + deemphOps * (u.length + 1) by ring]

/-! ### RateConverter -/

/-- A position has a right neighbour exactly when its cursor is short of the last sample. -/
theorem has_right_neighbour {fo : Nat} (hfo : 0 < fo) (c n : Nat) : c / fo + 1 < n ↔ c < (n - 1) * fo := by
  rw [← Nat.lt_sub_iff_add_lt, Nat.div_lt_iff_lt_mul hfo]

/-- The number of turns the loop of 45_resampler.md R242 takes from cursor `c` over `n` samples. -/
def loopTurns (fi fo n c : Nat) : Nat := ((n - 1) * fo - c + (fi - 1)) / fi

theorem loopTurns_le (fi fo n c : Nat) (hfi : 0 < fi) : loopTurns fi fo n c ≤ loopBound fi fo n := by
  have h₁ : (n - 1) * fo - c ≤ n * fo :=
    (Nat.sub_le _ _).trans (Nat.mul_le_mul_right _ (Nat.sub_le _ _))
  unfold loopTurns loopBound
  calc ((n - 1) * fo - c + (fi - 1)) / fi ≤ (n * fo + fi) / fi := Nat.div_le_div_right (by omega)
    _ = n * fo / fi + 1 := Nat.add_div_right _ hfi

theorem loopTurns_stop {fi fo n c : Nat} (h : (n - 1) * fo ≤ c) (hfi : 0 < fi) : loopTurns fi fo n c = 0 := by
  unfold loopTurns
  rw [Nat.sub_eq_zero_of_le h]
  exact Nat.div_eq_of_lt (by omega)

theorem loopTurns_step {fi fo n c : Nat} (h : c < (n - 1) * fo) (hfi : 0 < fi) :
    loopTurns fi fo n c = loopTurns fi fo n (c + fi) + 1 := by
  unfold loopTurns
  rw [← Nat.add_div_right _ hfi]
  by_cases h' : c + fi ≤ (n - 1) * fo
  · congr 1; omega
  · rw [show (n - 1) * fo - (c + fi) = 0 by omega]
    rw [show (0 + (fi - 1) + fi) / fi = 1 from by
      rw [Nat.add_div_right _ hfi, Nat.div_eq_of_lt (by omega)]]
    exact Nat.div_eq_of_lt_le (by omega) (by omega)

/-- All that the loop of 45_resampler.md R242 computes, given turns enough. -/
theorem resampleLoop_eq {fi fo : Nat} (hfi : 0 < fi) (hfo : 0 < fo) (w : List F32) :
    ∀ (fuel d c : Nat), loopTurns fi fo w.length c ≤ fuel →
      resampleLoop fi fo w fuel d c =
        ((List.range (loopTurns fi fo w.length c)).map fun k => interp (d + interpOps * k) fo w (c + k * fi),
          c + loopTurns fi fo w.length c * fi) := by
  intro fuel
  induction fuel with
  | zero =>
    intro d c h
    simp [resampleLoop, Nat.le_zero.1 h]
  | succ fuel ih =>
    intro d c h
    unfold resampleLoop
    by_cases hc : c / fo + 1 < w.length
    · have hstep := loopTurns_step ((has_right_neighbour hfo c w.length).1 hc) hfi
      rw [if_pos hc, ih (d + interpOps) (c + fi) (by omega), hstep]
      simp only [List.range_succ_eq_map, List.map_cons, List.map_map, Prod.mk.injEq, List.cons.injEq]
      refine ⟨⟨by simp, List.map_congr_left fun k _ => ?_⟩, by ring⟩
      simp only [Function.comp, Nat.succ_eq_add_one]
      rw [show d + interpOps + interpOps * k = d + interpOps * (k + 1) by ring,
        show c + fi + k * fi = c + (k + 1) * fi by ring]
    · have hstop : loopTurns fi fo w.length c = 0 :=
        loopTurns_stop (by have := (has_right_neighbour hfo c w.length).not.1 hc; omega) hfi
      rw [if_neg hc, hstop]; simp

/-- The cursor the loop stops at has no right neighbour. -/
theorem loopTurns_reaches (fi fo n c : Nat) (hfi : 0 < fi) : (n - 1) * fo ≤ c + loopTurns fi fo n c * fi := by
  unfold loopTurns
  have := Nat.div_add_mod ((n - 1) * fo - c + (fi - 1)) fi
  have hm := Nat.mod_lt ((n - 1) * fo - c + (fi - 1)) hfi
  have : ((n - 1) * fo - c + (fi - 1)) / fi * fi = (n - 1) * fo - c + (fi - 1) - ((n - 1) * fo - c + (fi - 1)) % fi := by
    rw [Nat.mul_comm]; omega
  omega

/-- The cursor the loop stops at is less than one step past the last sample, unless it began there. -/
theorem loopTurns_bound (fi fo n c : Nat) (hfi : 0 < fi) :
    c + loopTurns fi fo n c * fi - (n - 1) * fo < max fi (c + 1) := by
  unfold loopTurns
  have h := Nat.div_mul_le_self ((n - 1) * fo - c + (fi - 1)) fi
  generalize (n - 1) * fo = m at *
  by_cases hc : m ≤ c
  · have h0 : (m - c + (fi - 1)) / fi = 0 := Nat.div_eq_of_lt (by omega)
    rw [h0]; omega
  · omega

end Sys2Proof.Machine
end

