-- ==== Sys2Proof/Tests/Slice0.lean ====
section
/-! SUPPORT. Small tests, each on one step or one operation, with the values spec/95_test_vectors.md gives; the
smoke tests of WellFormed; and for every obligation with hypotheses a theorem `witness_<Name>` that meets them,
clause by clause and at the boundaries of their ranges. -/

namespace Sys2Proof.Tests

open Sys2Proof Sys2Proof.Machine

/-! ### Small states -/

/-- The reset state of a block without a MAX_LEN. -/
def base : State := State.resetWith .unbounded

/-- The reset state of a block with MAX_LEN = 2. -/
def short : State := State.resetWith (.bounded 1)

/-- A block with both rates set. -/
def rated (m : BitVec 3) (fi fo : Word) : State := { base with mode := m, fsIn := fi, fsOut := fo }

/-- The state after one step. -/
def after (s : State) : State :=
  match step s with
  | .next t    => t
  | .fault _   => s
  | .refused _ => s

/-- The command with word `w` and payload `p`, on the port. -/
def onPort (s : State) (w : Word) (p : Payload) : State := { s with hostIn := [.command ⟨w, p⟩] }

/-! ### Decoding (30_encoding.md R100 to R104; words of 95_test_vectors.md part 2) -/

theorem test_decode_encode : decodeWord 0x00000101 = .ok (.encode 0x01) := by decide
theorem test_decode_encode_arg_ff : decodeWord 0x0000FF01 = .ok (.encode 0xFF) := by decide
theorem test_decode_iqdec : decodeWord 0x00000002 = .ok .iqdec := by decide
theorem test_decode_fmdemod : decodeWord 0x00000003 = .ok .fmdemod := by decide
theorem test_decode_squelch : decodeWord 0x00000004 = .ok .squelch := by decide
theorem test_decode_deemph : decodeWord 0x00000005 = .ok .deemph := by decide
theorem test_decode_resample : decodeWord 0x00000006 = .ok .resample := by decide
theorem test_decode_process : decodeWord 0x00000007 = .ok .process := by decide
theorem test_decode_rstate : decodeWord 0x00000008 = .ok .rstate := by decide
theorem test_decode_csrr : decodeWord 0x00000C09 = .ok (.csrr 0x0C) := by decide
theorem test_decode_csrw : decodeWord 0x0000040A = .ok (.csrw 0x04) := by decide

/-- V-IL-1 to V-IL-5, V-ENC-9, V-IQ-9. -/
theorem test_illegal_words :
    decodeWord 0x00000000 = .error .opZero ∧ decodeWord 0x0000000B = .error .opUnassigned ∧
    decodeWord 0x000000FF = .error .opUnassigned ∧ decodeWord 0x00000108 = .error .argNotZero ∧
    decodeWord 0x80000009 = .error .reservedNotZero ∧ decodeWord 0x00010101 = .error .reservedNotZero ∧
    decodeWord 0x00000102 = .error .argNotZero := by decide

/-- 30_encoding.md R104: words where the ranges of OP meet. -/
theorem test_illegal_word_boundaries :
    decodeWord 0x00000A0A = .ok (.csrw 0x0A) ∧ decodeWord 0x0000010B = .error .opUnassigned ∧
    decodeWord 0x0000FF02 = .error .argNotZero ∧ decodeWord 0x0000FF08 = .error .argNotZero ∧
    decodeWord 0x0001000B = .error .reservedNotZero := by decide

/-- The host's question, on a row of the table and on a word that is illegal above the row's bits. -/
theorem test_decode_table_word :
    decodeTableWord 32 0x00000609 = some (.csrr 0x06) ∧ decodeTableWord 32 0x00000000 = none ∧
    step (State.reset.withFetchWord 32 0x00000008) = exec .rstate (State.reset.withFetchWord 32 0x00000008) :=
  ⟨by decide, by decide, rfl⟩

/-! ### WellFormed: one ill-formed term for each check -/

/-- 10_state.md R32: V-CT-6, V-CT-7. -/
theorem test_wellFormed_csr_number :
    (Instr.csrr 0x0C).wellFormed = true ∧ (Instr.csrr 0x0D).wellFormed = false ∧
    (Instr.csrw 0x05).wellFormed = true ∧ (Instr.csrw 0x06).wellFormed = false := by decide

/-- 30_encoding.md R106. -/
theorem test_fits_max_len :
    (Payload.bytes [1, 2]).fits (.bounded 1) = true ∧ (Payload.bytes [1, 2, 3]).fits (.bounded 1) = false ∧
    (Payload.word 7).fits (.bounded 0) = true ∧ (Payload.iq [⟨0, 0⟩]).fits (.bounded 0) = true := by decide

/-- 30_encoding.md R105: V-IQ-8, V-DM-14. -/
theorem test_suits_kind :
    (Payload.f32 []).suits .unbounded .iqdec = false ∧ (Payload.f32 []).suits .unbounded .fmdemod = false ∧
    (Payload.f32 []).suits .unbounded .squelch = true := by decide

/-- A command with an illegal word, with a reserved CSR, with a payload of another kind, and a good one. -/
theorem test_wellFormed_command :
    Command.wellFormed .unbounded ⟨0x0000000B, .none⟩ = false ∧
    Command.wellFormed .unbounded ⟨0x00000D09, .none⟩ = false ∧
    Command.wellFormed .unbounded ⟨0x00000009, .word 0⟩ = false ∧
    Command.wellFormed .unbounded ⟨0x00000009, .none⟩ = true := by decide

/-! ### The commands, on the vectors of 95_test_vectors.md part 2 -/

/-- V-ENC-1. -/
theorem test_encode_frame :
    (after (onPort base 0x00000101 (.word 0x05F5E100))).responses =
      [.ok (.bytes [0x01, 0x05, 0xF5, 0xE1, 0x00])] := by decide

/-- V-ENC-9, V-ENC-10: the illegal word and the missing parameter. -/
theorem test_encode_faults :
    csrValue (after (onPort base 0x00010101 (.word 1))) .status = 0x00000101 ∧
    csrValue (after (onPort base 0x00000101 .none)) .status = 0x00000201 := by decide

/-- V-IQ-1. -/
theorem test_iqdec_pairs :
    (after (onPort base 0x00000002 (.bytes [127, 128, 0, 255]))).responses =
      [.ok (.iq [⟨0xBF000000, 0x3F000000⟩, ⟨0xC2FF0000, 0x42FF0000⟩])] := by decide

/-- V-IQ-4, V-IQ-5, V-IQ-6. -/
theorem test_iqdec_length :
    (after (onPort base 0x00000002 (.bytes [1, 2, 3]))).responses = [.fault .streamIntegrity] ∧
    (after (onPort { base with bufBytes := 4 } 0x00000002 (.bytes [1, 2]))).responses =
      [.fault .streamIntegrity] ∧
    (after (onPort { base with bufBytes := 4 } 0x00000002 (.bytes []))).responses = [.ok (.iq [])] := by decide

/-- V-DM-1, V-DM-7, V-DM-11: `im` and `re` are what ATAN2 is given. -/
theorem test_disc_operands :
    discRe 0 ⟨0x3F000000, 0x3F000000⟩ ⟨0xBF000000, 0x3F000000⟩ = 0 ∧
    discIm 0 ⟨0x3F000000, 0x3F000000⟩ ⟨0xBF000000, 0x3F000000⟩ = 0x3F000000 ∧
    discRe 0 ⟨0x42FF0000, 0x3F000000⟩ ⟨0xC2FF0000, 0x3F000000⟩ = 0xC67E0000 ∧
    discIm 0 ⟨0x42FF0000, 0x3F000000⟩ ⟨0xC2FF0000, 0x3F000000⟩ = 0x42FF0000 ∧
    discRe 0 ⟨0x3F800000, 0x80000000⟩ ⟨0xBF800000, 0x80000000⟩ = 0xBF800000 ∧
    discIm 0 ⟨0x3F800000, 0x80000000⟩ ⟨0xBF800000, 0x80000000⟩ = 0x80000000 := by decide

/-- V-DM-16, its second command: the seam pair is compared and the last sample kept. -/
theorem test_fmdemod_seam :
    (after (onPort { base with mode := 7, dmPrev := ⟨0xBF000000, 0x3F000000⟩, dmPrevv := true } 0x00000003
      (.iq [⟨0xBF000000, 0xBF000000⟩, ⟨0x3F000000, 0xBF000000⟩]))) =
      { base with mode := 7, dmPrev := ⟨0x3F000000, 0xBF000000⟩, dmPrevv := true, nanDraws := 12,
                  responses := [.ok (.f32 [Config.atan2 0x3F000000 0, Config.atan2 0x3F000000 0])] } := rfl

/-- V-SQ-1, and V-SQ-6 with its threshold: NaNs keep their patterns. -/
theorem test_squelch_gate :
    (after (onPort { base with sqThresh := 0x3F000000 } 0x00000004
      (.f32 [0x3E800000, 0xBF000000, 0xBF400000, 0x80000000, 0x7FC00001, 0xFFC00000]))).responses =
      [.ok (.f32 [0x00000000, 0xBF000000, 0xBF400000, 0x00000000, 0x7FC00001, 0xFFC00000])] := by decide

/-- V-SQ-3, V-SQ-4: an infinite and a NaN threshold. -/
theorem test_squelch_thresholds :
    squelchBody [0x7F61B1E6, 0x7F800000, 0xFF800000, 0xBF800000] { base with sqThresh := 0x7F800000 } =
      [0x00000000, 0x7F800000, 0xFF800000, 0x00000000] ∧
    squelchBody [0x00000000, 0x3F800000] { base with sqThresh := 0x7FC00000 } = [0x00000000, 0x3F800000] := by
  decide

/-- V-DE-1. -/
theorem test_deemph_two_samples :
    (after (onPort (rated 3 40000 0) 0x00000005 (.f32 [0x3F800000, 0x3F800000]))).responses =
      [.ok (.f32 [0x3E800000, 0x3EE00000])] ∧
    (after (onPort (rated 3 40000 0) 0x00000005 (.f32 [0x3F800000, 0x3F800000]))).deY = 0x3EE00000 := by decide

/-- V-DE-10, V-DE-11, V-DE-12, V-DE-13. -/
theorem test_deemph_empty_and_faults :
    (after (onPort { rated 2 40000 0 with deY := 0x3F000000 } 0x00000005 (.f32 []))).deY = 0 ∧
    (after (onPort { rated 3 40000 0 with deY := 0x3F000000 } 0x00000005 (.f32 []))).deY = 0x3F000000 ∧
    (after (onPort base 0x00000005 (.f32 [0x3F800000]))).responses = [.fault .config] ∧
    (after (onPort base 0x00000005 (.bytes [1]))).responses = [.fault .operandFormat] := by decide

/-- V-RS-1. -/
theorem test_resample_local :
    (after (onPort (rated 1 40000 80000) 0x00000006 (.f32 [0x3F800000, 0x40000000, 0x40800000]))).responses =
      [.ok (.f32 [0x3F800000, 0x3FC00000, 0x40000000, 0x40400000, 0x40800000, 0x40800000])] := by decide

/-- V-RS-2, its second command, from the state its first one leaves. -/
theorem test_resample_continuous :
    after (onPort { rated 3 40000 80000 with rsLb := 0x40800000, rsLbv := true } 0x00000006
        (.f32 [0x40C00000])) =
      { rated 3 40000 80000 with
          rsLb := 0x40C00000, rsLbv := true, nanDraws := 8,
          responses := [.ok (.f32 [0x40800000, 0x40A00000])] } := by decide

/-- V-PR-2: one demodulated value, held as the lookback. -/
theorem test_process_holds_lookback :
    (after (onPort (rated 3 40000 40000) 0x00000007 (.bytes [127, 128, 127, 128]))).responses = [.ok (.f32 [])] ∧
    (after (onPort (rated 3 40000 40000) 0x00000007 (.bytes [127, 128, 127, 128]))).rsLbv = true :=
  ⟨rfl, rfl⟩

/-- V-PR-4, V-PR-5: CONFIG before STREAM_INTEGRITY. -/
theorem test_process_faults :
    csrValue (after (onPort base 0x00000007 (.bytes [1, 2, 3]))) .status = 0x00000401 ∧
    after (onPort { rated 3 40000 40000 with bufBytes := 4 } 0x00000007 (.bytes [127, 128, 127, 128, 127, 128])) =
      { rated 3 40000 40000 with
          bufBytes := 4, status := ⟨true, false, 5⟩, responses := [.fault .streamIntegrity] } := by decide

/-- V-CT-10. -/
theorem test_rstate_clears :
    (after (onPort { rated 3 40000 0 with deY := 0x3EE00000 } 0x00000008 .none)).deY = 0 := by decide

/-- V-CT-12. -/
theorem test_rstate_payload :
    (after (onPort base 0x00000008 (.bytes []))).status = ⟨true, false, 2⟩ := by decide

/-- V-CT-3, V-CT-14. -/
theorem test_csrr_values :
    (after (onPort (rated 3 180000 0) 0x00000609 .none)).responses = [.ok (.word 0x3D8D3DCB)] ∧
    (after (onPort { base with dmPrevv := true } 0x00000C09 .none)).responses = [.ok (.word 0x00000002)] := by
  decide

/-- V-CT-6, V-CT-8. -/
theorem test_csrr_faults :
    (after (onPort base 0x00000D09 .none)).responses = [.fault .illegalCsr] ∧
    (after (onPort base 0x00000009 (.word 0))).responses = [.fault .operandFormat] := by decide

/-- V-CT-4, V-CT-5, V-CT-13. -/
theorem test_csrw_fields :
    (after (onPort base 0x0000000A (.word 0xFFFFFFFF))).mode = 7 ∧
    (after (onPort base 0x0000040A (.word 16385))).bufBytes = 0x00004000 ∧
    (after (onPort { base with status := ⟨true, false, 5⟩ } 0x0000050A (.word 0x12345678))).status =
      ⟨false, false, 0⟩ := by decide

/-- V-CT-9, V-CT-11: what a write of a rate resets, and what it keeps. -/
theorem test_csrw_side_effects :
    after (onPort { rated 3 40000 80000 with deY := 0x3EE00000, rsLb := 0x40C00000, rsLbv := true } 0x0000020A
        (.word 80000)) =
      { rated 3 40000 80000 with deY := 0x3EE00000, responses := [.ok .none] } := by decide

/-- Row 5 of P3: a second fault sets OVERFLOW and keeps the code. -/
theorem test_second_fault :
    csrValue (after (onPort { base with bufBytes := 4, status := ⟨true, false, 4⟩ } 0x00000002
      (.bytes [1, 2, 3]))) .status = 0x00000403 := by decide

/-- 70_reset_and_hazards.md R340: reset during a command. -/
theorem test_reset_input :
    (after { rated 7 1 2 with
      deY := 1, hostIn := [.resetDuring ⟨0x00000008, .none⟩] }) = base := by decide

/-- The rows of the table of S9 and of V-RS-11: rounding to nearest, one ulp below where the sum rounds down. -/
theorem test_rounding :
    alpha 1 = 0x3F7FFB16 ∧ alpha 0xFFFFFFFF = 0x3650552B ∧
    interp 0 3 [0x41700000, 0x41700000] 1 = 0x416FFFFF := by decide

/-- V-DE-7: a product that underflows to `-0`. -/
theorem test_underflow :
    fmul 0 (alpha 180000) 0x80000001 = 0x80000000 ∧ fadd 0 0x80000000 0 = 0 := by decide

/-- V-DE-9: `+inf - inf` draws a NaN, of the number of that operation. -/
theorem test_nan_draw :
    deemphSeq 0x3E800000 0x3F400000 0 0x7F800000 [0xFF800000] = [drawNaN 2] := by rfl

/-! ### The assembler (30_encoding.md R111, R112; lines of 95_test_vectors.md part 3) -/

theorem test_assemble_csrw :
    assembleLine "CSRW FS_IN, 180000" = some [⟨0x0000010A, .word 0x0002BF20⟩] := by decide

theorem test_assemble_encode :
    assembleLine "ENCODE 0x01, 100000000" = some [⟨0x00000101, .word 0x05F5E100⟩] := by decide

theorem test_assemble_floats :
    assembleLine "DEEMPH f[1.0, -0.5] ; two" = some [⟨0x00000005, .f32 [0x3F800000, 0xBF000000]⟩] ∧
    assembleLine "DEEMPH f[0.1]" = none := by decide

/-- V-DE-9's line; a word that is no literal. -/
theorem test_assemble_infinities :
    assembleLine "DEEMPH f[+inf, 1.0, -inf]" =
      some [⟨0x00000005, .f32 [0x7F800000, 0x3F800000, 0xFF800000]⟩] ∧
    assembleLine "DEEMPH f[inf]" = none ∧ assembleLine "DEEMPH f[NaN]" = none := by decide

theorem test_assemble_session :
    assembleLine "SESSION 180000, 44100" =
      some [⟨0x0000010A, .word 0x0002BF20⟩, ⟨0x0000020A, .word 0x0000AC44⟩, ⟨0x00000008, .none⟩] := by decide

/-! ### Witnesses: the hypotheses of every obligation, met, clause by clause -/

/-- One IQ sample of a decoded buffer, (-0.5, 0.5). -/
def sample : IQ := ⟨0xBF000000, 0x3F000000⟩

theorem witness_DecodeReadsExactlyTheEncodedWords :
    decodeWord (encode (.encode 0xFF)) = .ok (.encode 0xFF) ∧ decodeWord (encode (.csrw 0x00)) = .ok (.csrw 0x00) := by
  decide

theorem witness_IllegalWordsAreThoseOfTheRule :
    decodeWord 0x00000609 = .ok (.csrr 0x06) ∧
    (onPort base 0x0000000B .none).hostIn = [.command ⟨0x0000000B, .none⟩] ∧
    decodeWord 0x0000000B = .error .opUnassigned ∧ decodeWord 0x00000108 = .error .argNotZero := by decide

theorem witness_StepRunsTheDecodedCommand :
    (onPort base 0x00000609 .none).hostIn = [.command ⟨0x00000609, .none⟩] ∧
    decodeWord 0x00000609 = .ok (.csrr 0x06) := by decide

theorem witness_FrameDecodeUndoesEncode :
    (onPort base 0x0000FF01 (.word 0xFFFFFFFF)).payload = .word 0xFFFFFFFF := by decide

theorem witness_SessionPseudoCommandStartsASession :
    ({ rated 7 1 2 with hostIn := (Pseudo.session 180000 44100).expand.map .command } : State).hostIn =
      (Pseudo.session 180000 44100).expand.map .command := rfl

theorem witness_EncodeFramesEveryParameter :
    (onPort base 0x0000FF01 (.word 0)).hostIn = [.command ⟨0x0000FF01, .word 0⟩] ∧
    opField 0x0000FF01 = 0x01 ∧ resField 0x0000FF01 = 0 ∧
    opField 0x00010101 = 0x01 ∧ resField 0x00010101 ≠ 0 ∧
    (onPort base 0x0000FF01 (.word 0)).payload = .word 0 ∧
    (onPort base 0x0000FF01 .none).payload.kind ≠ .word := by decide

/-- The accepted lengths are 0, any even one with BUF_BYTES = 0, and BUF_BYTES; the refused ones an odd one and an
even one that is not BUF_BYTES. -/
theorem witness_IqdecDecodesEveryPair :
    (onPort base 0x00000102 .none).hostIn = [.command ⟨0x00000102, .none⟩] ∧
    opField 0x00000102 = 0x02 ∧ opField 0x00000002 = 0x02 ∧
    (onPort short 0x00000002 (.bytes [7, 9])).payload = .bytes [7, 9] ∧
    (Payload.bytes [7, 9]).fits short.maxLen = true ∧ [7, 9].length % 2 = 0 ∧ short.bufBytes = 0 ∧
    ([7, 9] : List Byte)[2 * 0]? = some 7 ∧ ([7, 9] : List Byte)[2 * 0 + 1]? = some 9 ∧
    (iqDecode 0 [7, 9])[0]? = some ⟨0xC2F10000, 0xC2ED0000⟩ ∧
    (Payload.bytes []).fits short.maxLen = true ∧
    ({ short with bufBytes := 2 } : State).bufBytes.toNat = [7, 9].length ∧
    (onPort short 0x00000002 (.word 0)).payload.kind ≠ .bytes ∧
    (onPort short 0x00000002 (.bytes [1, 2, 3])).payload.fits (onPort short 0x00000002 (.bytes [1, 2, 3])).maxLen
      = false ∧
    (Payload.bytes [1]).fits short.maxLen = true ∧ [1].length % 2 = 1 ∧
    ({ short with bufBytes := 4 } : State).bufBytes ≠ 0 ∧
    [7, 9].length ≠ ({ short with bufBytes := 4 } : State).bufBytes.toNat := by decide

theorem witness_FmdemodComparesNeighbours :
    opField 0x00000003 = 0x03 ∧ opField 0x0000FF03 = 0x03 ∧
    (onPort short 0x00000003 (.iq [sample, sample])).payload = .iq [sample, sample] ∧
    (Payload.iq [sample, sample]).fits short.maxLen = true ∧
    ({ short with mode := 7, dmPrevv := true, dmPrev := sample } : State).mode.getLsbD 2 = true ∧
    short.mode.getLsbD 2 = false ∧
    [sample, sample][0]? = some sample ∧ [sample, sample][0 + 1]? = some sample ∧
    (onPort short 0x00000003 (.f32 [])).payload.kind ≠ .iq ∧
    (Payload.iq [sample, sample, sample]).fits short.maxLen = false := by decide

theorem witness_SeamIsNeverComparedWithoutDmCont :
    short.mode.getLsbD 2 = false ∧ [sample] ≠ [] ∧ [sample, sample] ≠ [] ∧
    (Payload.iq [sample]).fits short.maxLen = true ∧ (Payload.iq [sample, sample]).fits short.maxLen = true := by
  decide

theorem witness_DemodulatorContinuesAcrossASplit :
    ({ short with mode := 7 } : State).mode.getLsbD 2 = true ∧
    (Payload.iq [sample]).fits short.maxLen = true ∧ (Payload.iq []).fits short.maxLen = true ∧
    (Payload.iq ([sample] ++ [sample])).fits short.maxLen = true := by decide

theorem witness_EqualSamplesDemodulateToZero :
    isFinite sample.i = true ∧ isFinite sample.q = true ∧ isFinite (fmul 0 sample.q sample.i) = true ∧
    isFinite (fmul 0 sample.i sample.i) = true ∧ isFinite (fmul 0 sample.q sample.q) = true := by decide

theorem witness_DiscriminatorIsExactOnDecodedSamples :
    sample = ⟨iqComponent 0 127, iqComponent 0 128⟩ ∧
    (⟨0x42FF0000, 0xC2FF0000⟩ : IQ) = ⟨iqComponent 0 255, iqComponent 0 0⟩ := by decide

theorem witness_SquelchGatesEachSample :
    opField 0x00000004 = 0x04 ∧ opField 0x00000104 = 0x04 ∧
    (onPort short 0x00000004 (.f32 [0x7FC00001, 0x80000000])).payload = .f32 [0x7FC00001, 0x80000000] ∧
    (Payload.f32 [0x7FC00001, 0x80000000]).fits short.maxLen = true ∧
    ([0x7FC00001, 0x80000000] : List F32)[0]? = some (0x7FC00001 : F32) ∧ isNaN 0x7FC00001 = true ∧
    ([0x7FC00001, 0x80000000] : List F32)[1]? = some (0x80000000 : F32) ∧ isNaN 0x80000000 = false ∧
    (onPort short 0x00000004 (.iq [])).payload.kind ≠ .f32 ∧
    (Payload.f32 [0, 0, 0]).fits short.maxLen = false := by decide

theorem witness_AlphaIsTheRoundedCoefficient :
    (1 : Word) ≠ 0 ∧ (0xFFFFFFFF : Word) ≠ 0 ∧ (1 : Word).toNat ≤ (0xFFFFFFFF : Word).toNat := by decide

theorem witness_DeemphIsTheRecurrence :
    opField 0x00000005 = 0x05 ∧ opField 0x00000105 = 0x05 ∧
    (onPort (rated 2 1 0) 0x00000005 (.f32 [one])).payload = .f32 [one] ∧
    (Payload.f32 [one]).fits (rated 2 1 0).maxLen = true ∧ (rated 2 1 0).fsIn ≠ 0 ∧
    (rated 2 1 0).mode.getLsbD 0 = false ∧ (rated 3 1 0).mode.getLsbD 0 = true ∧
    [one][0]? = some one ∧ (0 :: [one])[0]? = some (0 : F32) ∧
    (onPort short 0x00000005 (.bytes [1])).payload.kind ≠ .f32 ∧
    (Payload.f32 [0, 0, 0]).fits short.maxLen = false ∧
    (onPort short 0x00000005 (.f32 [])).payload.kind = .f32 ∧
    (Payload.f32 []).fits short.maxLen = true ∧ short.fsIn = 0 := by decide

theorem witness_FilterContinuesAcrossASplit :
    ({ short with fsIn := 1 } : State).mode.getLsbD 0 = true ∧ ({ short with fsIn := 1 } : State).fsIn ≠ 0 ∧
    (Payload.f32 [one]).fits short.maxLen = true ∧ (Payload.f32 []).fits short.maxLen = true ∧
    (Payload.f32 ([one] ++ [one])).fits short.maxLen = true := by decide

theorem witness_NaNPoisonsTheFilter :
    (onPort (rated 3 1 0) 0x00000005 (.f32 [one, 0x7FC00000])).payload = .f32 [one, 0x7FC00000] ∧
    (Payload.f32 [one, 0x7FC00000]).fits (rated 3 1 0).maxLen = true ∧ (rated 3 1 0).fsIn ≠ 0 ∧
    ([one, 0x7FC00000] : List F32)[1]? = some 0x7FC00000 ∧ isNaN 0x7FC00000 = true ∧
    (rated 3 1 0).mode.getLsbD 0 = true ∧ isNaN ({ rated 3 1 0 with deY := 0xFF800001 } : State).deY = true := by
  decide

/-- A payload of one sample and one of two, with each value of DE_CONT. -/
theorem witness_FirstFilterOutputIsAlphaTimesInput :
    (onPort (rated 3 180000 0) 0x00000005 (.f32 [0x80000001, one])).payload = .f32 (0x80000001 :: [one]) ∧
    (Payload.f32 (0x80000001 :: [one])).fits (rated 3 180000 0).maxLen = true ∧
    (onPort (rated 2 180000 0) 0x00000005 (.f32 [one])).payload = .f32 (one :: []) ∧
    isFinite 0x80000001 = true ∧ isFinite one = true ∧ (rated 3 180000 0).fsIn ≠ 0 ∧ (rated 3 180000 0).deY = 0 ∧
    (rated 2 180000 0).mode.getLsbD 0 = false := by decide

/-- `frac` is 1.0 at FS_OUT = 2^25 already; and a whole position before each kind of right neighbour. -/
theorem witness_InterpolationIsTheFormulaOfTheRule :
    0 < 2 ^ 25 ∧ interpFrac (2 ^ 25) (2 ^ 25 - 1) = one ∧
    interpFrac 3 3 = 0 ∧ ([0, 0x80000000, 0] : List F32)[3 / 3]? = some (0x80000000 : F32) ∧
    ([0, 0x80000000, 0] : List F32)[3 / 3 + 1]? = some (0 : F32) ∧ isFinite 0 = true ∧ signBit 0 = false ∧
    isNaN one = false ∧ isNaN 0x7FC00000 = true ∧ isFinite 0x7F800000 = false := by decide

theorem witness_LocalResampleRestartsEachPayload :
    (onPort base 0x00000006 .none).hostIn = [.command ⟨0x00000006, .none⟩] ∧
    (onPort (rated 1 1 3) 0x00000006 (.f32 [one])).payload = .f32 [one] ∧
    (Payload.f32 [one]).fits (rated 1 1 3).maxLen = true ∧ (rated 1 1 3).fsIn ≠ 0 ∧ (rated 1 1 3).fsOut ≠ 0 ∧
    (rated 1 1 3).mode.getLsbD 1 = false ∧ 2 < [one].length * 3 / 1 ∧ 2 * 1 / 3 + 1 = [one].length ∧
    0 < [one, one].length * 1 / 1 ∧ 0 * 1 / 1 + 1 < [one, one].length := by decide

theorem witness_ConstantInputStaysConstantAtWholePositions :
    (onPort (rated 1 1 3) 0x00000006 (.f32 (List.replicate 2 0))).payload = .f32 (List.replicate 2 0) ∧
    (Payload.f32 (List.replicate 2 0)).fits (rated 1 1 3).maxLen = true ∧ (rated 1 1 3).fsIn ≠ 0 ∧
    (rated 1 1 3).fsOut ≠ 0 ∧ (rated 1 1 3).mode.getLsbD 1 = false ∧ isFinite 0 = true ∧ (0 : F32) ≠ 0x80000000 ∧
    (resampleLocal 0 1 3 (List.replicate 2 0))[0]? = some 0 ∧ interpFrac 3 (0 * 1) = 0 ∧
    (resampleLocal 0 1 3 (List.replicate 2 0))[5]? = some 0 ∧ 2 ≤ 5 * 1 / 3 + 1 := by decide

theorem witness_ContinuousResampleCarriesTheCursor :
    (onPort base 0x00000006 .none).hostIn = [.command ⟨0x00000006, .none⟩] ∧
    (onPort (rated 3 3 2) 0x00000006 (.f32 [one, one])).payload = .f32 [one, one] ∧
    (Payload.f32 [one, one]).fits (rated 3 3 2).maxLen = true ∧ (rated 3 3 2).fsIn ≠ 0 ∧
    (rated 3 3 2).fsOut ≠ 0 ∧ (rated 3 3 2).mode.getLsbD 1 = true ∧
    (rated 3 3 2).resampleInput [] = [] ∧ (rated 3 3 2).resampleInput [one, one] ≠ [] ∧
    (resampleCont [one, one] (rated 3 3 2)).1 = [one] ∧
    ({ rated 3 3 2 with rsLbv := true } : State).resampleInput [] ≠ [] := by decide

theorem witness_ResampleFaultsAsTheRuleSays :
    opField 0x00000006 = 0x06 ∧ opField 0x00000106 = 0x06 ∧
    (onPort short 0x00000006 .none).payload.kind ≠ .f32 ∧
    (Payload.f32 [0, 0, 0]).fits short.maxLen = false ∧
    (onPort short 0x00000006 (.f32 [])).payload.kind = .f32 ∧ (Payload.f32 []).fits short.maxLen = true ∧
    (rated 3 1 0).fsIn ≠ 0 ∧ (rated 3 1 0).fsOut = 0 ∧ (rated 3 0 1).fsIn = 0 ∧ (rated 3 1 1).fsOut ≠ 0 := by
  decide

/-- A session of two payloads and an empty one, as V-RS-5. -/
theorem witness_SessionOutputIsIndependentOfTheSplit :
    ({ rated 3 3 2 with hostIn := [[one, one], [], [one]].map (fun x => .command (assemble .resample (.f32 x))) } :
      State).hostIn = [[one, one], [], [one]].map (fun x => .command (assemble .resample (.f32 x))) ∧
    (∀ x ∈ [[one, one], [], [one]], (Payload.f32 x).fits (rated 3 3 2).maxLen = true) ∧
    (rated 3 3 2).fsIn ≠ 0 ∧ (rated 3 3 2).fsOut ≠ 0 ∧ (rated 3 3 2).mode.getLsbD 1 = true ∧
    (rated 3 3 2).rsNum = 0 ∧ (rated 3 3 2).rsLbv = false ∧ [[one, one], [], [one]].flatten ≠ [] ∧
    2 = (([[one, one], [], [one]].flatten.length - 1) * 2 + (3 - 1)) / 3 := by decide

theorem witness_BothResamplersAgreeBeforeTheClamp :
    (Payload.f32 [one, 0x40000000]).fits (rated 3 1 1).maxLen = true ∧ (rated 3 1 1).fsIn ≠ 0 ∧
    (rated 3 1 1).fsOut ≠ 0 ∧ (rated 3 1 1).rsNum = 0 ∧ (rated 3 1 1).rsLbv = false ∧
    (1#3).getLsbD 1 = false ∧ (3#3).getLsbD 1 = true ∧
    0 * (rated 3 1 1).fsIn.toNat / (rated 3 1 1).fsOut.toNat + 1 < [one, (0x40000000 : F32)].length ∧
    (resampleLocal 0 1 1 [one, 0x40000000]).length = 2 ∧
    (resampleCont [one, 0x40000000] (rated 3 1 1)).1.length = 1 := by decide

theorem witness_ProcessEqualsTheFiveStages :
    opField 0x00000007 = 0x07 ∧ opField 0x00000107 = 0x07 ∧
    (onPort (rated 7 1 1) 0x00000007 (.bytes [1, 2])).payload = .bytes [1, 2] ∧
    (Payload.bytes [1, 2]).fits (rated 7 1 1).maxLen = true ∧ (rated 7 1 1).fsIn ≠ 0 ∧ (rated 7 1 1).fsOut ≠ 0 ∧
    [1, 2].length % 2 = 0 ∧ (rated 7 1 1).bufBytes = 0 ∧
    ({ rated 7 1 1 with bufBytes := 2 } : State).bufBytes.toNat = [1, 2].length := by decide

theorem witness_ProcessFaultsBeforeAnyStage :
    (onPort short 0x00000007 (.f32 [])).payload.kind ≠ .bytes ∧
    (Payload.bytes [1, 2, 3]).fits short.maxLen = false ∧
    (onPort short 0x00000007 (.bytes [1])).payload.kind = .bytes ∧ (Payload.bytes [1]).fits short.maxLen = true ∧
    short.fsIn = 0 ∧ (rated 3 1 0).fsOut = 0 ∧ (rated 3 1 1).fsIn ≠ 0 ∧ (rated 3 1 1).fsOut ≠ 0 ∧
    [1].length % 2 = 1 ∧ ({ rated 3 1 1 with bufBytes := 4 } : State).bufBytes ≠ 0 ∧ [1, 2].length ≠ 0 ∧
    [1, 2].length ≠ ({ rated 3 1 1 with bufBytes := 4 } : State).bufBytes.toNat := by decide

theorem witness_RstateResetsTheStreamState :
    opField 0x00000008 = 0x08 ∧ opField 0x00000108 = 0x08 ∧
    (onPort base 0x00000008 .none).payload = .none ∧ (onPort base 0x00000008 (.bytes [])).payload ≠ .none := by
  decide

theorem witness_CsrrReadsEveryRegister :
    opField 0x00000C09 = 0x09 ∧ resField 0x00000C09 = 0 ∧ opField 0x80000009 = 0x09 ∧
    (onPort base 0x00000C09 .none).payload = .none ∧ (0x0C : Byte).toNat ≤ 0x0C ∧ (0x00 : Byte).toNat ≤ 0x0C ∧
    0x0D ≤ (0x0D : Byte).toNat ∧ 0x0D ≤ (0xFF : Byte).toNat ∧
    (onPort base 0x00000C09 (.word 0)).payload ≠ .none := by decide

theorem witness_CsrwWritesEveryRegister :
    opField 0x0000050A = 0x0A ∧ resField 0x0000050A = 0 ∧ opField 0x8000000A = 0x0A ∧
    (onPort base 0x0000050A (.word 0xFFFFFFFF)).payload = .word 0xFFFFFFFF ∧
    0x06 ≤ (0x06 : Byte).toNat ∧ 0x06 ≤ (0xFF : Byte).toNat ∧ (0x05 : Byte).toNat ≤ 0x05 ∧
    (onPort base 0x0000050A .none).payload.kind ≠ .word := by decide

theorem witness_TakingAFaultLatchesTheFirstCode :
    base.status.fault = false ∧ ({ base with status := ⟨true, false, 4⟩ } : State).status.fault = true := by decide

/-- A command due each of the five faults, one due two at once, and one due none. -/
theorem witness_EveryCommandReportsItsFirstFault :
    (onPort base 0x0000000B .none).hostIn = [.command ⟨0x0000000B, .none⟩] ∧
    firstFault base ⟨0x0000000B, .none⟩ = some .illegalCommand ∧
    firstFault base ⟨0x0000060A, .none⟩ = some .illegalCsr ∧
    firstFault base ⟨0x00000005, .bytes [1]⟩ = some .operandFormat ∧
    firstFault base ⟨0x00000007, .bytes [1, 2, 3]⟩ = some .config ∧
    firstFault base ⟨0x00000002, .bytes [1, 2, 3]⟩ = some .streamIntegrity ∧
    firstFault base ⟨0x00000008, .none⟩ = none := by decide

theorem witness_OneResponsePerCommand :
    step (onPort base 0x00000008 .none) = .next { base with responses := [.ok .none] } ∧
    step base = .next base ∧ base.hostIn = [] ∧
    step { base with hostIn := [.reset] } = .next base ∧
    step { base with hostIn := [.resetDuring ⟨0x00000008, .none⟩] } = .next base := ⟨rfl, rfl, rfl, rfl, rfl⟩

/-- A run without a fault, and one with. -/
theorem witness_FaultFreeRunIffStatusClear :
    (∀ c ∈ ([⟨0x00000008, .none⟩, ⟨0x0000000B, .none⟩] : List Command), decodeWord c.word ≠ .ok (.csrw 0x05)) ∧
    base.status.fault = false ∧
    Host.Core.run core 2 { base with hostIn := [.command ⟨0x00000008, .none⟩, .command ⟨0x0000000B, .none⟩] } =
      .next { base with status := ⟨true, false, 1⟩, responses := [.ok .none, .fault .illegalCommand] } ∧
    Host.Core.run core 1 { base with hostIn := [.command ⟨0x00000008, .none⟩] } =
      .next { base with responses := [.ok .none] } := ⟨by decide, rfl, rfl, rfl⟩

/-- The three ways STATUS changes. -/
theorem witness_StatusChangesOnlyByFaultClearOrReset :
    step (onPort base 0x0000000B .none) =
      .next { base with status := ⟨true, false, 1⟩, responses := [.fault .illegalCommand] } ∧
    step (onPort { base with status := ⟨true, true, 1⟩ } 0x0000050A (.word 0)) =
      .next { base with responses := [.ok .none] } ∧
    step { base with status := ⟨true, true, 1⟩, hostIn := [.reset] } = .next base := ⟨rfl, rfl, rfl⟩

theorem witness_ResetGivesEveryRegisterItsValue :
    ({ rated 7 1 2 with hostIn := [.reset] } : State).hostIn = [.reset] ∧
    ({ rated 7 1 2 with hostIn := [.resetDuring ⟨0x00000008, .none⟩] } : State).hostIn =
      [.resetDuring ⟨0x00000008, .none⟩] := by decide

theorem witness_ResetAndRstateAgreeOnStreamState :
    ({ rated 7 1 2 with deY := one, hostIn := [.reset] } : State).hostIn = [.reset] ∧
    (onPort { rated 7 1 2 with deY := one } 0x00000008 .none).payload = .none ∧
    step { rated 7 1 2 with deY := one, hostIn := [.reset] } = .next base ∧
    exec .rstate (onPort { rated 7 1 2 with deY := one } 0x00000008 .none) =
      .next { rated 7 1 2 with responses := [.ok .none] } := ⟨rfl, rfl, rfl, rfl⟩

theorem witness_PseudoCommandsExpandAsListed :
    (Pseudo.gain 496, Config.opcSetGain) ∈ [(Pseudo.tune 496, Config.opcSetFreq), (.gain 496, Config.opcSetGain)] :=
  List.mem_cons_of_mem _ (List.mem_cons_self ..)

/-- A state the invariant holds of with both lookbacks valid, a fault latched and an odd cursor. -/
def busy : State :=
  { rated 7 180000 44100 with
      bufBytes := 4, status := ⟨true, true, 5⟩, deY := 0x7FC00000, rsNum := 179999, rsLb := one, rsLbv := true,
      dmPrev := sample, dmPrevv := true }

theorem inv_busy : busy.Inv where
  bufEven := by decide
  noFault := by decide
  faultCode := by decide
  rsValid := by decide
  rsInvalid := by decide
  dmValid := by decide
  dmInvalid := by decide

theorem witness_EveryStepKeepsTheInvariant :
    busy.Inv ∧ step (onPort busy 0x00000008 .none) =
      .next { rated 7 180000 44100 with
        bufBytes := 4, status := ⟨true, true, 5⟩, responses := [.ok .none] } := ⟨inv_busy, rfl⟩

/-- A DEEMPH, a RESAMPLE and an FMDEMOD that write their stream state. -/
theorem witness_OnlyNamedCommandsWriteStreamState :
    (exec .deemph (onPort (rated 3 40000 1) 5 (.f32 [one])) =
      .next { rated 3 40000 1 with deY := 0x3E800000, nanDraws := 3, responses := [.ok (.f32 [0x3E800000])] }) ∧
    (exec .resample (onPort (rated 3 40000 1) 6 (.f32 [one])) =
      .next { rated 3 40000 1 with rsLb := one, rsLbv := true, responses := [.ok (.f32 [])] }) ∧
    (exec .fmdemod (onPort (rated 7 40000 1) 3 (.iq [sample])) =
      .next { rated 7 40000 1 with dmPrev := sample, dmPrevv := true, responses := [.ok (.f32 [])] }) :=
  ⟨rfl, rfl, rfl⟩

theorem witness_OnlyCsrwWritesConfiguration :
    exec (.csrw 0x04) (onPort base 0x0000040A (.word 5)) =
      .next { base with bufBytes := 4, responses := [.ok .none] } := rfl

theorem witness_PureCommandsChangeOnlyStatus :
    (Instr.csrr 0x0D ∈ [Instr.encode 0, .iqdec, .squelch, .csrr 0x0D]) ∧
    exec (.csrr 0x0D) (onPort base 0x00000D09 .none) =
      .next { base with status := ⟨true, false, 3⟩, responses := [.fault .illegalCsr] } := ⟨by decide, rfl⟩

theorem witness_FmdemodFrame :
    exec .fmdemod (onPort base 3 (.iq [sample])) = .next { base with responses := [.ok (.f32 [])] } ∧
    base.mode.getLsbD 2 = false := ⟨rfl, rfl⟩

theorem witness_DeemphFrame :
    exec .deemph (onPort base 5 (.f32 [])) =
      .next { base with status := ⟨true, false, 4⟩, responses := [.fault .config] } := rfl

theorem witness_ResampleFrame :
    exec .resample (onPort (rated 1 1 1) 6 (.f32 [0x3F800000])) =
      .next { rated 1 1 1 with nanDraws := 4, responses := [.ok (.f32 [0x3F800000])] } ∧
    (rated 1 1 1).mode.getLsbD 1 = false := ⟨rfl, rfl⟩

/-- An empty PROCESS with DE_CONT = 0 and with DE_CONT = 1. -/
theorem witness_ProcessFrame :
    exec .process (onPort { rated 0 1 1 with deY := one } 7 (.bytes [])) =
      .next { rated 0 1 1 with responses := [.ok (.f32 [])] } ∧
    exec .process (onPort { rated 1 1 1 with deY := one } 7 (.bytes [])) =
      .next { rated 1 1 1 with deY := one, responses := [.ok (.f32 [])] } ∧
    (onPort (rated 0 1 1) 7 (.bytes [])).payload = .bytes [] ∧ (rated 0 1 1).fsIn ≠ 0 ∧ (rated 0 1 1).fsOut ≠ 0 ∧
    (rated 0 1 1).mode.getLsbD 1 = false ∧ (rated 0 1 1).mode.getLsbD 2 = false :=
  ⟨rfl, rfl, rfl, by decide, by decide, rfl, rfl⟩

theorem witness_RstateFrame :
    exec .rstate (onPort busy 8 .none) =
      .next { rated 7 180000 44100 with
        bufBytes := 4, status := ⟨true, true, 5⟩, responses := [.ok .none] } := rfl

theorem witness_CsrwFrame :
    exec (.csrw 0x03) (onPort busy 0x0000030A (.word 1)) =
      .next { busy with sqThresh := 1, responses := [.ok .none] } ∧
    exec (.csrw 0x05) (onPort busy 0x0000050A (.word 1)) =
      .next { busy with status := ⟨false, false, 0⟩, responses := [.ok .none] } := ⟨rfl, rfl⟩

/-! The arithmetic: what the operands stand for. -/

theorem realValue_one : realValue one = 1 := by
  have h : signedUnits one = 2 ^ 149 := by decide
  unfold realValue; rw [h]; norm_num

theorem realValue_zero : realValue 0 = 0 := by
  have h : signedUnits 0 = 0 := by decide
  unfold realValue; rw [h]; norm_num

theorem witness_RoundingIsNearestEven : 0 < 3 := by decide

/-- A sum and a difference that are not 0 and that are; infinities of like and of unlike signs; a NaN. -/
theorem witness_AdditionRoundsTheExactSum :
    isFinite one = true ∧ isFinite 0 = true ∧ realValue one + realValue 0 ≠ 0 ∧ realValue one - realValue 0 ≠ 0 ∧
    realValue 0 + realValue 0 = 0 ∧ realValue one - realValue one = 0 ∧
    isInf 0x7F800000 = true ∧ isInf 0xFF800000 = true ∧ signBit 0x7F800000 ≠ signBit 0xFF800000 ∧
    signBit 0xFF800000 = signBit 0xFF800000 ∧
    isNaN 0xFFC00000 = true := by
  rw [realValue_one, realValue_zero]
  refine ⟨?_, ?_, ?_, ?_, ?_, ?_, ?_⟩ <;> first | decide | norm_num

theorem witness_MultiplicationRoundsTheExactProduct :
    isFinite one = true ∧ realValue one * realValue one ≠ 0 ∧ realValue one * realValue 0 = 0 ∧
    isInf 0xFF800000 = true ∧ isNaN one = false ∧ magBits one ≠ 0 ∧ magBits 0x80000000 = 0 ∧
    isNaN 0x7F800001 = true := by
  rw [realValue_one, realValue_zero]
  refine ⟨?_, ?_, ?_, ?_⟩ <;> first | decide | norm_num

theorem witness_ComparisonAndMagnitude :
    isFinite 0x80000000 = true ∧ isFinite one = true ∧ isInf 0x7F800000 = true ∧ isInf 0xFF800000 = true ∧
    isNaN 0x7FC00000 = true := by decide

/-- A session that a RESAMPLE of two samples, a CSRR and a PROCESS of one demodulated value feed. -/
theorem witness_SessionWithProcessIsOneInterpolation :
    ∃ x y s, ResamplerSession x y s ∧ x.length = 3 ∧ y.length = 2 ∧ s.fsIn.toNat = 40000 ∧ s.fsOut.toNat = 40000 :=
  ⟨_, _, _,
    .process (b := [127, 128, 127, 128])
      (.other (c := ⟨0x00000009, .none⟩)
        (.resample (u := [one, one]) (.start (rated 3 40000 40000) rfl (by decide) (by decide) rfl rfl) rfl rfl)
        rfl (.inr (by decide)))
      rfl rfl rfl rfl rfl rfl rfl rfl rfl rfl,
    rfl, rfl, rfl, rfl⟩

/-- A command that faults leaves a session where it is. -/
theorem test_session_keeps_across_a_fault :
    ∃ s, ResamplerSession [] [] s ∧ s.status.fault = true :=
  ⟨_, .other (c := ⟨0x0000000B, .none⟩) (.start (rated 3 1 1) rfl (by decide) (by decide) rfl rfl) rfl
    (.inl ⟨.illegalCommand, rfl⟩), rfl⟩

end Sys2Proof.Tests
end

/-! The arithmetic of 00_scope.md R11 to R14 over the reals. `isRnd32_packMag_roundMag` says once that a magnitude
rounded in units of 2^-149 is `rnd32` of the real it stands for; `rnd32`, `fadd`, `fsub` and `fmul` are uses of it. -/

namespace Sys2Proof.Proofs

open Sys2Proof Sys2Proof.Machine

/-! ### Values as a sign and units -/

/-- The real 1 or -1 a sign bit stands for. -/
noncomputable def sgn (neg : Bool) : ℝ := if neg then -1 else 1

@[simp] theorem sgn_true : sgn true = -1 := rfl
@[simp] theorem sgn_false : sgn false = 1 := rfl

theorem sgn_mul_self (neg : Bool) : sgn neg * sgn neg = 1 := by cases neg <;> norm_num

theorem abs_sgn (neg : Bool) : |sgn neg| = 1 := by cases neg <;> norm_num

theorem sgn_xor (p q : Bool) : sgn (p ^^ q) = sgn p * sgn q := by cases p <;> cases q <;> norm_num

theorem sgn_mul_neg_iff (neg : Bool) {q : ℝ} (hq : 0 < q) : sgn neg * q < 0 ↔ neg = true := by
  cases neg
  · simpa using hq.le
  · simpa using hq

/-- Two numbers differ by as much with the sign moved from one to the other. -/
theorem abs_sub_sgn_mul (neg : Bool) (x q : ℝ) : |x - sgn neg * q| = |sgn neg * x - q| := by
  rw [← one_mul |x - _|, ← abs_sgn neg, ← abs_mul, mul_sub, ← mul_assoc, sgn_mul_self, one_mul]

@[simp] theorem unitsOf_zero : unitsOf 0 = 0 := by decide

@[simp] theorem unitsOf_eq_zero {m : Nat} : unitsOf m = 0 ↔ m = 0 :=
  ⟨fun h => unitsOf_strictMono.injective (h.trans unitsOf_zero.symm), fun h => h ▸ unitsOf_zero⟩

theorem realValue_eq_sgn_mul (x : F32) : realValue x = sgn (signBit x) * ((unitsOf (magBits x) : ℝ) / 2 ^ 149) := by
  unfold realValue signedUnits
  rw [magUnits_eq]
  cases signBit x <;> simp [neg_div]

theorem realValue_packMag (neg : Bool) {m : Nat} (hm : m < 2 ^ 31) :
    realValue (packMag neg m) = sgn neg * ((unitsOf m : ℝ) / 2 ^ 149) := by
  rw [realValue_eq_sgn_mul, signBit_packMag neg hm, magBits_packMag neg hm]

theorem realValue_of_signedUnits {x : F32} {n : Int} (h : signedUnits x = n) : realValue x = (n : ℝ) / 2 ^ 149 := by
  rw [realValue, h]

/-! ### Classes of patterns -/

theorem infMag_lt : infMag < 2 ^ 31 := by decide

theorem isFinite_iff {x : F32} : isFinite x = true ↔ magBits x < infMag := decide_eq_true_iff
theorem isInf_iff {x : F32} : isInf x = true ↔ magBits x = infMag := decide_eq_true_iff

theorem isNaN_of_isFinite {x : F32} (h : isFinite x = true) : isNaN x = false :=
  decide_eq_false (isFinite_iff.1 h).not_gt

theorem isNaN_of_isInf {x : F32} (h : isInf x = true) : isNaN x = false :=
  decide_eq_false (isInf_iff.1 h).not_gt

theorem isInf_of_isFinite {x : F32} (h : isFinite x = true) : isInf x = false :=
  decide_eq_false (isFinite_iff.1 h).ne

theorem isInf_packMag_infMag (neg : Bool) : isInf (packMag neg infMag) = true :=
  isInf_iff.2 (magBits_packMag neg infMag_lt)

theorem getLsbD_zero_packMag (neg : Bool) {m : Nat} (hm : m < 2 ^ 31) :
    (packMag neg m).getLsbD 0 = decide (m % 2 = 1) := by
  rw [BitVec.getLsbD, Nat.testBit_zero, packMag_toNat neg hm]
  cases neg <;> simp [Nat.add_mod]

/-! ### One rounding of a magnitude -/

theorem roundMag_lt (num den : Nat) : roundMag num den < 2 ^ 31 :=
  (min_le_right _ _).trans_lt infMag_lt

/-- `rawMag_nearest` divides by `den` units of 2^-149 to speak of reals. -/
theorem abs_units_sub_quot (m num : Nat) {den : Nat} (hden : 0 < den) :
    |(m : ℝ) / 2 ^ 149 - num / den / 2 ^ 149| = ((|(m : Int) * den - num| : Int) : ℝ) / (den * 2 ^ 149) := by
  have hd : (0 : ℝ) < den := by exact_mod_cast hden
  have h : (m : ℝ) / 2 ^ 149 - num / den / 2 ^ 149 = ((m : ℝ) * den - num) / (den * 2 ^ 149) := by field_simp
  rw [h, abs_div, abs_of_pos (show (0 : ℝ) < den * 2 ^ 149 by positivity)]
  push_cast
  rfl

/-- Before the cut: no non-negative value is nearer to the quotient than the raw pattern's, and at a tie the raw
pattern is even. -/
theorem rawMag_nearest_real (num : Nat) {den : Nat} (hden : 0 < den) (m : Nat) :
    |(unitsOf (rawMag num den) : ℝ) / 2 ^ 149 - num / den / 2 ^ 149| ≤
      |(unitsOf m : ℝ) / 2 ^ 149 - num / den / 2 ^ 149| ∧
    (|(unitsOf (rawMag num den) : ℝ) / 2 ^ 149 - num / den / 2 ^ 149| =
        |(unitsOf m : ℝ) / 2 ^ 149 - num / den / 2 ^ 149| →
      unitsOf m = unitsOf (rawMag num den) ∨ rawMag num den % 2 = 0) := by
  have hpos : (0 : ℝ) < den * 2 ^ 149 := by positivity
  obtain ⟨hle, htie⟩ := rawMag_nearest num hden m
  rw [abs_units_sub_quot _ _ hden, abs_units_sub_quot _ _ hden]
  refine ⟨div_le_div_of_nonneg_right (by exact_mod_cast hle) hpos.le, fun h => htie ?_⟩
  exact_mod_cast (div_left_inj' hpos.ne').1 h

/-- A value of the other sign than `q` is farther from `q` than the value of its magnitude, unless both are 0. -/
theorem abs_sub_lt_of_neg {u q : ℝ} (hu : 0 < u) (hq : 0 < q) : |u - q| < |-u - q| := by
  rw [abs_of_neg (show -u - q < 0 by linarith), abs_lt]
  constructor <;> linarith

/-- The nearest magnitude, given the sign of the quotient, is the nearest of all values of either sign. -/
theorem packMag_rawMag_nearest (neg : Bool) {num den : Nat} (hnum : num ≠ 0) (hden : 0 < den)
    (hraw : rawMag num den < infMag) (y : F32) :
    |realValue (packMag neg (rawMag num den)) - sgn neg * (num / den / 2 ^ 149)| ≤
      |realValue y - sgn neg * (num / den / 2 ^ 149)| ∧
    (|realValue (packMag neg (rawMag num den)) - sgn neg * (num / den / 2 ^ 149)| =
        |realValue y - sgn neg * (num / den / 2 ^ 149)| →
      realValue y = realValue (packMag neg (rawMag num den)) ∨
        (packMag neg (rawMag num den)).getLsbD 0 = false) := by
  have hlt := hraw.trans infMag_lt
  have hq : (0 : ℝ) < num / den / 2 ^ 149 := by positivity
  obtain ⟨hle, htie⟩ := rawMag_nearest_real num hden (magBits y)
  rw [abs_sub_sgn_mul, abs_sub_sgn_mul, realValue_packMag neg hlt, getLsbD_zero_packMag neg hlt, ← mul_assoc,
    sgn_mul_self, one_mul, realValue_eq_sgn_mul y]
  generalize hu : unitsOf (magBits y) = u at *
  by_cases hs : signBit y = neg ∨ u = 0
  · have hy : sgn (signBit y) * ((u : ℝ) / 2 ^ 149) = sgn neg * (u / 2 ^ 149) := by
      rcases hs with hs | hs <;> simp [hs]
    rw [hy, ← mul_assoc, sgn_mul_self, one_mul]
    refine ⟨hle, fun h => (htie h).imp (fun h => by rw [h]) (fun h => by simp [h])⟩
  · obtain ⟨hs, hu0⟩ := not_or.1 hs
    have hy : sgn neg * (sgn (signBit y) * ((u : ℝ) / 2 ^ 149)) = -(u / 2 ^ 149) := by
      revert hs; cases signBit y <;> cases neg <;> simp
    have hfar := hle.trans_lt (abs_sub_lt_of_neg (show (0 : ℝ) < u / 2 ^ 149 by positivity) hq)
    rw [hy]
    exact ⟨hfar.le, fun h => absurd h hfar.ne⟩

/-- The cut in reals: 2^128 - 2^103. -/
theorem cut_le_iff (num : Nat) {den : Nat} (hden : 0 < den) :
    (2 : ℝ) ^ 128 - 2 ^ 103 ≤ num / den / 2 ^ 149 ↔ infMag ≤ rawMag num den := by
  have hd : (0 : ℝ) < den := by exact_mod_cast hden
  rw [infMag_le_rawMag num hden, div_div, le_div_iff₀ (by positivity), ← Nat.cast_le (α := ℝ)]
  have h : ((2 : ℝ) ^ 128 - 2 ^ 103) * (den * 2 ^ 149) = (((2 ^ 25 - 1) * 2 ^ 252 * den : Nat) : ℝ) := by
    push_cast; ring
  rw [h]

/-- 00_scope.md R12: the rounded magnitude of `num / den` units of 2^-149, with its sign, is `rnd32` of the real. -/
theorem isRnd32_packMag_roundMag (neg : Bool) {num den : Nat} (hnum : num ≠ 0) (hden : 0 < den) :
    IsRnd32 (sgn neg * (num / den / 2 ^ 149)) (packMag neg (roundMag num den)) := by
  have hq : (0 : ℝ) < num / den / 2 ^ 149 := by positivity
  have hr : sgn neg * ((num : ℝ) / den / 2 ^ 149) ≠ 0 := by
    rw [← abs_ne_zero, abs_mul, abs_sgn, one_mul]; exact abs_ne_zero.2 hq.ne'
  refine ⟨fun h => absurd h hr, fun _ => ?_, ?_⟩
  · rw [signBit_packMag neg (roundMag_lt num den), sgn_mul_neg_iff neg hq]
  · rw [abs_mul, abs_sgn, one_mul, abs_of_pos hq, ← not_le, cut_le_iff num hden, not_le]
    refine ⟨fun h => ?_, fun h => ?_⟩
    · rw [roundMag_eq, min_eq_right h]
      exact isInf_packMag_infMag neg
    · rw [roundMag_eq, min_eq_left h.le, isFinite_iff, magBits_packMag neg (h.trans infMag_lt)]
      exact ⟨h, fun y _ => packMag_rawMag_nearest neg hnum hden h y⟩

theorem realValue_posZero : realValue 0 = 0 := by
  rw [realValue_of_signedUnits (n := 0) (by decide), Int.cast_zero, zero_div]

theorem isRnd32_zero : IsRnd32 0 0 := by
  have hcut : ¬ (2 : ℝ) ^ 128 - 2 ^ 103 ≤ |0| := by norm_num
  refine ⟨fun _ => rfl, fun h => absurd rfl h, fun h => absurd h hcut, fun _ => ⟨by decide, fun y _ => ?_⟩⟩
  rw [realValue_posZero, sub_zero, abs_zero]
  exact ⟨abs_nonneg _, fun _ => .inr (by decide)⟩

/-- A whole number of units of 1 is `2 ^ 149` of the smallest. -/
theorem cast_mul_units_div (n : Nat) : ((n * 2 ^ 149 : Nat) : ℝ) / 2 ^ 149 = n := by
  rw [Nat.cast_mul, Nat.cast_pow, Nat.cast_ofNat, mul_div_cancel_right₀ _ (by positivity)]

/-- Settles O53: 0 is `+0`, and another rational is its magnitude in units of 2^-149, rounded once. -/
theorem roundingIsNearestEven : Obligations.RoundingIsNearestEven := by
  intro neg num den hden
  change IsRnd32 (sgn neg * (num / den)) _
  unfold rnd32
  split
  case isTrue hnum =>
    rw [hnum, Nat.cast_zero, zero_div, mul_zero]
    exact isRnd32_zero
  case isFalse hnum =>
    have h := isRnd32_packMag_roundMag neg (num := num * 2 ^ 149) (Nat.mul_ne_zero hnum (by positivity)) hden
    rwa [div_right_comm, cast_mul_units_div] at h

/-! ### Addition and subtraction -/

section Addition

variable {d : Nat} {a b : F32}

theorem fadd_nan (h : isNaN a = true ∨ isNaN b = true) : fadd d a b = drawNaN d := by
  rw [fadd, if_pos h]

theorem fadd_finite (ha : isFinite a = true) (hb : isFinite b = true) :
    fadd d a b =
      if signedUnits a + signedUnits b = 0 then packMag (signBit a && signBit b) 0
      else packMag (decide (signedUnits a + signedUnits b < 0))
        (roundMag (signedUnits a + signedUnits b).natAbs 1) := by
  simp [fadd, isNaN_of_isFinite ha, isNaN_of_isFinite hb, isInf_of_isFinite ha, isInf_of_isFinite hb]

theorem fadd_inf_finite (ha : isInf a = true) (hb : isFinite b = true) : fadd d a b = a := by
  simp [fadd, isNaN_of_isInf ha, isNaN_of_isFinite hb, ha, isInf_of_isFinite hb]

theorem fadd_finite_inf (ha : isFinite a = true) (hb : isInf b = true) : fadd d a b = b := by
  simp [fadd, isNaN_of_isFinite ha, isNaN_of_isInf hb, isInf_of_isFinite ha, hb]

theorem fadd_inf_inf (ha : isInf a = true) (hb : isInf b = true) :
    fadd d a b = if signBit a = signBit b then a else drawNaN d := by
  simp [fadd, isNaN_of_isInf ha, isNaN_of_isInf hb, ha, hb]

theorem realValue_add (a b : F32) :
    realValue a + realValue b = ((signedUnits a + signedUnits b : Int) : ℝ) / 2 ^ 149 := by
  rw [realValue, realValue, Int.cast_add, add_div]

theorem realValue_add_eq_zero_iff : realValue a + realValue b = 0 ↔ signedUnits a + signedUnits b = 0 := by
  rw [realValue_add, div_eq_zero_iff, Int.cast_eq_zero]
  simp

/-- A whole number of units other than 0, rounded by its sign and its magnitude. -/
theorem isRnd32_int {n : Int} (hn : n ≠ 0) :
    IsRnd32 ((n : ℝ) / 2 ^ 149) (packMag (decide (n < 0)) (roundMag n.natAbs 1)) := by
  have h := isRnd32_packMag_roundMag (decide (n < 0)) (Int.natAbs_ne_zero.2 hn) one_pos
  have habs : sgn (decide (n < 0)) * (n.natAbs : ℝ) = n := by
    rw [Nat.cast_natAbs]
    by_cases hneg : n < 0
    · simp [hneg, abs_of_neg hneg]
    · simp [hneg, abs_of_nonneg (not_lt.1 hneg)]
  rwa [Nat.cast_one, div_one, ← mul_div_assoc, habs] at h

theorem fadd_rounds (ha : isFinite a = true) (hb : isFinite b = true) (h : realValue a + realValue b ≠ 0) :
    IsRnd32 (realValue a + realValue b) (fadd d a b) := by
  have hn : signedUnits a + signedUnits b ≠ 0 := mt realValue_add_eq_zero_iff.2 h
  rw [fadd_finite ha hb, if_neg hn, realValue_add]
  exact isRnd32_int hn

theorem eq_negZero_iff (x : F32) : x = 0x80000000 ↔ signBit x = true ∧ magBits x = 0 :=
  ⟨fun h => h ▸ by decide, fun h => eq_of_sign_mag (h.1.trans (by decide)) (h.2.trans (by decide))⟩

/-- Two values with the sign bit set cancel only where both are `-0`. -/
theorem both_negative_iff_of_cancel (h : signedUnits a + signedUnits b = 0) :
    (signBit a = true ∧ signBit b = true) ↔ (a = 0x80000000 ∧ b = 0x80000000) := by
  rw [eq_negZero_iff, eq_negZero_iff]
  refine ⟨fun ⟨ha, hb⟩ => ?_, fun h => ⟨h.1.1, h.2.1⟩⟩
  simp only [signedUnits, ha, hb, if_true, magUnits_eq] at h
  exact ⟨⟨ha, unitsOf_eq_zero.1 (by omega)⟩, ⟨hb, unitsOf_eq_zero.1 (by omega)⟩⟩

theorem fadd_cancels (ha : isFinite a = true) (hb : isFinite b = true) (h : realValue a + realValue b = 0) :
    fadd d a b = if a = 0x80000000 ∧ b = 0x80000000 then 0x80000000 else 0 := by
  have hn := realValue_add_eq_zero_iff.1 h
  rw [fadd_finite ha hb, if_pos hn]
  simp only [← both_negative_iff_of_cancel hn]
  cases signBit a <;> cases signBit b <;> decide

theorem isFinite_fneg (x : F32) : isFinite (fneg x) = isFinite x := by rw [isFinite, magBits_fneg, isFinite]
theorem isInf_fneg (x : F32) : isInf (fneg x) = isInf x := by rw [isInf, magBits_fneg, isInf]
theorem isNaN_fneg (x : F32) : isNaN (fneg x) = isNaN x := by rw [isNaN, magBits_fneg, isNaN]

theorem realValue_fneg (x : F32) : realValue (fneg x) = -realValue x := by
  rw [realValue_eq_sgn_mul, realValue_eq_sgn_mul, signBit_fneg, magBits_fneg]
  cases signBit x <;> simp

theorem fneg_eq_negZero_iff (x : F32) : fneg x = 0x80000000 ↔ x = 0 := by
  rw [eq_negZero_iff, signBit_fneg, magBits_fneg]
  exact ⟨fun h => eq_of_sign_mag (((Bool.not_eq_true' _).mp h.1).trans (by decide)) h.2, fun h => h ▸ by decide⟩

end Addition

/-- Settles O54: the sums by the operands' classes; a difference is the sum with the second operand negated. -/
theorem additionRoundsTheExactSum : Obligations.AdditionRoundsTheExactSum := by
  intro d a b
  have hnan := isNaN_drawNaN d
  refine ⟨fadd_rounds, fun ha hb h => ?_, fadd_cancels, fun ha hb h => ?_,
    fun ha hb => ⟨fadd_inf_finite ha hb, fadd_finite_inf hb ha⟩, fun ha hb h => ?_, fun ha hb h => ?_, fun h => ?_,
    fun ha hb => ⟨?_, ?_⟩, fun ha hb h => ?_, fun ha hb h => ?_, fun h => ?_⟩
  · rw [sub_eq_add_neg, ← realValue_fneg] at h ⊢
    exact fadd_rounds ha ((isFinite_fneg b).trans hb) h
  · rw [sub_eq_add_neg, ← realValue_fneg] at h
    simp only [fsub, fadd_cancels ha ((isFinite_fneg b).trans hb) h, fneg_eq_negZero_iff]
  · rw [fadd_inf_inf ha hb, if_pos h]
  · rw [fadd_inf_inf ha hb, if_neg h]
    exact ⟨rfl, hnan⟩
  · rw [fadd_nan h]
    exact ⟨rfl, hnan⟩
  · exact fadd_inf_finite ha ((isFinite_fneg b).trans hb)
  · exact fadd_finite_inf hb ((isInf_fneg a).trans ha)
  · rw [fsub, fadd_inf_inf ha ((isInf_fneg b).trans hb), signBit_fneg, if_pos (Bool.eq_not.2 h)]
  · rw [fsub, fadd_inf_inf ha ((isInf_fneg b).trans hb), signBit_fneg, if_neg (by simp [h])]
    exact ⟨rfl, hnan⟩
  · rw [fsub, fadd_nan (by rwa [isNaN_fneg])]
    exact ⟨rfl, hnan⟩

/-! ### Multiplication -/

section Multiplication

variable {d : Nat} {a b : F32}

theorem fmul_comm (d : Nat) (a b : F32) : fmul d a b = fmul d b a := by
  have hinf : ∀ {x : F32}, isInf x = true → magBits x ≠ 0 := fun h => by rw [isInf_iff.1 h]; decide
  simp only [fmul, Bool.xor_comm (signBit a), Nat.mul_comm (magUnits a), or_comm (a := isNaN a = true)]
  by_cases ha : isInf a = true <;> by_cases hb : isInf b = true
  · simp [ha, hb, hinf ha, hinf hb]
  · simp [ha, hb]
  · simp [ha, hb]
  · simp [ha, hb]

theorem fmul_nan (h : isNaN a = true ∨ isNaN b = true) : fmul d a b = drawNaN d := by
  rw [fmul, if_pos h]

theorem fmul_finite (ha : isFinite a = true) (hb : isFinite b = true) :
    fmul d a b = packMag (signBit a ^^ signBit b) (roundMag (unitsOf (magBits a) * unitsOf (magBits b)) (2 ^ 149)) := by
  simp [fmul, isNaN_of_isFinite ha, isNaN_of_isFinite hb, isInf_of_isFinite ha, isInf_of_isFinite hb, magUnits_eq]

theorem fmul_inf (ha : isInf a = true) (hb : isNaN b = false) :
    fmul d a b = if magBits b = 0 then drawNaN d else packMag (signBit a ^^ signBit b) infMag := by
  simp [fmul, isNaN_of_isInf ha, ha, hb]

theorem realValue_mul (a b : F32) :
    realValue a * realValue b = sgn (signBit a ^^ signBit b) *
      (((unitsOf (magBits a) * unitsOf (magBits b) : Nat) : ℝ) / (2 ^ 149 : Nat) / 2 ^ 149) := by
  rw [realValue_eq_sgn_mul, realValue_eq_sgn_mul, sgn_xor]
  push_cast
  ring

theorem realValue_mul_eq_zero_iff :
    realValue a * realValue b = 0 ↔ unitsOf (magBits a) * unitsOf (magBits b) = 0 := by
  have hs : ∀ neg, sgn neg ≠ 0 := fun neg => abs_pos.1 (by rw [abs_sgn]; exact one_pos)
  rw [realValue_mul]
  simp [hs]

theorem fmul_rounds (ha : isFinite a = true) (hb : isFinite b = true) (h : realValue a * realValue b ≠ 0) :
    IsRnd32 (realValue a * realValue b) (fmul d a b) := by
  rw [fmul_finite ha hb, realValue_mul]
  exact isRnd32_packMag_roundMag _ (mt realValue_mul_eq_zero_iff.2 h) (by positivity)

theorem fmul_zero (ha : isFinite a = true) (hb : isFinite b = true) (h : realValue a * realValue b = 0) :
    fmul d a b = if signBit a = signBit b then 0 else 0x80000000 := by
  have hround : roundMag 0 (2 ^ 149) = 0 := by decide
  rw [fmul_finite ha hb, realValue_mul_eq_zero_iff.1 h, hround]
  cases signBit a <;> cases signBit b <;> decide

end Multiplication

/-- Settles O55: the products by the operands' classes; the clauses with the operands exchanged by commutativity. -/
theorem multiplicationRoundsTheExactProduct : Obligations.MultiplicationRoundsTheExactProduct := by
  intro d a b
  have hnan := isNaN_drawNaN d
  refine ⟨fmul_rounds, fmul_zero, fun ha hb h => ?_, fun ha h => ?_, fun h => ?_⟩
  · rw [fmul_comm d b a, fmul_inf ha hb, if_neg h]
    have hi := isInf_packMag_infMag (signBit a ^^ signBit b)
    have hs := signBit_packMag (signBit a ^^ signBit b) infMag_lt
    exact ⟨hi, hi, hs, hs⟩
  · have hb : isNaN b = false := by simp [isNaN, h]
    rw [fmul_comm d b a, fmul_inf ha hb, if_pos h]
    exact ⟨hnan, hnan⟩
  · rw [fmul_nan h]
    exact ⟨rfl, hnan⟩

/-! ### Comparison and magnitude -/

section Comparison

variable {a b : F32}

theorem flt_nan (h : isNaN a = true ∨ isNaN b = true) : flt a b = false := by
  rcases h with h | h <;> simp [flt, h]

theorem flt_of_not_nan (ha : isNaN a = false) (hb : isNaN b = false) :
    flt a b = decide (orderKey a < orderKey b) := by
  simp [flt, ha, hb]

/-- The order key orders patterns as their units do: `unitsOf` is strictly increasing and keeps 0. -/
theorem signedUnits_lt_iff : signedUnits a < signedUnits b ↔ orderKey a < orderKey b := by
  have hlt : ∀ m n, unitsOf m < unitsOf n ↔ m < n := fun _ _ => unitsOf_strictMono.lt_iff_lt
  have hab := hlt (magBits a) (magBits b)
  have hba := hlt (magBits b) (magBits a)
  have ha : unitsOf (magBits a) = 0 ↔ magBits a = 0 := unitsOf_eq_zero
  have hb : unitsOf (magBits b) = 0 ↔ magBits b = 0 := unitsOf_eq_zero
  simp only [signedUnits, orderKey, magUnits_eq]
  cases signBit a <;> cases signBit b <;> simp only [if_true, Bool.false_eq_true, if_false] <;> omega

theorem realValue_lt_iff : realValue a < realValue b ↔ orderKey a < orderKey b := by
  rw [realValue, realValue, div_lt_div_iff_of_pos_right (by positivity), Int.cast_lt, signedUnits_lt_iff]

theorem orderKey_inf (h : isInf a = true) : orderKey a = if signBit a then -(infMag : Int) else infMag := by
  rw [orderKey, isInf_iff.1 h]

theorem abs_orderKey_lt (h : isFinite a = true) : |orderKey a| < infMag := by
  have hm : |orderKey a| = magBits a := by unfold orderKey; split <;> simp
  rw [hm]
  exact_mod_cast isFinite_iff.1 h

theorem signBit_fabs (x : F32) : signBit (fabs x) = false := by
  have h : (0x7FFFFFFF#32).msb = false := by decide
  simp [signBit, fabs, h]

theorem magBits_fabs (x : F32) : magBits (fabs x) = magBits x := by
  have h : (fabs x).toNat = x.toNat % 2 ^ 31 := by
    rw [fabs, BitVec.toNat_and]; exact Nat.and_two_pow_sub_one_eq_mod x.toNat 31
  rw [magBits, h, Nat.mod_mod, magBits]

end Comparison

/-- Settles O56: where no operand is a NaN, `flt` compares the order keys. -/
theorem comparisonAndMagnitude : Obligations.ComparisonAndMagnitude := by
  refine ⟨fun a b ha hb => ?_, fun a b ha hb => ?_, fun a b ha hb => ?_, fun a b => flt_nan,
    fun a => ⟨signBit_fabs a, magBits_fabs a⟩⟩
  · rw [flt_of_not_nan (isNaN_of_isFinite ha) (isNaN_of_isFinite hb), decide_eq_true_iff, realValue_lt_iff]
  · obtain ⟨hlo, hhi⟩ := abs_lt.1 (abs_orderKey_lt ha)
    rw [flt_of_not_nan (isNaN_of_isFinite ha) (isNaN_of_isInf hb),
      flt_of_not_nan (isNaN_of_isInf hb) (isNaN_of_isFinite ha), orderKey_inf hb]
    cases signBit b
    · simp [hhi, hhi.le]
    · simp [hlo, hlo.le]
  · rw [flt_of_not_nan (isNaN_of_isInf ha) (isNaN_of_isInf hb), orderKey_inf ha, orderKey_inf hb]
    cases signBit a <;> cases signBit b <;> decide

/-! ### Conversion of whole numbers -/

/-- A quotient that is whole is not moved by rounding. -/
theorem roundEven_of_dvd {num den : Nat} (hden : 0 < den) (h : den ∣ num) : roundEven num den = num / den := by
  simp only [roundEven, Nat.mod_eq_zero_of_dvd h]
  exact if_neg (by omega)

/-- A whole number below 2^24, in units of 2^-149, is its own rounding: its binade's step divides it. -/
theorem unitsOf_rawMag_of_lt {n : Nat} (hn : n < 2 ^ 24) : unitsOf (rawMag (n * 2 ^ 149) 1) = n * 2 ^ 149 := by
  have hstep : stepOf (n * 2 ^ 149) 1 ≤ 149 := by
    obtain rfl | h0 := eq_or_ne n 0
    · decide
    · have hlog := (Nat.log2_lt (Nat.mul_ne_zero h0 (by positivity))).2 (show n * 2 ^ 149 < 2 ^ 173 by omega)
      rw [stepOf, Nat.div_one]
      omega
  have hd : 2 ^ stepOf (n * 2 ^ 149) 1 ∣ n * 2 ^ 149 := Dvd.dvd.mul_left (pow_dvd_pow 2 hstep) n
  rw [unitsOf_rawMag, one_mul, roundEven_of_dvd (by positivity) hd, Nat.div_mul_cancel hd]

/-- 00_scope.md R11: every integer below 2^24 is representable, and `rnd32` gives it. -/
theorem rnd32_nat_exact {n : Nat} (hn : n < 2 ^ 24) :
    isFinite (rnd32 false n 1) = true ∧ realValue (rnd32 false n 1) = n := by
  have hraw : rawMag (n * 2 ^ 149) 1 < infMag := by
    rw [← not_le, infMag_le_rawMag _ one_pos]; omega
  unfold rnd32
  split
  case isTrue h0 =>
    exact ⟨by decide, by rw [h0, realValue_posZero, Nat.cast_zero]⟩
  case isFalse =>
    rw [roundMag_eq, min_eq_left hraw.le, isFinite_iff, magBits_packMag false (hraw.trans infMag_lt),
      realValue_packMag false (hraw.trans infMag_lt), unitsOf_rawMag_of_lt hn,
      cast_mul_units_div, sgn_false, one_mul]
    exact ⟨hraw, rfl⟩

/-- Settles O57: a byte is below 2^24; the constants by their units of 2^-149. -/
theorem byteConversionIsExact : Obligations.ByteConversionIsExact := by
  refine ⟨fun b => rnd32_nat_exact (by omega), ?_, ?_, ?_⟩
  · rw [realValue_of_signedUnits (n := 2 ^ 149) (by decide)]; norm_num
  · rw [realValue_of_signedUnits (n := 255 * 2 ^ 148) (by decide)]; norm_num
  · rw [realValue_of_signedUnits (n := 2 ^ 148) (by decide)]; norm_num

end Sys2Proof.Proofs

/-! The state of the block, 10_state.md: what the end of a command can be, said once (`exec_ends`, `Completes`), and
from it the invariant of the registers, the commands that may write each register, and that a command sees nothing but
the registers and its payload. -/

namespace Sys2Proof.Proofs

open Sys2Proof Sys2Proof.Machine

/-! ### How a command ends -/

/-- `Completes s i u`: command `i` can complete from `s`, and `u` is `s` with the registers that `i` writes. -/
inductive Completes (s : State) : Instr → State → Prop where
  | encode (o : Byte) : Completes s (.encode o) s
  | iqdec : Completes s .iqdec s
  | fmdemod (x : List IQ) : Completes s .fmdemod (fmdemodBody x s).2
  | squelch : Completes s .squelch s
  | deemph (x : List F32) : Completes s .deemph (deemphBody x s).2
  | resample (x : List F32) (hin : s.fsIn ≠ 0) (hout : s.fsOut ≠ 0) : Completes s .resample (resampleBody x s).2
  | process (b : List Byte) (hin : s.fsIn ≠ 0) (hout : s.fsOut ≠ 0) : Completes s .process (processBody b s).2
  | rstate : Completes s .rstate s.resetStream
  | csrr (n : Byte) : Completes s (.csrr n) s
  | csrw (r : Csr) (v : Word) (hw : r.writable = true) : Completes s (.csrw r.number) (csrWrite s v r)

/-- The two ends of a command (20_memory.md R71, 60_exceptions.md R301): it completes, or it takes a fault. -/
theorem exec_ends (i : Instr) (s : State) :
    (∃ u p, Completes s i u ∧ exec i s = .next (u.respond (.ok p))) ∨ ∃ c, exec i s = .next (s.takeFault c) := by
  cases i with
  | encode o =>
    obtain ⟨p, -, h⟩ | ⟨-, h⟩ := execEncode_cases s o
    · exact .inl ⟨_, _, .encode o, h⟩
    · exact .inr ⟨_, h⟩
  | iqdec =>
    obtain ⟨b, -, -, -, h⟩ | ⟨b, -, -, -, h⟩ | ⟨-, h⟩ := execIqdec_cases s
    · exact .inl ⟨_, _, .iqdec, h⟩
    · exact .inr ⟨_, h⟩
    · exact .inr ⟨_, h⟩
  | fmdemod =>
    obtain ⟨x, -, -, h⟩ | ⟨-, h⟩ := execFmdemod_cases s
    · exact .inl ⟨_, _, .fmdemod x, h⟩
    · exact .inr ⟨_, h⟩
  | squelch =>
    obtain ⟨x, -, -, h⟩ | ⟨-, h⟩ := execSquelch_cases s
    · exact .inl ⟨_, _, .squelch, h⟩
    · exact .inr ⟨_, h⟩
  | deemph =>
    obtain ⟨x, -, -, -, h⟩ | ⟨-, -, -, h⟩ | ⟨-, h⟩ := execDeemph_cases s
    · exact .inl ⟨_, _, .deemph x, h⟩
    · exact .inr ⟨_, h⟩
    · exact .inr ⟨_, h⟩
  | resample =>
    obtain ⟨x, -, -, hin, hout, h⟩ | ⟨-, -, -, h⟩ | ⟨-, h⟩ := execResample_cases s
    · exact .inl ⟨_, _, .resample x hin hout, h⟩
    · exact .inr ⟨_, h⟩
    · exact .inr ⟨_, h⟩
  | process =>
    obtain ⟨b, -, -, hin, hout, -, h⟩ | ⟨b, -, -, -, -, -, h⟩ | ⟨-, -, -, h⟩ | ⟨-, h⟩ := execProcess_cases s
    · exact .inl ⟨_, _, .process b hin hout, h⟩
    · exact .inr ⟨_, h⟩
    · exact .inr ⟨_, h⟩
    · exact .inr ⟨_, h⟩
  | rstate =>
    obtain ⟨-, h⟩ | ⟨-, h⟩ := execRstate_cases s
    · exact .inl ⟨_, _, .rstate, h⟩
    · exact .inr ⟨_, h⟩
  | csrr n =>
    obtain ⟨r, -, -, h⟩ | ⟨r, -, -, h⟩ | ⟨-, h⟩ := execCsrr_cases s n
    · exact .inl ⟨_, _, .csrr n, h⟩
    · exact .inr ⟨_, h⟩
    · exact .inr ⟨_, h⟩
  | csrw n =>
    obtain ⟨r, v, hr, hw, -, h⟩ | ⟨r, -, -, -, h⟩ | ⟨-, h⟩ := execCsrw_cases s n
    · obtain rfl := (ofNumber_some hr).1
      exact .inl ⟨_, _, .csrw r v hw, h⟩
    · exact .inr ⟨_, h⟩
    · exact .inr ⟨_, h⟩

/-- The state after a command, by how the command ends. -/
theorem exec_next {i : Instr} {s t : State} (h : exec i s = .next t) :
    (∃ u p, Completes s i u ∧ t = u.respond (.ok p)) ∨ ∃ c, t = s.takeFault c := by
  obtain ⟨u, p, hu, hx⟩ | ⟨c, hx⟩ := exec_ends i s
  · exact .inl ⟨u, p, hu, Host.Outcome.next.inj (h.symm.trans hx)⟩
  · exact .inr ⟨c, Host.Outcome.next.inj (h.symm.trans hx)⟩

/-- No command writes MAX_LEN, nor the two ports before it answers. -/
theorem Completes.frame {s u : State} {i : Instr} (h : Completes s i u) :
    u.maxLen = s.maxLen ∧ u.hostIn = s.hostIn ∧ u.responses = s.responses := by
  cases h with
  | encode | iqdec | squelch | deemph | rstate | csrr => exact ⟨rfl, rfl, rfl⟩
  | fmdemod x => rw [fmdemodBody_state]; exact ⟨rfl, rfl, rfl⟩
  | resample x => rw [resampleBody_state]; exact ⟨rfl, rfl, rfl⟩
  | process b => rw [processBody_state]; exact ⟨rfl, rfl, rfl⟩
  | csrw r v => cases r <;> exact ⟨rfl, rfl, rfl⟩

/-! ### Configuration (10_state.md R32 to R37) -/

/-- Settles O44: only the case of CSRW writes a configuration register, the one of its number. -/
theorem onlyCsrwWritesConfiguration : Obligations.OnlyCsrwWritesConfiguration := by
  intro s t i h
  obtain ⟨u, p, hu, rfl⟩ | ⟨c, rfl⟩ := exec_next h
  · cases hu with
    | encode | iqdec | squelch | csrr => simp
    | fmdemod x => simp [fmdemodBody_state]
    | deemph x => simp [deemphBody_state]
    | resample x => rw [resampleBody_state]; simp
    | process b => rw [processBody_state]; simp
    | rstate => simp
    | csrw r v => cases r <;> simp [csrWrite, Csr.number]
  · simp

/-! ### Stream state (10_state.md R41 to R47) -/

section Stages

variable (s : State)

theorem fmdemodBody_lookback (x : List IQ) (h : s.dmCont = false) :
    (fmdemodBody x s).2.dmPrev = s.dmPrev ∧ (fmdemodBody x s).2.dmPrevv = s.dmPrevv := by
  simp [fmdemodBody_state, h]

theorem resampleBody_cursor (x : List F32) (h : s.rsCont = false) :
    (resampleBody x s).2.rsNum = s.rsNum ∧ (resampleBody x s).2.rsLb = s.rsLb ∧
      (resampleBody x s).2.rsLbv = s.rsLbv := by
  simp [resampleBody_local x s h]

/-- The demodulator lookback after PROCESS is the one FMDEMOD leaves. -/
theorem processBody_lookback (b : List Byte) (h : s.dmCont = false) :
    (processBody b s).2.dmPrev = s.dmPrev ∧ (processBody b s).2.dmPrevv = s.dmPrevv := by
  unfold processBody
  simp only
  rw [resampleBody_state, deemphBody_state]
  exact fmdemodBody_lookback s _ h

/-- The stages of PROCESS before RESAMPLE leave the resampler state and RS_CONT alone. -/
theorem processBody_cursor (b : List Byte) (h : s.rsCont = false) :
    (processBody b s).2.rsNum = s.rsNum ∧ (processBody b s).2.rsLb = s.rsLb ∧
      (processBody b s).2.rsLbv = s.rsLbv := by
  unfold processBody
  simp only
  rw [deemphBody_state, fmdemodBody_state]
  exact resampleBody_cursor _ _ h

end Stages

/-- Settles O43: by the command that completes; in the modes that are not continuous its body keeps the registers. -/
theorem onlyNamedCommandsWriteStreamState : Obligations.OnlyNamedCommandsWriteStreamState := by
  intro s t i h
  obtain ⟨u, p, hu, rfl⟩ | ⟨c, rfl⟩ := exec_next h
  · cases hu with
    | encode | iqdec | squelch | csrr => simp
    | fmdemod x =>
      refine ⟨by simp [fmdemodBody_state], by simp [fmdemodBody_state],
        fun hne => .inl ⟨by simp, Bool.of_not_eq_false fun hc => ?_⟩⟩
      obtain ⟨hprev, hprevv⟩ := fmdemodBody_lookback s x hc
      simp [hprev, hprevv] at hne
    | deemph x => simp [deemphBody_state]
    | resample x =>
      refine ⟨?_, fun hne => .inl ⟨by simp, Bool.of_not_eq_false fun hc => ?_⟩, ?_⟩
      · rw [resampleBody_state]; simp
      · obtain ⟨hnum, hlb, hlbv⟩ := resampleBody_cursor s x hc
        simp [hnum, hlb, hlbv] at hne
      · rw [resampleBody_state]; simp
    | process b =>
      refine ⟨by simp, fun hne => .inl ⟨by simp, Bool.of_not_eq_false fun hc => ?_⟩,
        fun hne => .inl ⟨by simp, Bool.of_not_eq_false fun hc => ?_⟩⟩
      · obtain ⟨hnum, hlb, hlbv⟩ := processBody_cursor s b hc
        simp [hnum, hlb, hlbv] at hne
      · obtain ⟨hprev, hprevv⟩ := processBody_lookback s b hc
        simp [hprev, hprevv] at hne
    | rstate => simp
    | csrw r v => cases r <;> simp [csrWrite, Csr.number]
  · simp

/-! ### The invariant -/

section Invariant

variable {s : State}

theorem inv_respond (h : s.Inv) (r : Response) : (s.respond r).Inv := { h with }

theorem inv_drew (h : s.Inv) (k : Nat) : (s.drew k).Inv := { h with }

/-- The five codes of 60_exceptions.md R300. -/
theorem code_bounds (c : FaultCode) : 1 ≤ c.code.toNat ∧ c.code.toNat ≤ 5 := by cases c <;> decide

/-- A first fault latches one of the five codes, a later one keeps the code latched. -/
theorem inv_takeFault (h : s.Inv) (c : FaultCode) : (s.takeFault c).Inv := by
  refine { h with noFault := by simp, faultCode := fun _ => ?_ }
  cases hf : s.status.fault with
  | false => rw [State.takeFault_status, Status.onFault_first c hf]; exact code_bounds c
  | true => rw [State.takeFault_status, Status.onFault_later c hf]; exact h.faultCode hf

theorem inv_takeReset (s : State) : s.takeReset.Inv := by
  constructor <;> simp [Status.clear]

theorem inv_resetResampler (h : s.Inv) : s.resetResampler.Inv :=
  { h with rsValid := nofun, rsInvalid := fun _ => ⟨rfl, rfl⟩ }

theorem inv_resetStream (h : s.Inv) : s.resetStream.Inv :=
  { inv_resetResampler h with dmValid := nofun, dmInvalid := fun _ => rfl }

/-! The stages. -/

/-- FMDEMOD makes the lookback valid only with DM_CONT = 1, and writes it only as it makes it valid. -/
theorem inv_fmdemodBody (h : s.Inv) (x : List IQ) : (fmdemodBody x s).2.Inv := by
  rw [fmdemodBody_state]
  refine { h with dmValid := fun hv => ?_, dmInvalid := fun hv => ?_ }
  · obtain hv | hv := Bool.or_eq_true_iff.1 hv
    · exact h.dmValid hv
    · exact (Bool.and_eq_true_iff.1 hv).1
  · obtain ⟨hold, hnew⟩ := Bool.or_eq_false_iff.1 hv
    have hprev := h.dmInvalid hold
    cases hc : s.dmCont with
    | false => simpa using hprev
    | true =>
      obtain rfl : x = [] := by simpa [hc] using hnew
      simpa using hprev

theorem inv_deemphBody (h : s.Inv) (x : List F32) : (deemphBody x s).2.Inv := { h with }

/-- 45_resampler.md R244 (a): the cursor a run over `n` samples leaves is below FS_IN where it began below it. -/
theorem cursor_lt {fi c : Nat} (fo n : Nat) (hfi : 0 < fi) (hc : c < fi) :
    c + loopTurns fi fo n c * fi - (n - 1) * fo < fi := by
  have h := loopTurns_bound fi fo n c hfi
  rwa [max_eq_left hc] at h

/-- Without a valid lookback the cursor is at its reset value. -/
theorem rsNum_lt_fsIn (h : s.Inv) (hin : s.fsIn ≠ 0) : s.rsNum.toNat < s.fsIn.toNat := by
  cases hv : s.rsLbv with
  | true =>
    obtain ⟨-, -, -, hlt⟩ := h.rsValid hv
    exact hlt
  | false => rw [(h.rsInvalid hv).1]; exact BitVec.toNat_pos_of_ne_zero hin

theorem inv_resampleCont (h : s.Inv) (hc : s.rsCont = true) (hin : s.fsIn ≠ 0) (hout : s.fsOut ≠ 0)
    (x : List F32) : (resampleCont x s).2.Inv := by
  have hfi := BitVec.toNat_pos_of_ne_zero hin
  have hfo := BitVec.toNat_pos_of_ne_zero hout
  unfold resampleCont
  by_cases hw : s.resampleInput x = []
  · simpa [hw] using h
  · simp only [if_neg hw, resampleLoop_eq hfi hfo _ _ _ _ (loopTurns_le _ _ _ _ hfi)]
    refine inv_drew ?_ _
    refine { h with rsValid := fun _ => ⟨hc, hin, hout, ?_⟩, rsInvalid := nofun }
    have hlt := cursor_lt s.fsOut.toNat (s.resampleInput x).length hfi (rsNum_lt_fsIn h hin)
    rw [BitVec.toNat_ofNat, Nat.mod_eq_of_lt (hlt.trans s.fsIn.isLt)]
    exact hlt

theorem inv_resampleBody (h : s.Inv) (hin : s.fsIn ≠ 0) (hout : s.fsOut ≠ 0) (x : List F32) :
    (resampleBody x s).2.Inv := by
  unfold resampleBody
  split
  case isTrue hc => exact inv_resampleCont h hc hin hout x
  case isFalse => exact inv_drew h _

theorem inv_processBody (h : s.Inv) (hin : s.fsIn ≠ 0) (hout : s.fsOut ≠ 0) (b : List Byte) :
    (processBody b s).2.Inv := by
  refine inv_resampleBody (inv_deemphBody (inv_fmdemodBody h _) _) ?_ ?_ _
  · simpa [deemphBody_state, fmdemodBody_state] using hin
  · simpa [deemphBody_state, fmdemodBody_state] using hout

/-- 10_state.md R37, R38, R47: BUF_BYTES is written with bit 0 cleared, STATUS with 0, and a write of MODE, FS_IN or
FS_OUT invalidates the lookbacks that hang on it. -/
theorem inv_csrWrite (h : s.Inv) (v : Word) (r : Csr) : (csrWrite s v r).Inv := by
  cases r with
  | mode => exact { inv_resetStream h with rsValid := nofun, dmValid := nofun }
  | fsIn | fsOut => exact { inv_resetResampler h with rsValid := nofun }
  | sqThresh => exact { h with }
  | bufBytes => exact { h with bufEven := by rw [csrWrite, BitVec.getLsbD_append]; rfl }
  | status => exact { h with noFault := fun _ => ⟨rfl, rfl⟩, faultCode := nofun }
  | alpha | deY | rsNum | rsLb | dmPrevI | dmPrevQ | svalid => exact h

theorem Completes.inv {i : Instr} {u : State} (hu : Completes s i u) (h : s.Inv) : u.Inv := by
  cases hu with
  | encode | iqdec | squelch | csrr => exact h
  | fmdemod x => exact inv_fmdemodBody h x
  | deemph x => exact inv_deemphBody h x
  | resample x hin hout => exact inv_resampleBody h hin hout x
  | process b hin hout => exact inv_processBody h hin hout b
  | rstate => exact inv_resetStream h
  | csrw r v => exact inv_csrWrite h v r

theorem exec_inv {i : Instr} {t : State} (h : s.Inv) (hx : exec i s = .next t) : t.Inv := by
  obtain ⟨u, p, hu, rfl⟩ | ⟨c, rfl⟩ := exec_next hx
  · exact inv_respond (hu.inv h) _
  · exact inv_takeFault h c

end Invariant

/-- Settles O41: a command keeps the invariant whether it completes or faults, and the reset input establishes it. -/
theorem everyStepKeepsTheInvariant : Obligations.EveryStepKeepsTheInvariant := by
  intro s t h hs
  unfold step at hs
  split at hs
  next c rest _ =>
    split at hs
    · exact exec_inv h hs
    · exact Host.Outcome.next.inj hs ▸ inv_takeFault h _
  next => exact Host.Outcome.next.inj hs ▸ inv_takeReset s
  next => exact Host.Outcome.next.inj hs ▸ inv_takeReset s
  next => exact Host.Outcome.next.inj hs ▸ h

/-! ### No hidden state (10_state.md R48, 20_memory.md R80) -/

/-- The state with other things on the command port and other responses given. -/
def withPorts (h : List HostInput) (rs : List Response) (s : State) : State := { s with hostIn := h, responses := rs }

/-- The state with nothing but a command with payload `p` on the port and no response given. -/
def alone (p : Payload) (s : State) : State := withPorts [.command ⟨0, p⟩] [] s

section Ports

variable (s : State) (h : List HostInput) (rs : List Response)

@[simp] theorem csrValue_withPorts (r : Csr) : csrValue (withPorts h rs s) r = csrValue s r := by cases r <;> rfl

@[simp] theorem csrWrite_withPorts (v : Word) (r : Csr) :
    csrWrite (withPorts h rs s) v r = withPorts h rs (csrWrite s v r) := by cases r <;> rfl

@[simp] theorem fmdemodBody_withPorts (x : List IQ) :
    fmdemodBody x (withPorts h rs s) = ((fmdemodBody x s).1, withPorts h rs (fmdemodBody x s).2) :=
  Prod.ext rfl (by simp only [fmdemodBody_state]; rfl)

@[simp] theorem deemphBody_withPorts (x : List F32) :
    deemphBody x (withPorts h rs s) = ((deemphBody x s).1, withPorts h rs (deemphBody x s).2) := rfl

@[simp] theorem resampleBody_withPorts (x : List F32) :
    resampleBody x (withPorts h rs s) = ((resampleBody x s).1, withPorts h rs (resampleBody x s).2) := by
  have hc : (withPorts h rs s).rsCont = s.rsCont := rfl
  have hw : (withPorts h rs s).resampleInput x = s.resampleInput x := rfl
  unfold resampleBody resampleCont
  rw [hc, hw]
  split
  · by_cases hnil : s.resampleInput x = []
    · simp only [if_pos hnil]
    · simp only [if_neg hnil]; rfl
  · rfl

@[simp] theorem processBody_withPorts (b : List Byte) :
    processBody b (withPorts h rs s) = ((processBody b s).1, withPorts h rs (processBody b s).2) := by
  unfold processBody
  simp only [fmdemodBody_withPorts, deemphBody_withPorts, resampleBody_withPorts]
  rfl

end Ports

section Operands

/-! The operand is read from the payload and checked against MAX_LEN: what waits behind the command is not looked at. -/

variable (s : State) (p : Payload) (w : Word) (rest : List HostInput) (rs : List Response)

theorem wordOperand_alone :
    (withPorts (.command ⟨w, p⟩ :: rest) rs s).wordOperand = (alone p s).wordOperand := rfl
theorem bytesOperand_alone :
    (withPorts (.command ⟨w, p⟩ :: rest) rs s).bytesOperand = (alone p s).bytesOperand := rfl
theorem iqOperand_alone :
    (withPorts (.command ⟨w, p⟩ :: rest) rs s).iqOperand = (alone p s).iqOperand := rfl
theorem f32Operand_alone :
    (withPorts (.command ⟨w, p⟩ :: rest) rs s).f32Operand = (alone p s).f32Operand := rfl

end Operands

/-- The outcome of a command alone on the port, moved to one with `rest` behind it and `rs` answered before. -/
def relay (rest : List HostInput) (rs : List Response) : Result → Result
  | .next t    => .next (withPorts rest (rs ++ t.responses) t)
  | .fault r   => .fault r
  | .refused r => .refused r

section Relay

variable {rest : List HostInput} {rs : List Response}

/-- A check that does not read the ports. -/
theorem relay_ite {c c' : Prop} [Decidable c] [Decidable c'] {f g f' g' : Result} (hc : c ↔ c')
    (hf : f = relay rest rs f') (hg : g = relay rest rs g') :
    (if c then f else g) = relay rest rs (if c' then f' else g') := by
  by_cases h : c'
  · rw [if_pos (hc.2 h), if_pos h, hf]
  · rw [if_neg (mt hc.1 h), if_neg h, hg]

/-- A completion by a body that leaves the ports alone. -/
theorem relay_body {body : State → List F32 × State} {s : State} (c : HostInput) (p : Payload)
    (hbody : ∀ h rs, body (withPorts h rs s) = ((body s).1, withPorts h rs (body s).2)) :
    completed (.f32 (body (withPorts (c :: rest) rs s)).1) (body (withPorts (c :: rest) rs s)).2 =
      relay rest rs (completed (.f32 (body (alone p s)).1) (body (alone p s)).2) := by
  rw [alone, hbody, hbody]
  rfl

end Relay

/-- A command does the same whatever stands behind it on the port and was answered before it. -/
theorem exec_withPorts (i : Instr) (s : State) (p : Payload) (w : Word) (rest : List HostInput) (rs : List Response) :
    exec i (withPorts (.command ⟨w, p⟩ :: rest) rs s) = relay rest rs (exec i (alone p s)) := by
  cases i with
  | encode o =>
    simp only [exec, execEncode, wordOperand_alone]
    split <;> rfl
  | iqdec =>
    simp only [exec, execIqdec, bytesOperand_alone]
    split
    · rfl
    · exact relay_ite Iff.rfl rfl rfl
  | fmdemod =>
    simp only [exec, execFmdemod, iqOperand_alone]
    split
    · rfl
    · exact relay_body _ _ (fmdemodBody_withPorts s · · _)
  | squelch =>
    simp only [exec, execSquelch, f32Operand_alone]
    split <;> rfl
  | deemph =>
    simp only [exec, execDeemph, f32Operand_alone]
    split
    · rfl
    · exact relay_ite Iff.rfl rfl (relay_body _ _ (deemphBody_withPorts s · · _))
  | resample =>
    simp only [exec, execResample, f32Operand_alone]
    split
    · rfl
    · exact relay_ite Iff.rfl rfl (relay_body _ _ (resampleBody_withPorts s · · _))
  | process =>
    simp only [exec, execProcess, bytesOperand_alone]
    split
    · rfl
    · exact relay_ite Iff.rfl rfl (relay_ite Iff.rfl (relay_body _ _ (processBody_withPorts s · · _)) rfl)
  | rstate => exact relay_ite Iff.rfl rfl rfl
  | csrr n =>
    simp only [exec, execCsrr]
    split
    · rfl
    · refine relay_ite Iff.rfl ?_ rfl
      rw [alone, csrValue_withPorts, csrValue_withPorts]
      rfl
  | csrw n =>
    simp only [exec, execCsrw, wordOperand_alone]
    split
    · rfl
    · refine relay_ite Iff.rfl ?_ rfl
      split
      · rfl
      · rw [alone, csrWrite_withPorts, csrWrite_withPorts]
        rfl

/-- A command gives a next state with one more response. -/
theorem exec_answers (i : Instr) (s : State) : ∃ t r, exec i s = .next t ∧ t.responses = s.responses ++ [r] := by
  obtain ⟨u, p, hu, hx⟩ | ⟨c, hx⟩ := exec_ends i s
  · obtain ⟨-, -, hr⟩ := hu.frame
    exact ⟨_, .ok p, hx, by rw [State.respond_responses, hr]⟩
  · exact ⟨_, .fault c, hx, rfl⟩

/-- Settles O45: both runs are the one of the command alone, moved between its ports. -/
theorem commandsSeeOnlyTheRegisters : Obligations.CommandsSeeOnlyTheRegisters := by
  intro i s p w w' rest rest' rs rs'
  obtain ⟨t, r, hx, hr⟩ := exec_answers i (alone p s)
  have hmoved : ∀ w rest rs, exec i (withPorts (.command ⟨w, p⟩ :: rest) rs s) = .next (withPorts rest (rs ++ [r]) t) :=
    fun w rest rs => by rw [exec_withPorts, hx, relay, hr]; rfl
  exact ⟨withPorts rest (rs ++ [r]) t, withPorts rest' (rs' ++ [r]) t, r, hmoved w rest rs, hmoved w' rest' rs',
    rfl, rfl, rfl, rfl, rfl, rfl, rfl⟩

end Sys2Proof.Proofs

/-! The command port, 20_memory.md: what a step does with each thing the host sends, said once as an equation per case,
and from it the port's bookkeeping; and the commands that only answer. -/

namespace Sys2Proof.Proofs

open Sys2Proof Sys2Proof.Machine

/-! ### A step, by what the host sends (20_memory.md R71, R80) -/

section Step

variable {s : State} {c : Command} {rest : List HostInput}

theorem step_command_ok {i : Instr} (h : s.hostIn = .command c :: rest) (hd : decodeWord c.word = .ok i) :
    step s = exec i s := by simp [step, h, hd]

theorem step_command_illegal {e : IllegalWord} (h : s.hostIn = .command c :: rest) (hd : decodeWord c.word = .error e) :
    step s = .next (s.takeFault .illegalCommand) := by simp [step, h, hd]

theorem step_idle (h : s.hostIn = []) : step s = .next s := by simp [step, h]

theorem step_reset (h : s.hostIn = .reset :: rest) : step s = .next s.takeReset := by simp [step, h]

theorem step_resetDuring (h : s.hostIn = .resetDuring c :: rest) : step s = .next s.takeReset := by simp [step, h]

end Step

/-- Settles O4: the case of `step` for a legal word, and the payload beside that word. -/
theorem stepRunsTheDecodedCommand : Obligations.StepRunsTheDecodedCommand :=
  fun s c rest _ h hd => ⟨step_command_ok h hd, s.payload_command c rest h⟩

/-! ### One response per command (60_exceptions.md R315) -/

section Port

variable {s t : State}

/-- A command frees the port for the next one and answers once, whether it completes or faults. -/
theorem exec_port {i : Instr} (h : exec i s = .next t) :
    t.hostIn = s.hostIn.tail ∧ ∃ r, t.responses = s.responses ++ [r] := by
  obtain ⟨u, p, hu, rfl⟩ | ⟨c, rfl⟩ := exec_next h
  · obtain ⟨-, hport, hresp⟩ := hu.frame
    exact ⟨by rw [State.respond_hostIn, hport], .ok p, by rw [State.respond_responses, hresp]⟩
  · exact ⟨rfl, .fault c, rfl⟩

/-- The same for the word on the port, legal or not. -/
theorem step_command_port {c : Command} {rest : List HostInput} (h : s.hostIn = .command c :: rest)
    (hs : step s = .next t) : t.hostIn = rest ∧ ∃ r, t.responses = s.responses ++ [r] := by
  have htail : s.hostIn.tail = rest := by rw [h, List.tail_cons]
  rw [← htail]
  cases hd : decodeWord c.word with
  | ok i => exact exec_port ((step_command_ok h hd).symm.trans hs)
  | error e =>
    obtain rfl := Host.Outcome.next.inj ((step_command_illegal h hd).symm.trans hs)
    exact ⟨rfl, .fault .illegalCommand, rfl⟩

end Port

/-- Settles O36: by what the host sends; the two reset inputs leave the responses as they are. -/
theorem oneResponsePerCommand : Obligations.OneResponsePerCommand := by
  intro s t hs
  refine ⟨fun c rest h => step_command_port h hs, fun h => ?_, fun rest h => ?_, fun c rest h => ?_⟩
  · exact (Host.Outcome.next.inj ((step_idle h).symm.trans hs)).symm
  · obtain rfl := Host.Outcome.next.inj ((step_reset h).symm.trans hs)
    simp [h]
  · obtain rfl := Host.Outcome.next.inj ((step_resetDuring h).symm.trans hs)
    simp [h]

/-! ### The commands that only answer (20_memory.md R78) -/

/-- ENCODE, IQDEC, SQUELCH and CSRR complete with the registers they began with. -/
theorem Completes.eq_of_pure {s u : State} {i : Instr} {o n : Byte} (hi : i ∈ [.encode o, .iqdec, .squelch, .csrr n])
    (h : Completes s i u) : u = s := by
  cases h with
  | encode | iqdec | squelch | csrr => rfl
  | fmdemod | deemph | resample | process | rstate | csrw => simp at hi

/-- Settles O46: completing, such a command adds only its answer; the other way to end is a fault. -/
theorem pureCommandsChangeOnlyStatus : Obligations.PureCommandsChangeOnlyStatus := by
  intro i o n s t hi h
  obtain ⟨u, p, hu, rfl⟩ | ⟨c, rfl⟩ := exec_next h
  · obtain rfl := hu.eq_of_pure hi
    exact ⟨rfl, .inl rfl⟩
  · exact ⟨rfl, .inr ⟨c, rfl, rfl⟩⟩

end Sys2Proof.Proofs

/-! Command words, 30_encoding.md R100 to R112: what the decoder reads from a word put together from its fields, which
words it refuses, and the pseudo-commands, SESSION run command by command. -/

namespace Sys2Proof.Proofs

open Sys2Proof Sys2Proof.Machine

/-! ### The decoder and the encoder (R100 to R104) -/

/-- The operation map reads back the operation code and the A field of every command. -/
theorem decodeOp_op_arg (i : Instr) : decodeOp i.op i.arg = .ok i := by cases i <;> rfl

@[simp] theorem decodeWord_encode (i : Instr) : decodeWord (encode i) = .ok i := by
  obtain ⟨hres, hop, harg⟩ := wordShape i
  rw [decodeWord, if_pos hres, hop, harg, decodeOp_op_arg]

/-- A word that decodes is its own three fields, which are those of the command read from it. -/
theorem eq_encode_of_decodeWord {w : Word} {i : Instr} (h : decodeWord w = .ok i) : w = encode i := by
  obtain ⟨hres, hop, harg⟩ := decodeWord_ok h
  calc w = resField w ++ argField w ++ opField w := word_eq_fields w
    _ = encode i := by rw [hres, encode, hop, harg]; rfl

/-- Settles O1: the decoder keeps all three fields, and undoes the encoder. -/
theorem decodeReadsExactlyTheEncodedWords : Obligations.DecodeReadsExactlyTheEncodedWords :=
  fun _ i => ⟨eq_encode_of_decodeWord, fun h => h ▸ decodeWord_encode i⟩

/-- Settles O3: each word is the encoding of its command. -/
theorem spelledOutWordsDecode : Obligations.SpelledOutWordsDecode :=
  ⟨decodeWord_encode (.encode 0x01), decodeWord_encode (.encode 0xFF), decodeWord_encode .iqdec,
    decodeWord_encode .fmdemod, decodeWord_encode .squelch, decodeWord_encode .deemph, decodeWord_encode .resample,
    decodeWord_encode .process, decodeWord_encode .rstate, decodeWord_encode (.csrr 0x06),
    decodeWord_encode (.csrw 0x04)⟩

/-! ### Illegal words (R104) -/

theorem withoutArg_error_iff (a : Byte) (i : Instr) : (∃ e, withoutArg a i = .error e) ↔ a ≠ 0 := by
  unfold withoutArg
  split
  case isTrue h => simp [h]
  case isFalse h => simpa using h

/-- The operation map refuses the unassigned codes, and an argument where the command takes none. -/
theorem decodeOp_error_iff (op a : Byte) : (∃ e, decodeOp op a = .error e) ↔
    op = 0x00 ∨ 0x0B ≤ op.toNat ∨ (a ≠ 0 ∧ 0x02 ≤ op.toNat ∧ op.toNat ≤ 0x08) := by
  rw [BitVec.toNat_eq]
  unfold decodeOp
  split
  case h_1 hop | h_2 hop | h_10 hop | h_11 hop => simp [hop]
  case h_3 hop | h_4 hop | h_5 hop | h_6 hop | h_7 hop | h_8 hop | h_9 hop => simp [hop, withoutArg_error_iff]
  case h_12 =>
    have hop : 0x0B ≤ op.toNat := by simp only [imp_false] at *; omega
    simp [hop]

theorem decodeWord_error_iff (w : Word) :
    (∃ e, decodeWord w = .error e) ↔ resField w ≠ 0 ∨ ∃ e, decodeOp (opField w) (argField w) = .error e := by
  unfold decodeWord
  split
  case isTrue h => simp [h]
  case isFalse h => exact iff_of_true ⟨_, rfl⟩ (.inl h)

/-- Settles O2: a word is refused for its RES or by the operation map, and refused it takes the fault. -/
theorem illegalWordsAreThoseOfTheRule : Obligations.IllegalWordsAreThoseOfTheRule := by
  refine ⟨fun w => ?_, fun w i h => (decodeWord_ok h).2, fun s w p rest e h he => ?_⟩
  · rw [decodeWord_error_iff, decodeOp_error_iff]
    tauto
  · rw [step_command_illegal h he, State.takeFault_eq, h, List.tail_cons]

/-! ### Pseudo-commands (R112) -/

/-- The number of a command word: RES is 0. -/
theorem encode_toNat (i : Instr) : (encode i).toNat = i.arg.toNat * 2 ^ 8 + i.op.toNat :=
  calc (encode i).toNat
    _ = (0#16 ++ i.arg).toNat <<< 8 ||| i.op.toNat := BitVec.toNat_append _ _
    _ = i.arg.toNat <<< 8 + i.op.toNat := by
      rw [BitVec.toNat_append, Nat.shiftLeft_add_eq_or_of_lt i.op.isLt]
      simp
    _ = i.arg.toNat * 2 ^ 8 + i.op.toNat := by rw [Nat.shiftLeft_eq]

/-- The word of ENCODE, as R112 gives it. -/
theorem encode_encode (o : Byte) : encode (.encode o) = BitVec.ofNat 32 (o.toNat * 2 ^ 8 + 1) := by
  apply BitVec.eq_of_toNat_eq
  rw [encode_toNat, BitVec.toNat_ofNat, Instr.arg, Instr.op, Nat.mod_eq_of_lt (by omega)]
  rfl

/-- Settles O6: the six tuner rows are one ENCODE each; the words of the others hold no open parameter. -/
theorem pseudoCommandsExpandAsListed : Obligations.PseudoCommandsExpandAsListed := by
  refine fun v w => ⟨fun p o h => ?_, rfl, rfl, rfl⟩
  have hrow : p.expand = [assemble (.encode o) (.word v)] := by
    simp only [List.mem_cons, Prod.mk.injEq, List.not_mem_nil, or_false] at h
    obtain ⟨rfl, rfl⟩ | ⟨rfl, rfl⟩ | ⟨rfl, rfl⟩ | ⟨rfl, rfl⟩ | ⟨rfl, rfl⟩ | ⟨rfl, rfl⟩ := h <;> rfl
  rw [hrow, assemble, encode_encode]

/-! ### Running assembled commands (R111) -/

@[simp] theorem ofNumber_number (r : Csr) : Csr.ofNumber r.number = some r := by cases r <;> rfl

@[simp] theorem csrWrite_hostIn (s : State) (v : Word) (r : Csr) : (csrWrite s v r).hostIn = s.hostIn := by
  cases r <;> rfl

@[simp] theorem csrWrite_responses (s : State) (v : Word) (r : Csr) : (csrWrite s v r).responses = s.responses := by
  cases r <;> rfl

section Assembled

variable {s : State} {rest : List HostInput}

theorem step_assemble {i : Instr} {p : Payload} (h : s.hostIn = .command (assemble i p) :: rest) :
    step s = exec i s := step_command_ok h (decodeWord_encode i)

/-- CSRW of a writable register with a Word completes. -/
theorem step_assemble_csrw {r : Csr} {v : Word} (hw : r.writable = true)
    (h : s.hostIn = .command (assemble (.csrw r.number) (.word v)) :: rest) :
    step s = .next { csrWrite s v r with hostIn := rest, responses := s.responses ++ [.ok .none] } := by
  have hv : s.wordOperand = some v := (s.wordOperand_some v).2 (s.payload_command _ _ h)
  rw [step_assemble h]
  simp [exec, execCsrw, hw, hv, State.respond_eq, h]

/-- RSTATE without a payload completes. -/
theorem step_assemble_rstate (h : s.hostIn = .command (assemble .rstate .none) :: rest) :
    step s = .next { s.resetStream with hostIn := rest, responses := s.responses ++ [.ok .none] } := by
  have hp : s.noOperand = true := s.noOperand_iff.2 (s.payload_command _ _ h)
  rw [step_assemble h]
  simp [exec, execRstate, hp, State.respond_eq, h]

end Assembled

/-- A run by its first step. -/
theorem run_succ {M : Host.Core} {s t : M.State} (k : Nat) (h : M.step s = .next t) :
    M.run (k + 1) s = M.run k t := by
  rw [Host.Core.run, h]

/-- Settles O7: the run is the CSRW of FS_IN, the CSRW of FS_OUT and the RSTATE. -/
theorem sessionPseudoCommandStartsASession : Obligations.SessionPseudoCommandStartsASession := by
  intro s fin fout h
  refine (run_succ (M := core) 2 (step_assemble_csrw (r := .fsIn) rfl h)).trans ?_
  refine (run_succ (M := core) 1 (step_assemble_csrw (r := .fsOut) rfl rfl)).trans ?_
  refine (run_succ (M := core) 0 (step_assemble_rstate rfl)).trans ?_
  simp [Host.Core.run, csrWrite]

end Sys2Proof.Proofs

/-! ENCODE, 40_command_encoder.md: the frame of an opcode and a parameter as numbers, `frame_decode` of it, and the two
ends of the command. -/

namespace Sys2Proof.Proofs

open Sys2Proof Sys2Proof.Machine

/-! ### The frame (30_encoding.md R107, 40_command_encoder.md R141) -/

/-- A byte of a word, as a number. -/
theorem extractLsb'_eq_ofNat_div (p : Word) (k : Nat) : p.extractLsb' k 8 = BitVec.ofNat 8 (p.toNat / 2 ^ k) := by
  rw [BitVec.extractLsb', Nat.shiftRight_eq_div_pow]

theorem frame_eq_ofNat (o : Byte) (p : Word) :
    frame o p = [o, BitVec.ofNat 8 (p.toNat / 2 ^ 24), BitVec.ofNat 8 (p.toNat / 2 ^ 16),
      BitVec.ofNat 8 (p.toNat / 2 ^ 8), BitVec.ofNat 8 p.toNat] := by
  simp only [frame, extractLsb'_eq_ofNat_div, pow_zero, Nat.div_one]

/-- The four bytes of a word, most significant first, put together again. -/
theorem append_bytes_eq_self (p : Word) :
    p.extractLsb' 24 8 ++ p.extractLsb' 16 8 ++ p.extractLsb' 8 8 ++ p.extractLsb' 0 8 = p :=
  calc
    _ = p.extractLsb' 16 16 ++ p.extractLsb' 8 8 ++ p.extractLsb' 0 8 := by
      rw [BitVec.extractLsb'_append_extractLsb'_eq_extractLsb' (start₂ := 24) rfl]
    _ = p.extractLsb' 8 24 ++ p.extractLsb' 0 8 := by
      rw [BitVec.extractLsb'_append_extractLsb'_eq_extractLsb' (start₂ := 16) rfl]
    _ = p.extractLsb' 0 32 := BitVec.extractLsb'_append_extractLsb'_eq_extractLsb' rfl
    _ = p := BitVec.extractLsb'_eq_self

@[simp] theorem frameDecode_frame (o : Byte) (p : Word) : frameDecode (frame o p) = some (o, p) := by
  rw [frame, frameDecode, append_bytes_eq_self]

/-! ### The command (40_command_encoder.md R140, R142) -/

/-- A word whose OP and A name a command runs that command, if its RES is 0. -/
theorem step_of_decodeOp {s : State} {c : Command} {rest : List HostInput} {i : Instr}
    (h : s.hostIn = .command c :: rest) (hd : decodeOp (opField c.word) (argField c.word) = .ok i) :
    step s = if resField c.word = 0 then exec i s else .next (s.takeFault .illegalCommand) := by
  split
  case isTrue hres => exact step_command_ok h (by rw [decodeWord, if_pos hres, hd])
  case isFalse hres => exact step_command_illegal h (by rw [decodeWord, if_neg hres])

theorem exec_encode_word (o : Byte) {p : Word} {s : State} (h : s.payload = .word p) :
    exec (.encode o) s = .next (s.respond (.ok (.bytes (frame o p)))) := by
  simp [exec, execEncode, (s.wordOperand_some p).2 h]

theorem exec_encode_otherPayload (o : Byte) {s : State} (h : s.payload.kind ≠ .word) :
    exec (.encode o) s = .next (s.takeFault .operandFormat) := by
  simp [exec, execEncode, s.wordOperand_none.2 h]

/-- Settles O5: ENCODE answers the frame, whose last four bytes are the parameter's. -/
theorem frameDecodeUndoesEncode : Obligations.FrameDecodeUndoesEncode :=
  ⟨fun _ _ _ _ _ => rfl, fun o p _ h => ⟨frame o p, _, exec_encode_word o h, rfl, frameDecode_frame o p⟩⟩

/-- Settles O8: the decoder takes any A with the OP of ENCODE, and the two ends of the command are by its payload. -/
theorem encodeFramesEveryParameter : Obligations.EncodeFramesEveryParameter := by
  refine ⟨fun s c rest h hop => step_of_decodeOp h (by rw [hop]; rfl), fun o p s h => ?_,
    fun o s h => exec_encode_otherPayload o h⟩
  rw [exec_encode_word o h, State.respond_eq, frame_eq_ofNat]

end Sys2Proof.Proofs

/-! IQDEC, 41_iq_decoder.md: sums that lose nothing to rounding, the decoded components among them; the length check;
and the ends of the command. -/

namespace Sys2Proof.Proofs

open Sys2Proof Sys2Proof.Machine

/-! ### Significands of 24 bits are not moved by rounding (00_scope.md R12, R13) -/

/-- `unitsOf_rawMag_of_lt` in every binade and over every divisor. -/
theorem unitsOf_rawMag_mul_two_pow {n den : Nat} (e : Nat) (hn : n < 2 ^ 24) (hden : 0 < den) :
    unitsOf (rawMag (n * 2 ^ e * den) den) = n * 2 ^ e := by
  have hstep : stepOf (n * 2 ^ e * den) den ≤ e := by
    rw [stepOf, Nat.mul_div_cancel _ hden]
    obtain rfl | h0 := eq_or_ne n 0
    · simp
    · have hlt : n * 2 ^ e < 2 ^ (24 + e) := by
        rw [pow_add]; exact Nat.mul_lt_mul_of_pos_right hn (by positivity)
      have hlog := (Nat.log2_lt (Nat.mul_ne_zero h0 (by positivity))).2 hlt
      omega
  rw [unitsOf_rawMag]
  generalize stepOf (n * 2 ^ e * den) den = k at *
  obtain ⟨t, ht⟩ : 2 ^ k ∣ n * 2 ^ e := Dvd.dvd.mul_left (pow_dvd_pow 2 hstep) n
  have hnum : n * 2 ^ e * den = t * (den * 2 ^ k) := by rw [ht]; ring
  have hpos : 0 < den * 2 ^ k := by positivity
  rw [hnum, roundEven_of_dvd hpos (Dvd.intro_left _ rfl), Nat.mul_div_cancel _ hpos, ht, mul_comm]

/-- Up to the last binade, `n 2^e` units with `n` below 2^24 are a finite value, and their own rounding. -/
theorem roundMag_mul_two_pow {n e den : Nat} (hn : n < 2 ^ 24) (he : e ≤ 253) (hden : 0 < den) :
    roundMag (n * 2 ^ e * den) den < infMag ∧ unitsOf (roundMag (n * 2 ^ e * den) den) = n * 2 ^ e := by
  have hraw : rawMag (n * 2 ^ e * den) den < infMag := by
    have hle : n * 2 ^ e ≤ (2 ^ 24 - 1) * 2 ^ 253 :=
      Nat.mul_le_mul (by omega) (Nat.pow_le_pow_right two_pos he)
    rw [← not_le, infMag_le_rawMag _ hden, not_le]
    exact Nat.mul_lt_mul_of_pos_right (by omega) hden
  rw [roundMag_eq, min_eq_left hraw.le]
  exact ⟨hraw, unitsOf_rawMag_mul_two_pow e hn hden⟩

theorem signedUnits_packMag (neg : Bool) {m : Nat} (hm : m < 2 ^ 31) :
    signedUnits (packMag neg m) = if neg then -(unitsOf m : Int) else unitsOf m := by
  rw [signedUnits, signBit_packMag neg hm, magUnits_eq, magBits_packMag neg hm]

theorem signedUnits_eq_zero_iff {x : F32} : signedUnits x = 0 ↔ magBits x = 0 := by
  rw [← unitsOf_eq_zero, ← magUnits_eq, signedUnits]
  split <;> simp

/-- A sum of finite values that is `n 2^e` units, with `n` of at most 24 bits, is exact. -/
theorem fadd_exact {d e : Nat} {a b : F32} {n : Int} (ha : isFinite a = true) (hb : isFinite b = true)
    (hn : n.natAbs < 2 ^ 24) (he : e ≤ 253) (h : signedUnits a + signedUnits b = n * 2 ^ e) :
    isFinite (fadd d a b) = true ∧ signedUnits (fadd d a b) = n * 2 ^ e := by
  rw [fadd_finite ha hb, h]
  split
  case isTrue h0 =>
    rw [isFinite_iff, magBits_packMag _ (by decide), signedUnits_packMag _ (by decide), h0]
    exact ⟨by decide, by simp⟩
  case isFalse =>
    have habs : n.natAbs * 2 ^ e = (n * 2 ^ e).natAbs := by simp [Int.natAbs_mul, Int.natAbs_pow]
    have hround := roundMag_mul_two_pow hn he one_pos
    rw [mul_one, habs] at hround
    obtain ⟨hlt, hunits⟩ := hround
    rw [isFinite_iff, magBits_packMag _ (roundMag_lt _ _), signedUnits_packMag _ (roundMag_lt _ _), hunits]
    refine ⟨hlt, ?_⟩
    split
    case isTrue hneg => have := of_decide_eq_true hneg; omega
    case isFalse hneg => have := mt decide_eq_true hneg; omega

/-! ### A component (R160, R162) -/

theorem signedUnits_f32OfU8 (b : Byte) : signedUnits (f32OfU8 b) = b.toNat * 2 ^ 149 := by
  have h := (byteConversionIsExact.1 b).2
  rw [realValue, div_eq_iff (by positivity)] at h
  exact_mod_cast h

/-- R162: the half-integer `b - 127.5` is exact. -/
theorem iqComponent_exact (d : Nat) (b : Byte) : isFinite (iqComponent d b) = true ∧
    signedUnits (iqComponent d b) = (2 * (b.toNat : Int) - 255) * 2 ^ 148 := by
  have hoffset : signedUnits (fneg dcOffset) = -255 * 2 ^ 148 := by decide
  refine fadd_exact (byteConversionIsExact.1 b).1 (by decide) (by omega) (by decide) ?_
  rw [signedUnits_f32OfU8, hoffset]
  ring

/-- R162: no component is a zero, since an odd number of halves is none. -/
theorem iqComponent_ne_zero (d : Nat) (b : Byte) : magBits (iqComponent d b) ≠ 0 := by
  rw [← signedUnits_eq_zero_iff.ne, (iqComponent_exact d b).2]
  omega

/-! ### The length check (R161) -/

theorem iqLenOk_iff (s : State) (n : Nat) :
    s.iqLenOk n = true ↔ n % 2 = 0 ∧ (s.bufBytes = 0 ∨ n = 0 ∨ n = s.bufBytes.toNat) := by
  simp [State.iqLenOk, or_assoc]

theorem iqLenOk_eq_false_iff (s : State) (n : Nat) :
    s.iqLenOk n = false ↔ n % 2 = 1 ∨ (s.bufBytes ≠ 0 ∧ n ≠ 0 ∧ n ≠ s.bufBytes.toNat) := by
  rw [← Bool.not_eq_true, iqLenOk_iff, not_and_or, not_or, not_or, Nat.mod_two_not_eq_zero]

/-! ### The command (R160) -/

/-- A command without an argument has one legal word: the others with its OP are refused (30_encoding.md R104). -/
theorem step_of_opField {s : State} {c : Command} {rest : List HostInput} {i : Instr}
    (hi : ∀ a, decodeOp i.op a = withoutArg a i) (h : s.hostIn = .command c :: rest) (hop : opField c.word = i.op) :
    step s = if c.word = encode i then exec i s else .next (s.takeFault .illegalCommand) := by
  split
  case isTrue hw => exact step_command_ok h (by rw [hw, decodeWord_encode])
  case isFalse hw =>
    cases hd : decodeWord c.word with
    | error e => exact step_command_illegal h hd
    | ok j =>
      have hj := decodeOp_op_arg j
      rw [(decodeWord_ok hd).2.1, hop, hi, withoutArg] at hj
      obtain rfl : i = j := by split at hj <;> cases hj; rfl
      exact absurd (eq_encode_of_decodeWord hd) hw

section Iqdec

variable {s : State} {b : List Byte}

theorem exec_iqdec_accepted (hp : s.payload = .bytes b) (hf : (Payload.bytes b).fits s.maxLen = true)
    (hl : s.iqLenOk b.length = true) :
    exec .iqdec s = .next (s.respond (.ok (.iq (iqDecode s.nanDraws b)))) := by
  simp [exec, execIqdec, (s.bytesOperand_some b).2 ⟨hp, hf⟩, hl]

theorem exec_iqdec_otherLength (hp : s.payload = .bytes b) (hf : (Payload.bytes b).fits s.maxLen = true)
    (hl : s.iqLenOk b.length = false) : exec .iqdec s = .next (s.takeFault .streamIntegrity) := by
  simp [exec, execIqdec, (s.bytesOperand_some b).2 ⟨hp, hf⟩, hl]

theorem exec_iqdec_otherPayload (h : s.payload.kind ≠ .bytes ∨ s.payload.fits s.maxLen = false) :
    exec .iqdec s = .next (s.takeFault .operandFormat) := by
  simp [exec, execIqdec, s.bytesOperand_none.2 h]

end Iqdec

/-- Settles O9: the three ends of the command by the payload and the length check; the samples of an accepted one by
their components. -/
theorem iqdecDecodesEveryPair : Obligations.IqdecDecodesEveryPair := by
  refine ⟨iqLenOk_iff, fun s c rest h hop => step_of_opField (i := .iqdec) (fun _ => rfl) h hop,
    fun s b hp hf heven hlen => ?_, fun s h => exec_iqdec_otherPayload h,
    fun s b hp hf hl => exec_iqdec_otherLength hp hf ((iqLenOk_eq_false_iff s _).2 hl)⟩
  refine ⟨iqDecode s.nanDraws b, exec_iqdec_accepted hp hf ((iqLenOk_iff s _).2 ⟨heven, hlen⟩),
    iqDecode_length _ b, fun k i q x hi hq hx => ?_⟩
  obtain rfl := Option.some.inj ((iqDecode_get _ b k i q hi hq).symm.trans hx)
  obtain ⟨hfinI, hunitsI⟩ := iqComponent_exact s.nanDraws i
  obtain ⟨hfinQ, hunitsQ⟩ := iqComponent_exact s.nanDraws q
  exact ⟨hunitsI, hunitsQ, hfinI, hfinQ, iqComponent_ne_zero _ i, iqComponent_ne_zero _ q⟩

end Sys2Proof.Proofs

/-! FMDEMOD, 42_fm_demodulator.md: the ends of the command, a payload cut in two, and the discriminator on equal and on
decoded samples. -/

namespace Sys2Proof.Proofs

open Sys2Proof Sys2Proof.Machine

/-! ### The command (R181) -/

section Fmdemod

variable {s : State} {x : List IQ}

theorem exec_fmdemod_accepted (hp : s.payload = .iq x) (hf : (Payload.iq x).fits s.maxLen = true) :
    exec .fmdemod s = .next ((fmdemodBody x s).2.respond (.ok (.f32 (fmdemodBody x s).1))) := by
  simp [exec, execFmdemod, (s.iqOperand_some x).2 ⟨hp, hf⟩]

theorem exec_fmdemod_otherPayload (h : s.payload.kind ≠ .iq ∨ s.payload.fits s.maxLen = false) :
    exec .fmdemod s = .next (s.takeFault .operandFormat) := by
  simp [exec, execFmdemod, s.iqOperand_none.2 h]

/-- FMDEMOD sent alone: its body, the port free after it, and one more response. -/
theorem step_offer_fmdemod (hf : (Payload.iq x).fits s.maxLen = true) :
    step (s.offer .fmdemod (.iq x)) =
      .next (withPorts [] (s.responses ++ [.ok (.f32 (fmdemodBody x s).1)]) (fmdemodBody x s).2) := by
  have hports : s.offer .fmdemod (.iq x) = withPorts [.command (assemble .fmdemod (.iq x))] s.responses s := rfl
  rw [step_assemble (s.offer_hostIn _ _), exec_fmdemod_accepted (s.payload_offer _ _) hf, hports, fmdemodBody_withPorts]
  rfl

end Fmdemod

/-- Settles O10: the two ends of the command by its payload; output `k` compares samples `k` and `k + 1`. -/
theorem fmdemodComparesNeighbours : Obligations.FmdemodComparesNeighbours := by
  refine ⟨fun s c rest h hop => step_of_opField (i := .fmdemod) (fun _ => rfl) h hop, fun s x w hp hf hw => ?_,
    fun d pI pQ cI cQ => ⟨d, d + 1, d + 2, d + 3, d + 3 + 1, d + 3 + 2, rfl⟩, fun s h => exec_fmdemod_otherPayload h⟩
  obtain rfl : w = s.demodInput x := by simp [hw, State.demodInput, State.dmCont]
  refine ⟨(fmdemodBody x s).1, (fmdemodBody x s).2.nanDraws, ?_, demodSeq_length _ _, fun k prev curr hprev hcurr =>
    ⟨_, demodSeq_get _ _ k prev curr hprev hcurr⟩⟩
  have hvalid : (s.dmPrevv || (s.dmCont && !x.isEmpty)) =
      if s.mode.getLsbD 2 = true ∧ x ≠ [] then true else s.dmPrevv := by
    rw [State.dmCont]
    cases s.mode.getLsbD 2 <;> cases x <;> simp
  rw [exec_fmdemod_accepted hp hf, State.respond_eq, fmdemodBody_state, hvalid]
  rfl

/-- Settles O47: completing, the command does what its body does; the other way to end is a fault. -/
theorem fmdemodFrame : Obligations.FmdemodFrame := by
  intro s t h
  obtain ⟨u, p, hu, rfl⟩ | ⟨c, rfl⟩ := exec_next h
  · cases hu with
    | fmdemod x =>
      exact ⟨by rw [fmdemodBody_state]; rfl, fmdemodBody_lookback s x, .inl (by rw [fmdemodBody_state]; rfl)⟩
  · exact ⟨rfl, fun _ => ⟨rfl, rfl⟩, .inr ⟨c, rfl⟩⟩

/-! ### Two payloads in a row (R182, R186) -/

/-- With DM_CONT = 0 the samples are compared among themselves, and no register is written. -/
theorem fmdemodBody_of_not_dmCont {s : State} (x : List IQ) (h : s.dmCont = false) :
    fmdemodBody x s = (demodSeq s.nanDraws x, s.drew (discOps * (x.length - 1))) := by
  simp [fmdemodBody, State.demodInput, State.dmUpdate, h]

theorem step_offer_fmdemod_of_not_dmCont {s : State} {x : List IQ} (h : s.dmCont = false)
    (hf : (Payload.iq x).fits s.maxLen = true) :
    step (s.offer .fmdemod (.iq x)) = .next
      (withPorts [] (s.responses ++ [.ok (.f32 (demodSeq s.nanDraws x))]) (s.drew (discOps * (x.length - 1)))) := by
  rw [step_offer_fmdemod hf, fmdemodBody_of_not_dmCont x h]

/-- Settles O11: both commands are that of the samples alone, with whatever lookback. -/
theorem seamIsNeverComparedWithoutDmCont : Obligations.SeamIsNeverComparedWithoutDmCont := by
  intro s x y hc _ _ hx hy
  refine ⟨_, _, _, _, step_offer_fmdemod_of_not_dmCont hc hx, rfl, step_offer_fmdemod_of_not_dmCont hc hy, rfl, ?_,
    fun prev v => step_offer_fmdemod_of_not_dmCont hc hy⟩
  rw [demodSeq_length, demodSeq_length]

/-- Cut in two, a sequence is demodulated the same if the second part begins with the last sample of the first. -/
theorem demodSeq_append (d : Nat) (w v : List IQ) :
    demodSeq d (w ++ v) = demodSeq d w ++ demodSeq (d + discOps * (w.length - 1)) (w.getLast?.toList ++ v) := by
  cases w with
  | nil => rfl
  | cons p u =>
    rw [List.getLast?_cons, ← List.getLastD_eq_getLast?]
    exact demodFrom_append d p u v

section DmCont

variable {s : State} (x y : List IQ)

theorem demodInput_of_dmCont (h : s.dmCont = true) :
    s.demodInput x = (if s.dmPrevv then [s.dmPrev] else []) ++ x := by
  rw [State.demodInput, h, Bool.true_and]
  split <;> rfl

/-- The lookback FMDEMOD leaves with DM_CONT = 1 is the last of the samples it compared. -/
theorem demodInput_fmdemodBody (h : s.dmCont = true) :
    (fmdemodBody x s).2.demodInput y = (s.demodInput x).getLast?.toList ++ y := by
  rw [fmdemodBody_state, demodInput_of_dmCont x h, demodInput_of_dmCont y (by exact h), h]
  obtain rfl | ⟨u, last, rfl⟩ := x.eq_nil_or_concat'
  · cases s.dmPrevv <;> simp
  · simp [List.getLast?_append]

/-- The outputs of a concatenation are those of its parts, the lookback carried between them. -/
theorem fmdemodBody_append_outputs (h : s.dmCont = true) :
    (fmdemodBody (x ++ y) s).1 = (fmdemodBody x s).1 ++ (fmdemodBody y (fmdemodBody x s).2).1 :=
  calc demodSeq s.nanDraws (s.demodInput (x ++ y))
    _ = demodSeq s.nanDraws (s.demodInput x) ++
        demodSeq (s.nanDraws + discOps * ((s.demodInput x).length - 1)) ((s.demodInput x).getLast?.toList ++ y) := by
      rw [demodInput_of_dmCont _ h, ← List.append_assoc, ← demodInput_of_dmCont _ h, demodSeq_append]
    _ = demodSeq s.nanDraws (s.demodInput x) ++
        demodSeq (fmdemodBody x s).2.nanDraws ((fmdemodBody x s).2.demodInput y) := by
      rw [demodInput_fmdemodBody x y h, fmdemodBody_state, fmdemodBody, demodSeq_length]

/-- With DM_CONT = 1 the body of a concatenation is the two bodies one after the other. -/
theorem fmdemodBody_append (h : s.dmCont = true) :
    fmdemodBody (x ++ y) s =
      ((fmdemodBody x s).1 ++ (fmdemodBody y (fmdemodBody x s).2).1, (fmdemodBody y (fmdemodBody x s).2).2) := by
  refine Prod.ext (fmdemodBody_append_outputs x y h) ?_
  have hlast : (x ++ y).getLast?.getD s.dmPrev = y.getLast?.getD (x.getLast?.getD s.dmPrev) := by
    rw [List.getLast?_append]; cases y.getLast? <;> rfl
  have hvalid : (!(x ++ y).isEmpty) = (!x.isEmpty || !y.isEmpty) := by cases x <;> rfl
  have hcont : (fmdemodBody x s).2.dmCont = true := by rw [fmdemodBody_state]; exact h
  rw [fmdemodBody_state (x ++ y), fmdemodBody_append_outputs x y h, List.length_append, fmdemodBody_state y, hcont, h,
    hlast, hvalid]
  generalize (fmdemodBody y _).1.length = m
  rw [fmdemodBody_state x, h]
  simp [Bool.or_assoc, mul_add, add_assoc]

end DmCont

/-- Settles O12: the body of the concatenation is the two bodies one after the other. -/
theorem demodulatorContinuesAcrossASplit : Obligations.DemodulatorContinuesAcrossASplit := by
  intro s x y hc hx hy hxy
  refine ⟨_, _, _, _, _, step_offer_fmdemod hx, rfl, step_offer_fmdemod ?_, rfl, step_offer_fmdemod hxy, ?_, ?_, ?_⟩
  · rwa [fmdemodBody_state]
  all_goals rw [fmdemodBody_append x y hc, fmdemodBody_withPorts]; rfl

/-! ### Equal samples (R183) -/

theorem fsub_cancels {d : Nat} {a b : F32} (ha : isFinite a = true) (hb : isFinite b = true)
    (h : realValue a - realValue b = 0) : fsub d a b = if a = 0x80000000 ∧ b = 0 then 0x80000000 else 0 := by
  obtain ⟨-, -, -, hcancels, -⟩ := additionRoundsTheExactSum d a b
  exact hcancels ha hb h

theorem fsub_self (d : Nat) {a : F32} (h : isFinite a = true) : fsub d a a = 0 := by
  rw [fsub_cancels h h (sub_self _), if_neg]
  rintro ⟨rfl, hzero⟩
  exact absurd hzero (by decide)

/-- A sum of two finite values whose sign bits are clear has its sign bit clear, and is no NaN. -/
theorem fadd_nonneg (d : Nat) {a b : F32} (ha : isFinite a = true) (hb : isFinite b = true)
    (hsa : signBit a = false) (hsb : signBit b = false) :
    signBit (fadd d a b) = false ∧ isNaN (fadd d a b) = false := by
  have hsum : ¬ signedUnits a + signedUnits b < 0 := by
    simp only [signedUnits, hsa, hsb, Bool.false_eq_true, if_false]; omega
  rw [fadd_finite ha hb]
  split
  case isTrue => rw [hsa, hsb]; decide
  case isFalse =>
    rw [decide_eq_false hsum, signBit_packMag _ (roundMag_lt _ _), isNaN, magBits_packMag _ (roundMag_lt _ _)]
    exact ⟨rfl, decide_eq_false (min_le_right _ _).not_gt⟩

theorem signBit_fmul_self (d : Nat) {a : F32} (h : isFinite a = true) : signBit (fmul d a a) = false := by
  rw [fmul_finite h h, signBit_packMag _ (roundMag_lt _ _), Bool.xor_self]

/-- A finite product is the same for every draw. -/
theorem fmul_draw_of_isFinite {d : Nat} {a b : F32} (h : isFinite (fmul d a b) = true) (e : Nat) :
    fmul e a b = fmul d a b := fmul_draw (isNaN_of_isFinite h) e

/-- 00_scope.md R14: the angle of a point on the non-negative half of the real axis is `+0`. -/
theorem refAtan2_zero {x : F32} (hs : signBit x = false) (hn : isNaN x = false) : refAtan2 0 x = 0 := by
  have hnan : isNaN 0#32 = false := by decide
  have hinf : isInf 0#32 = false := by decide
  have hmag : magBits 0#32 = 0 := by decide
  have hzero : withSign (signBit 0#32) 0#32 = 0 := by decide
  simp [refAtan2, hnan, hn, hinf, hs, hmag, hzero]

/-- Settles O13: the two products of `im` are the same value, and those of `re` are squares. -/
theorem equalSamplesDemodulateToZero : Obligations.EqualSamplesDemodulateToZero := by
  intro d p hi hq hcross hii hqq
  have him : ∀ e, discIm e p p = 0 := fun e => by
    rw [discIm, fmul_comm (e + 1), fmul_draw_of_isFinite hcross e, fmul_draw_of_isFinite hcross (e + 1)]
    exact fsub_self _ hcross
  obtain ⟨hsign, hnan⟩ : signBit (discRe d p p) = false ∧ isNaN (discRe d p p) = false := by
    rw [discRe, fmul_draw_of_isFinite hqq (d + 1)]
    exact fadd_nonneg _ hii hqq (signBit_fmul_self d hi) (signBit_fmul_self d hq)
  refine ⟨him d, hsign, hnan, ?_, ?_⟩
  · rw [disc, discWith, him]
  · rw [discWith, him, refAtan2_zero hsign hnan]

/-! ### Decoded samples (R184) -/

/-- A product of finite values that is `n 2^e` units, with `n` of at most 24 bits, is exact. -/
theorem fmul_exact {d e : Nat} {a b : F32} {n : Int} (ha : isFinite a = true) (hb : isFinite b = true)
    (hn : n.natAbs < 2 ^ 24) (he : e ≤ 253) (h : signedUnits a * signedUnits b = n * 2 ^ e * 2 ^ 149) :
    isFinite (fmul d a b) = true ∧ signedUnits (fmul d a b) = n * 2 ^ e := by
  have hsigned : signedUnits a * signedUnits b =
      if signBit a ^^ signBit b then -((unitsOf (magBits a) * unitsOf (magBits b) : Nat) : Int)
      else (unitsOf (magBits a) * unitsOf (magBits b) : Nat) := by
    simp only [signedUnits, magUnits_eq, Nat.cast_mul]
    cases signBit a <;> cases signBit b <;> simp
  have hmag : unitsOf (magBits a) * unitsOf (magBits b) = n.natAbs * 2 ^ e * 2 ^ 149 := by
    have habs := congrArg Int.natAbs (hsigned.symm.trans h)
    rw [apply_ite Int.natAbs, Int.natAbs_neg, ite_self] at habs
    simpa [Int.natAbs_mul, Int.natAbs_pow] using habs
  obtain ⟨hlt, hunits⟩ := roundMag_mul_two_pow hn he (show 0 < 2 ^ 149 by positivity)
  rw [fmul_finite ha hb, hmag, isFinite_iff, magBits_packMag _ (roundMag_lt _ _),
    signedUnits_packMag _ (roundMag_lt _ _), hunits]
  refine ⟨hlt, mul_right_cancel₀ (b := 2 ^ 149) (by positivity) ?_⟩
  rw [← h, hsigned, hmag, ite_mul, neg_mul, Nat.cast_mul _ (2 ^ 149), Nat.cast_pow 2 149, Nat.cast_ofNat]

theorem signedUnits_fneg (a : F32) : signedUnits (fneg a) = -signedUnits a := by
  simp only [signedUnits, signBit_fneg, magUnits_eq, magBits_fneg]
  cases signBit a <;> simp

/-- `fadd_exact` for a difference. -/
theorem fsub_exact {d e : Nat} {a b : F32} {n : Int} (ha : isFinite a = true) (hb : isFinite b = true)
    (hn : n.natAbs < 2 ^ 24) (he : e ≤ 253) (h : signedUnits a - signedUnits b = n * 2 ^ e) :
    isFinite (fsub d a b) = true ∧ signedUnits (fsub d a b) = n * 2 ^ e :=
  fadd_exact ha ((isFinite_fneg b).trans hb) hn he (by rw [signedUnits_fneg, ← sub_eq_add_neg, h])

/-- An exact difference is `-0` only where it is taken from a zero. -/
theorem fsub_ne_negZero {d : Nat} {a b : F32} (ha : isFinite a = true) (hb : isFinite b = true)
    (hexact : signedUnits (fsub d a b) = signedUnits a - signedUnits b) (hne : signedUnits a ≠ 0) :
    fsub d a b ≠ 0x80000000 := by
  intro h
  have hreal : realValue a - realValue b = 0 := by
    have hdiff : signedUnits a - signedUnits b = 0 := by rw [← hexact, h]; decide
    rw [realValue, realValue, sub_eq_zero.1 hdiff, sub_self]
  have hzero : a ≠ 0x80000000 := by rintro rfl; exact hne (by decide)
  rw [fsub_cancels ha hb hreal, if_neg fun hz => hzero hz.1] at h
  exact absurd h (by decide)

/-- The component of byte `b`, `b - 127.5`, in halves. -/
def halves (b : Byte) : Int := 2 * b.toNat - 255

theorem signedUnits_iqComponent (d : Nat) (b : Byte) : signedUnits (iqComponent d b) = halves b * 2 ^ 148 :=
  (iqComponent_exact d b).2

theorem halves_ne_zero (b : Byte) : halves b ≠ 0 := by unfold halves; omega

theorem natAbs_halves_mul_le (a b : Byte) : (halves a * halves b).natAbs ≤ 255 * 255 := by
  have hle : ∀ c, (halves c).natAbs ≤ 255 := fun c => by unfold halves; omega
  rw [Int.natAbs_mul]
  exact Nat.mul_le_mul (hle a) (hle b)

theorem cast_halves (b : Byte) : (halves b : ℝ) = 2 * ((b.toNat : ℝ) - 127.5) := by
  rw [halves]; push_cast; ring

/-- A whole number of quarters. -/
theorem realValue_of_quarters {x : F32} {n : Int} (h : signedUnits x = n * 2 ^ 147) : realValue x = n / 4 := by
  rw [realValue_of_signedUnits h]; push_cast; ring

section Decoded

variable {e : Nat} {pi pq ci cq : Byte} {prev curr : IQ}

/-- R184: the product of two components is exact, in quarters. -/
theorem fmul_iqComponent (d e : Nat) (a b : Byte) : isFinite (fmul d (iqComponent e a) (iqComponent e b)) = true ∧
    signedUnits (fmul d (iqComponent e a) (iqComponent e b)) = halves a * halves b * 2 ^ 147 := by
  have hle := natAbs_halves_mul_le a b
  refine fmul_exact (iqComponent_exact e a).1 (iqComponent_exact e b).1 (by omega) (by decide) ?_
  rw [signedUnits_iqComponent, signedUnits_iqComponent]
  ring

theorem discRe_decoded (d : Nat) (hprev : prev = ⟨iqComponent e pi, iqComponent e pq⟩)
    (hcurr : curr = ⟨iqComponent e ci, iqComponent e cq⟩) : isFinite (discRe d prev curr) = true ∧
    signedUnits (discRe d prev curr) = (halves ci * halves pi + halves cq * halves pq) * 2 ^ 147 := by
  subst hprev hcurr
  obtain ⟨hfinI, hunitsI⟩ := fmul_iqComponent d e ci pi
  obtain ⟨hfinQ, hunitsQ⟩ := fmul_iqComponent (d + 1) e cq pq
  have hleI := natAbs_halves_mul_le ci pi
  have hleQ := natAbs_halves_mul_le cq pq
  exact fadd_exact hfinI hfinQ (by omega) (by decide) (by rw [hunitsI, hunitsQ, add_mul])

theorem discIm_decoded (d : Nat) (hprev : prev = ⟨iqComponent e pi, iqComponent e pq⟩)
    (hcurr : curr = ⟨iqComponent e ci, iqComponent e cq⟩) : isFinite (discIm d prev curr) = true ∧
    signedUnits (discIm d prev curr) = (halves cq * halves pi - halves ci * halves pq) * 2 ^ 147 ∧
    discIm d prev curr ≠ 0x80000000 := by
  subst hprev hcurr
  obtain ⟨hfinQ, hunitsQ⟩ := fmul_iqComponent d e cq pi
  obtain ⟨hfinI, hunitsI⟩ := fmul_iqComponent (d + 1) e ci pq
  have hleQ := natAbs_halves_mul_le cq pi
  have hleI := natAbs_halves_mul_le ci pq
  have hdiff := sub_mul (halves cq * halves pi) (halves ci * halves pq) (2 ^ 147)
  rw [← hunitsQ, ← hunitsI] at hdiff
  obtain ⟨hfin, hunits⟩ := fsub_exact (d := d + 2) hfinQ hfinI (by omega) (by decide) hdiff.symm
  have hne : halves cq * halves pi * 2 ^ 147 ≠ 0 :=
    mul_ne_zero (mul_ne_zero (halves_ne_zero cq) (halves_ne_zero pi)) (by positivity)
  exact ⟨hfin, hunits, fsub_ne_negZero hfinQ hfinI (hunits.trans hdiff) (hunitsQ ▸ hne)⟩

end Decoded

/-- `c + d j` times the conjugate of `a + b j` is not zero where neither factor is. -/
theorem not_mul_conj_parts_eq_zero {a b c d : Int} (ha : a ≠ 0) (hc : c ≠ 0) :
    ¬ (c * a + d * b = 0 ∧ d * a - c * b = 0) := by
  rintro ⟨hre, him⟩
  have hnorm : (a ^ 2 + b ^ 2) * (c ^ 2 + d ^ 2) = 0 := by
    linear_combination (c * a + d * b) * hre + (d * a - c * b) * him
  have hpos : 0 < (a ^ 2 + b ^ 2) * (c ^ 2 + d ^ 2) := by positivity
  exact hpos.ne' hnorm

/-- Settles O14: the components in halves, and `re` and `im` in quarters. -/
theorem discriminatorIsExactOnDecodedSamples : Obligations.DiscriminatorIsExactOnDecodedSamples := by
  intro d e pi pq ci cq prev curr hprev hcurr
  obtain ⟨hfinRe, hre⟩ := discRe_decoded d hprev hcurr
  obtain ⟨hfinIm, him, himne⟩ := discIm_decoded d hprev hcurr
  refine ⟨?_, ?_, hfinRe, hfinIm, ?_, himne⟩
  · rw [realValue_of_quarters hre]
    push_cast [cast_halves]; ring
  · rw [realValue_of_quarters him]
    push_cast [cast_halves]; ring
  · rw [← signedUnits_eq_zero_iff, ← signedUnits_eq_zero_iff, hre, him, mul_eq_zero_iff_right (by positivity),
      mul_eq_zero_iff_right (by positivity)]
    exact not_mul_conj_parts_eq_zero (halves_ne_zero pi) (halves_ne_zero ci)

end Sys2Proof.Proofs

/-! SQUELCH, 43_squelch.md: the gate on one sample, and the ends of the command. -/

namespace Sys2Proof.Proofs

open Sys2Proof Sys2Proof.Machine

/-! ### One sample (R200, R201) -/

theorem isNaN_fabs (x : F32) : isNaN (fabs x) = isNaN x := by rw [isNaN, magBits_fabs, isNaN]

section Gate

variable {t v : F32}

theorem gate_below (h : flt (fabs v) t = true) : gate t v = 0 := if_pos h

theorem gate_kept (h : flt (fabs v) t = false) : gate t v = v := if_neg (by simp [h])

/-- A NaN's magnitude is a NaN, and no NaN is below anything. -/
theorem gate_nan (h : isNaN v = true) : gate t v = v := gate_kept (flt_nan (.inl (by rwa [isNaN_fabs])))

/-- R201, of any sample: the magnitude is kept or gone, and gone just where the sample is below `t` or a zero. -/
theorem magBits_gate (t v : F32) :
    (magBits (gate t v) = 0 ∨ magBits (gate t v) = magBits v) ∧
    (magBits (gate t v) = 0 ↔ flt (fabs v) t = true ∨ magBits v = 0) := by
  cases h : flt (fabs v) t with
  | true =>
    have hzero : magBits 0 = 0 := by decide
    rw [gate_below h]
    exact ⟨.inl hzero, fun _ => .inl rfl, fun _ => hzero⟩
  | false => simp [gate_kept h]

end Gate

/-! ### The command (R200) -/

section Squelch

variable {s : State} {x : List F32}

theorem exec_squelch_accepted (hp : s.payload = .f32 x) (hf : (Payload.f32 x).fits s.maxLen = true) :
    exec .squelch s = .next (s.respond (.ok (.f32 (squelchBody x s)))) := by
  simp [exec, execSquelch, (s.f32Operand_some x).2 ⟨hp, hf⟩]

theorem exec_squelch_otherPayload (h : s.payload.kind ≠ .f32 ∨ s.payload.fits s.maxLen = false) :
    exec .squelch s = .next (s.takeFault .operandFormat) := by
  simp [exec, execSquelch, s.f32Operand_none.2 h]

/-- Lane by lane: output `i` is sample `i` through the gate. -/
theorem squelchBody_get {i : Nat} {v : F32} (h : x[i]? = some v) :
    (squelchBody x s)[i]? = some (gate s.sqThresh v) := by
  simp [squelchBody, h]

end Squelch

/-- Settles O15: the two ends of the command by its payload; output `i` is the gate's of sample `i`. -/
theorem squelchGatesEachSample : Obligations.SquelchGatesEachSample := by
  refine ⟨fun s c rest h hop => step_of_opField (i := .squelch) (fun _ => rfl) h hop, fun s x hp hf => ?_,
    fun s h => exec_squelch_otherPayload h⟩
  refine ⟨squelchBody x s, ?_, List.length_map _, fun i v hv => ?_⟩
  · rw [exec_squelch_accepted hp hf, State.respond_eq]
  · have hout : (squelchBody x s)[i]? = some (gate s.sqThresh v) := squelchBody_get hv
    exact ⟨hout, fun hnan => by rw [hout, gate_nan hnan], fun _ => ⟨_, hout, magBits_gate s.sqThresh v⟩⟩

end Sys2Proof.Proofs

/-! DEEMPH, 44_deemphasis.md: the coefficients, monotone with the exact rational since rounding is; the ends of the
command; a payload cut in two; the NaNs the recurrence keeps; and the first output from `+0`. -/

namespace Sys2Proof.Proofs

open Sys2Proof Sys2Proof.Machine

/-! ### Rounding keeps order (00_scope.md R12) -/

section Rounding

variable {r r' : ℝ} {v v' : F32}

/-- What rounds to infinity is past 2^128 - 2^103; the coefficients are far below. -/
theorem abs_lt_cut_of_abs_le_one (h : |r| ≤ 1) : |r| < (2 : ℝ) ^ 128 - 2 ^ 103 := h.trans_lt (by norm_num)

theorem isFinite_of_isRnd32 (hv : IsRnd32 r v) (h : |r| < (2 : ℝ) ^ 128 - 2 ^ 103) : isFinite v = true := by
  obtain ⟨-, -, -, hnear⟩ := hv
  exact (hnear h).1

/-- Were the values of two roundings in the other order, each would have to be nearer to the other's real. -/
theorem realValue_le_of_isRnd32 (hv : IsRnd32 r v) (hv' : IsRnd32 r' v') (h : |r| < (2 : ℝ) ^ 128 - 2 ^ 103)
    (h' : |r'| < (2 : ℝ) ^ 128 - 2 ^ 103) (hlt : r < r') : realValue v ≤ realValue v' := by
  have hfin := isFinite_of_isRnd32 hv h
  have hfin' := isFinite_of_isRnd32 hv' h'
  obtain ⟨-, -, -, hnear⟩ := hv
  obtain ⟨-, -, -, hnear'⟩ := hv'
  have hsq := sq_le_sq.2 ((hnear h).2 v' hfin').1
  have hsq' := sq_le_sq.2 ((hnear' h').2 v hfin).1
  by_contra hgt
  nlinarith [mul_pos (sub_pos.2 (not_le.1 hgt)) (sub_pos.2 hlt)]

end Rounding

/-! ### The coefficients (R220, R224) -/

/-- The real number R220 rounds to `alpha(fs)`. -/
noncomputable def coefficient (fs : Nat) : ℝ := 40000 / (40000 + 3 * (fs : ℝ))

theorem isRnd32_alpha (fs : Nat) : IsRnd32 (coefficient fs) (alpha fs) := by
  have h := roundingIsNearestEven false 40000 (40000 + 3 * fs) (by omega)
  push_cast [Bool.false_eq_true, if_false, one_mul] at h
  exact h

theorem coefficient_strictAnti : StrictAnti coefficient := by
  intro m n h
  have hcast : (m : ℝ) < n := by exact_mod_cast h
  exact div_lt_div_of_pos_left (by norm_num) (by positivity) (by linarith)

theorem abs_coefficient_lt_cut (fs : Nat) : |coefficient fs| < (2 : ℝ) ^ 128 - 2 ^ 103 := by
  have hle : coefficient fs ≤ 1 := by
    calc coefficient fs ≤ coefficient 0 := coefficient_strictAnti.antitone fs.zero_le
      _ = 1 := by norm_num [coefficient]
  have hnonneg : 0 ≤ coefficient fs := by unfold coefficient; positivity
  exact abs_lt_cut_of_abs_le_one (abs_le.2 ⟨by linarith, hle⟩)

theorem isFinite_alpha (fs : Nat) : isFinite (alpha fs) = true :=
  isFinite_of_isRnd32 (isRnd32_alpha fs) (abs_coefficient_lt_cut fs)

theorem realValue_alpha_antitone : Antitone fun fs => realValue (alpha fs) := by
  intro m n h
  obtain rfl | hlt := h.eq_or_lt
  · exact le_rfl
  · exact realValue_le_of_isRnd32 (isRnd32_alpha n) (isRnd32_alpha m) (abs_coefficient_lt_cut n)
      (abs_coefficient_lt_cut m) (coefficient_strictAnti hlt)

theorem realValue_one : realValue one = 1 := byteConversionIsExact.2.1

/-- The greatest and the least `alpha` are those of the rates 1 and 2^32 - 1. -/
theorem realValue_alpha_mem_Ioo {fs : Word} (h : fs ≠ 0) :
    0 < realValue (alpha fs.toNat) ∧ realValue (alpha fs.toNat) < 1 := by
  constructor
  · calc (0 : ℝ)
      _ = realValue 0 := realValue_posZero.symm
      _ < realValue (alpha 0xFFFFFFFF) := realValue_lt_iff.2 (by decide)
      _ ≤ realValue (alpha fs.toNat) := realValue_alpha_antitone (by omega)
  · calc realValue (alpha fs.toNat)
      _ ≤ realValue (alpha 1) := realValue_alpha_antitone (BitVec.toNat_pos_of_ne_zero h)
      _ < realValue one := realValue_lt_iff.2 (by decide)
      _ = 1 := realValue_one

/-- R220: `1 - alpha` is rounded from a real in (0, 1). -/
theorem beta_finite_positive (d : Nat) {fs : Word} (h : fs ≠ 0) :
    isFinite (beta d fs.toNat) = true ∧ signBit (beta d fs.toNat) = false := by
  obtain ⟨hpos, hlt⟩ := realValue_alpha_mem_Ioo h
  have hdiff : realValue one - realValue (alpha fs.toNat) ≠ 0 := by rw [realValue_one]; exact (sub_pos.2 hlt).ne'
  obtain ⟨-, hsub, -⟩ := additionRoundsTheExactSum d one (alpha fs.toNat)
  have hround := hsub (by decide) (isFinite_alpha _) hdiff
  have hfin := isFinite_of_isRnd32 hround
    (abs_lt_cut_of_abs_le_one (by rw [realValue_one, abs_le]; constructor <;> linarith))
  obtain ⟨-, hsign, -⟩ := hround
  refine ⟨hfin, Bool.eq_false_iff.2 fun hneg => ?_⟩
  have hdiffneg := (hsign hdiff).1 hneg
  rw [realValue_one] at hdiffneg
  linarith

/-- A `beta` seen to be no NaN with one draw is the same with every draw. -/
theorem beta_draw {d fs : Nat} (h : isNaN (beta d fs) = false) (e : Nat) : beta e fs = beta d fs := fsub_draw h e

/-- Settles O16: the rounding, that of a rational; the range and the order from those of the exact coefficient; the
values by evaluation. -/
theorem alphaIsTheRoundedCoefficient : Obligations.AlphaIsTheRoundedCoefficient := by
  refine ⟨fun fs hfs => ⟨isRnd32_alpha _, ?_, realValue_alpha_mem_Ioo hfs⟩,
    fun fs fs' _ hle => realValue_alpha_antitone hle, by decide, by decide, by decide, by decide, by decide,
    fun d => ⟨?_, ?_⟩⟩
  · rw [Config.rcNum, Config.rcDen]
    field_simp
    push_cast
    ring
  · exact (beta_draw (d := 0) (by decide) d).trans (by decide)
  · exact (beta_draw (d := 0) (by decide) d).trans (by decide)

/-! ### The command (R221) -/

section Deemph

variable {s : State} {x : List F32}

theorem exec_deemph_accepted (hp : s.payload = .f32 x) (hf : (Payload.f32 x).fits s.maxLen = true) (hr : s.fsIn ≠ 0) :
    exec .deemph s = .next ((deemphBody x s).2.respond (.ok (.f32 (deemphBody x s).1))) := by
  simp only [exec, execDeemph, (s.f32Operand_some x).2 ⟨hp, hf⟩, if_neg hr, completed_eq]

theorem exec_deemph_withoutRate (hk : s.payload.kind = .f32) (hf : s.payload.fits s.maxLen = true) (hr : s.fsIn = 0) :
    exec .deemph s = .next (s.takeFault .config) := by
  obtain ⟨_, -, -, hne, -⟩ | ⟨-, -, -, h⟩ | ⟨hbad, -⟩ := execDeemph_cases s
  · exact absurd hr hne
  · exact h
  · simp [hk, hf] at hbad

theorem exec_deemph_otherPayload (h : s.payload.kind ≠ .f32 ∨ s.payload.fits s.maxLen = false) :
    exec .deemph s = .next (s.takeFault .operandFormat) := by
  simp [exec, execDeemph, s.f32Operand_none.2 h]

/-- DEEMPH sent alone: its body, the port free after it, and one more response. -/
theorem step_offer_deemph (hf : (Payload.f32 x).fits s.maxLen = true) (hr : s.fsIn ≠ 0) :
    step (s.offer .deemph (.f32 x)) =
      .next (withPorts [] (s.responses ++ [.ok (.f32 (deemphBody x s).1)]) (deemphBody x s).2) := by
  rw [step_assemble (s.offer_hostIn _ _), exec_deemph_accepted (s.payload_offer _ _) hf hr]
  rfl

theorem deStart_of_deCont (hc : s.deCont = true) : s.deStart = s.deY := if_pos hc

/-- Output `n` from sample `n` and the output before it, or the start. -/
theorem deemphBody_get {n : Nat} {v before : F32} (hv : x[n]? = some v)
    (hb : (s.deStart :: (deemphBody x s).1)[n]? = some before) : ∃ d₁ d₂ d₃,
    (deemphBody x s).1[n]? = some (fadd d₃ (fmul d₁ (alpha s.fsIn.toNat) v)
      (fmul d₂ (beta s.nanDraws s.fsIn.toNat) before)) :=
  ⟨_, _, _, deemphSeq_get _ _ _ _ _ n v before hv hb⟩

@[simp] theorem deemphBody_length (x : List F32) (s : State) : (deemphBody x s).1.length = x.length :=
  deemphSeq_length _ _ _ _ x

end Deemph

/-- Settles O17: the three ends of the command by its payload and rate; output `n` from the one before it. -/
theorem deemphIsTheRecurrence : Obligations.DeemphIsTheRecurrence := by
  refine ⟨fun s c rest h hop => step_of_opField (i := .deemph) (fun _ => rfl) h hop,
    fun s x a b y d hp hf hr ha hb hy => ?_, fun s => exec_deemph_otherPayload, fun s => exec_deemph_withoutRate⟩
  obtain rfl : y = s.deStart := hy
  have hbeta : beta s.nanDraws s.fsIn.toNat = b := by
    rw [hb, ha]
    exact beta_draw (isNaN_of_isFinite (beta_finite_positive d hr).1) _
  refine ⟨(deemphBody x s).1, (deemphBody x s).2.nanDraws, ?_, deemphBody_length x s,
    fun n v before hv hbefore => ?_⟩
  · rw [exec_deemph_accepted hp hf hr, State.respond_eq, deemphBody_state, List.getLastD_cons]
  · rw [ha, ← hbeta]
    exact deemphBody_get hv hbefore

/-- Settles O48: completing, the command does what its body does; the other way to end is a fault. -/
theorem deemphFrame : Obligations.DeemphFrame := by
  intro s t h
  obtain ⟨u, p, hu, rfl⟩ | ⟨c, rfl⟩ := exec_next h
  · cases hu with
    | deemph x => exact ⟨rfl, .inl rfl⟩
  · exact ⟨rfl, .inr ⟨c, rfl⟩⟩

/-! ### Two payloads in a row (R222) -/

theorem getLastD_append {α : Type} (u v : List α) (a : α) : (u ++ v).getLastD a = v.getLastD (u.getLastD a) := by
  simp only [List.getLastD_eq_getLast?, List.getLast?_append]
  cases v.getLast? <;> rfl

/-- Where `beta` is no NaN its draw does not matter: the body of a concatenation is the two bodies in a row. -/
theorem deemphBody_append {s : State} (x y : List F32) (hc : s.deCont = true) (hr : s.fsIn ≠ 0) :
    deemphBody (x ++ y) s =
      ((deemphBody x s).1 ++ (deemphBody y (deemphBody x s).2).1, (deemphBody y (deemphBody x s).2).2) := by
  have hstart : (deemphBody x s).2.deStart = (deemphBody x s).1.getLastD s.deStart :=
    deStart_of_deCont hc
  have hbeta : beta (deemphBody x s).2.nanDraws s.fsIn.toNat = beta s.nanDraws s.fsIn.toNat :=
    beta_draw (isNaN_of_isFinite (beta_finite_positive _ hr).1) _
  have hout : (deemphBody (x ++ y) s).1 = (deemphBody x s).1 ++ (deemphBody y (deemphBody x s).2).1 :=
    calc (deemphBody (x ++ y) s).1
      _ = (deemphBody x s).1 ++ deemphSeq (alpha s.fsIn.toNat) (beta s.nanDraws s.fsIn.toNat)
          (s.nanDraws + deemphOps * x.length) ((deemphBody x s).1.getLastD s.deStart) y := deemphSeq_append _ _ _ _ x y
      _ = _ := by rw [← hstart, ← hbeta]; rfl
  refine Prod.ext hout ?_
  rw [deemphBody_state (x ++ y), deemphBody_state y, hout, hstart]
  generalize (deemphBody y _).1 = o
  rw [deemphBody_state x, getLastD_append]
  simp [mul_add, add_assoc]

/-- Settles O18: the body of the concatenation is the two bodies one after the other. -/
theorem filterContinuesAcrossASplit : Obligations.FilterContinuesAcrossASplit := by
  intro s x y hc hr hx hy hxy
  refine ⟨_, _, _, _, _, step_offer_deemph hx hr, rfl, step_offer_deemph hy hr, rfl, step_offer_deemph hxy hr,
    ?_, ?_, ?_⟩
  all_goals rw [deemphBody_append x y hc hr, deemphBody_withPorts]; rfl

/-! ### NaNs (R221, 70_reset_and_hazards.md R351) -/

theorem isNaN_fmul {d : Nat} {a b : F32} (h : isNaN a = true ∨ isNaN b = true) : isNaN (fmul d a b) = true := by
  rw [fmul_nan h]; exact isNaN_drawNaN d

theorem isNaN_fadd {d : Nat} {a b : F32} (h : isNaN a = true ∨ isNaN b = true) : isNaN (fadd d a b) = true := by
  rw [fadd_nan h]; exact isNaN_drawNaN d

section Recurrence

variable {a b : F32} {d : Nat} {y v : F32} {x : List F32}

/-- A NaN before the first sample stays. -/
theorem isNaN_of_mem_cons_deemphSeq (hy : isNaN y = true) : ∀ o ∈ y :: deemphSeq a b d y x, isNaN o = true := by
  induction x generalizing d y with
  | nil => simpa [deemphSeq] using hy
  | cons w x ih =>
    intro o ho
    obtain rfl | ho := List.mem_cons.1 ho
    · exact hy
    · exact ih (isNaN_fadd (.inr (isNaN_fmul (.inr hy)))) o ho

/-- A NaN sample makes its output a NaN, which stays. -/
theorem isNaN_deemphSeq_from {n k : Nat} {o : F32} (hx : x[n]? = some v) (hv : isNaN v = true) (hk : n ≤ k)
    (ho : (deemphSeq a b d y x)[k]? = some o) : isNaN o = true := by
  induction x generalizing d y n k with
  | nil => simp at hx
  | cons w x ih =>
    cases n with
    | zero =>
      obtain rfl : w = v := by simpa using hx
      exact isNaN_of_mem_cons_deemphSeq (isNaN_fadd (.inl (isNaN_fmul (.inr hv)))) o (List.mem_of_getElem? ho)
    | succ n =>
      obtain ⟨k, rfl⟩ := Nat.exists_eq_add_of_le' (show 1 ≤ k by omega)
      exact ih (by simpa using hx) (Nat.le_of_succ_le_succ hk) (by simpa [deemphSeq] using ho)

end Recurrence

theorem getElem?_length_sub_one_eq_getLastD {α : Type} {l : List α} (a : α) (h : 0 < l.length) :
    l[l.length - 1]? = some (l.getLastD a) := by
  rw [List.getLastD_eq_getLast?, List.getLast?_eq_getElem?, List.getElem?_eq_getElem (by omega), Option.getD_some]

/-- Settles O19: from the NaN sample on, or from the start, every output is a NaN; DE_Y is the last of them. -/
theorem naNPoisonsTheFilter : Obligations.NaNPoisonsTheFilter := by
  refine ⟨fun s x n v hp hf hr hx hv => ?_, fun s x hp hf hr hc hy => ?_⟩
  · have hlater : ∀ k o, n ≤ k → (deemphBody x s).1[k]? = some o → isNaN o = true :=
      fun k o hk ho => isNaN_deemphSeq_from hx hv hk ho
    have hlen : n < (deemphBody x s).1.length := by
      rw [deemphBody_length]
      exact (List.getElem?_eq_some_iff.1 hx).1
    exact ⟨_, _, exec_deemph_accepted hp hf hr, rfl, hlater,
      hlater _ _ (Nat.le_sub_one_of_lt hlen) (getElem?_length_sub_one_eq_getLastD _ (by omega))⟩
  · have hall := isNaN_of_mem_cons_deemphSeq (a := alpha s.fsIn.toNat) (b := beta s.nanDraws s.fsIn.toNat)
      (d := s.nanDraws) (x := x) (show isNaN s.deStart = true by rwa [deStart_of_deCont hc])
    exact ⟨_, _, exec_deemph_accepted hp hf hr, rfl, fun o ho => hall o (List.mem_cons_of_mem _ ho),
      hall _ List.getLastD_mem_cons⟩

/-! ### The first output (R223) -/

/-- A value is its own rounding. -/
theorem rawMag_unitsOf (m : Nat) : rawMag (unitsOf m) 1 = m := by
  have h := (rawMag_nearest (unitsOf m) one_pos m).1
  rw [Nat.cast_one, mul_one, mul_one, sub_self, abs_zero, abs_nonpos_iff, sub_eq_zero] at h
  exact unitsOf_strictMono.injective (by exact_mod_cast h)

theorem eq_posZero_or_negZero {v : F32} (h : magBits v = 0) : v = 0 ∨ v = 0x80000000 := by
  cases hs : signBit v with
  | false => exact .inl (eq_of_sign_mag (hs.trans (by decide)) (h.trans (by decide)))
  | true => exact .inr ((eq_negZero_iff v).2 ⟨hs, h⟩)

/-- The sign and the magnitude a number of units is rounded from are those of the value. -/
theorem sign_natAbs_signedUnits {v : F32} (h : magBits v ≠ 0) :
    decide (signedUnits v < 0) = signBit v ∧ (signedUnits v).natAbs = unitsOf (magBits v) := by
  have hpos : unitsOf (magBits v) ≠ 0 := unitsOf_eq_zero.not.2 h
  rw [signedUnits, magUnits_eq]
  cases signBit v with
  | false => simp
  | true => simpa using hpos.bot_lt

/-- Adding `+0` changes `-0` alone. -/
theorem fadd_posZero (d : Nat) {v : F32} (h : isFinite v = true) :
    fadd d v 0 = if v = 0x80000000 then 0 else v := by
  by_cases h0 : magBits v = 0
  · obtain rfl | rfl := eq_posZero_or_negZero h0 <;> rfl
  · have hzero : signedUnits 0 = 0 := by decide
    obtain ⟨hsign, habs⟩ := sign_natAbs_signedUnits h0
    rw [fadd_finite h (by decide), hzero, add_zero, if_neg (signedUnits_eq_zero_iff.not.2 h0), hsign, habs, roundMag_eq,
      rawMag_unitsOf, min_eq_left (isFinite_iff.1 h).le, packMag_self, if_neg fun hv => h0 ((eq_negZero_iff v).1 hv).2]

theorem abs_realValue_lt_cut {v : F32} (h : isFinite v = true) : |realValue v| < (2 : ℝ) ^ 128 - 2 ^ 103 := by
  have hcut := cut_le_iff (unitsOf (magBits v)) one_pos
  rw [Nat.cast_one, div_one, rawMag_unitsOf] at hcut
  rw [realValue_eq_sgn_mul, abs_mul, abs_sgn, one_mul, abs_of_nonneg (by positivity), ← not_le, hcut, not_le]
  exact isFinite_iff.1 h

/-- A factor of magnitude at most 1 takes no finite value past the greatest one. -/
theorem isFinite_fmul_of_abs_le_one (d : Nat) {a v : F32} (ha : isFinite a = true) (hv : isFinite v = true)
    (hle : |realValue a| ≤ 1) : isFinite (fmul d a v) = true := by
  by_cases h : realValue a * realValue v = 0
  · rw [fmul_zero ha hv h]
    split <;> decide
  · refine isFinite_of_isRnd32 (fmul_rounds ha hv h) (lt_of_le_of_lt ?_ (abs_realValue_lt_cut hv))
    rw [abs_mul]
    exact mul_le_of_le_one_left (abs_nonneg _) hle

/-- `beta` times `+0` is `+0`. -/
theorem fmul_beta_posZero (d e : Nat) {fs : Word} (h : fs ≠ 0) : fmul d (beta e fs.toNat) 0 = 0 := by
  obtain ⟨hfin, hsign⟩ := beta_finite_positive e h
  rw [fmul_zero hfin (by decide) (by rw [realValue_posZero, mul_zero]), if_pos (hsign.trans (by decide))]

/-- Settles O20: the other product is `+0`, which changes no finite product but `-0`. -/
theorem firstFilterOutputIsAlphaTimesInput : Obligations.FirstFilterOutputIsAlphaTimesInput := by
  intro s v rest hp hf hv hr hstart
  have hzero : s.deStart = 0 := by
    unfold State.deStart
    obtain hc | hy := hstart
    · exact if_neg (by rw [State.deCont, hc]; decide)
    · rw [hy, ite_self]
  obtain ⟨hpos, hlt⟩ := realValue_alpha_mem_Ioo hr
  have hfin := isFinite_fmul_of_abs_le_one s.nanDraws (isFinite_alpha s.fsIn.toNat) hv (abs_le.2 ⟨by linarith, hlt.le⟩)
  refine ⟨_, _, _, exec_deemph_accepted hp hf hr, rfl, deemphSeq_length _ _ _ _ rest, ?_⟩
  rw [hzero, fmul_beta_posZero _ _ hr, fadd_posZero _ hfin]

end Sys2Proof.Proofs

/-! Interpolation at a cursor, 45_resampler.md R240: the range of `frac`, the factors 1 and 0 of a whole position, and
results that are no NaN, which do not depend on the draws. -/

namespace Sys2Proof.Proofs

open Sys2Proof Sys2Proof.Machine

/-! ### The fraction -/

section Frac

variable {fo : Nat} (c : Nat)

theorem isRnd32_interpFrac (hfo : 0 < fo) : IsRnd32 (((c % fo : Nat) : ℝ) / fo) (interpFrac fo c) := by
  have h := roundingIsNearestEven false (c % fo) fo hfo
  rwa [if_neg Bool.false_ne_true, one_mul] at h

theorem isRnd32_one : IsRnd32 1 one := by
  have h := roundingIsNearestEven false 1 1 one_pos
  have hone : rnd32 false 1 1 = one := by decide
  rwa [hone, if_neg Bool.false_ne_true, Nat.cast_one, div_one, one_mul] at h

/-- The exact fraction is at least one step of `1 / FS_OUT` below 1. -/
theorem fraction_le (hfo : 0 < fo) : ((c % fo : Nat) : ℝ) / fo ≤ 1 - 1 / fo := by
  have hpos : (0 : ℝ) < fo := by exact_mod_cast hfo
  have hle : ((c % fo : Nat) : ℝ) + 1 ≤ fo := by exact_mod_cast Nat.mod_lt c hfo
  rw [le_sub_iff_add_le, ← add_div, div_le_one hpos]
  exact hle

theorem fraction_lt_one (hfo : 0 < fo) : ((c % fo : Nat) : ℝ) / fo < 1 :=
  (fraction_le c hfo).trans_lt (sub_lt_self _ (by positivity))

theorem abs_fraction_le_one (hfo : 0 < fo) : |((c % fo : Nat) : ℝ) / fo| ≤ 1 := by
  rw [abs_of_nonneg (by positivity)]
  exact (fraction_lt_one c hfo).le

theorem isFinite_interpFrac (hfo : 0 < fo) : isFinite (interpFrac fo c) = true :=
  isFinite_of_isRnd32 (isRnd32_interpFrac c hfo) (abs_lt_cut_of_abs_le_one (abs_fraction_le_one c hfo))

theorem signBit_interpFrac : signBit (interpFrac fo c) = false := by
  unfold interpFrac rnd32
  split
  case isTrue => decide
  case isFalse => exact signBit_packMag false (roundMag_lt _ _)

theorem realValue_interpFrac_le_one (hfo : 0 < fo) : realValue (interpFrac fo c) ≤ 1 := by
  have hcut := abs_lt_cut_of_abs_le_one (r := 1) (by simp)
  rw [← realValue_one]
  exact realValue_le_of_isRnd32 (isRnd32_interpFrac c hfo) isRnd32_one
    (abs_lt_cut_of_abs_le_one (abs_fraction_le_one c hfo)) hcut (fraction_lt_one c hfo)

/-- The value before 1.0 is `1 - 2^-24`; a fraction that rounds up to 1.0 is past the middle, `1 - 2^-25`. -/
theorem le_of_interpFrac_eq_one (hfo : 0 < fo) (h : interpFrac fo c = one) : 2 ^ 25 ≤ fo := by
  have hpos : (0 : ℝ) < fo := by exact_mod_cast hfo
  have hbelow : realValue 0x3F7FFFFF = 1 - 1 / 2 ^ 24 := by
    rw [realValue_of_signedUnits (n := (2 ^ 24 - 1) * 2 ^ 125) (by decide)]; norm_num
  obtain ⟨-, -, -, hnear⟩ := isRnd32_interpFrac c hfo
  have hle := ((hnear (abs_lt_cut_of_abs_le_one (abs_fraction_le_one c hfo))).2 0x3F7FFFFF (by decide)).1
  rw [h, realValue_one, hbelow, abs_of_pos (sub_pos.2 (fraction_lt_one c hfo))] at hle
  have hmid : (1 : ℝ) - 1 / 2 ^ 25 ≤ ((c % fo : Nat) : ℝ) / fo := by
    rcases abs_cases ((1 : ℝ) - 1 / 2 ^ 24 - ((c % fo : Nat) : ℝ) / fo) with ⟨habs, -⟩ | ⟨habs, -⟩ <;> linarith
  have hstep : (1 : ℝ) / fo ≤ 1 / 2 ^ 25 := by linarith [fraction_le c hfo]
  exact_mod_cast (one_div_le_one_div hpos (by positivity)).1 hstep

end Frac

/-! ### A whole position: the factors are 1 and `+0` -/

section Whole

variable {d : Nat} {u v : F32}

theorem isInf_of_not_isFinite (hn : isNaN u = false) (hf : ¬ isFinite u = true) : isInf u = true :=
  isInf_iff.2 (le_antisymm (not_lt.1 (of_decide_eq_false hn)) (not_lt.1 (mt isFinite_iff.2 hf)))

theorem fsub_one_posZero (d : Nat) : fsub d one 0 = one :=
  (fsub_draw (d := 0) (by decide) d).trans (by decide)

/-- `rawMag_unitsOf` over every divisor. -/
theorem rawMag_unitsOf_mul (m : Nat) {den : Nat} (hden : 0 < den) : rawMag (unitsOf m * den) den = m := by
  have h := (rawMag_nearest (unitsOf m * den) hden m).1
  have hden' : (den : Int) ≠ 0 := by exact_mod_cast hden.ne'
  rw [Nat.cast_mul, sub_self, abs_zero, abs_nonpos_iff, sub_eq_zero] at h
  exact unitsOf_strictMono.injective (by exact_mod_cast mul_right_cancel₀ hden' h)

/-- 1.0 times a value that is no NaN is that value. -/
theorem fmul_one (d : Nat) (h : isNaN u = false) : fmul d u one = u := by
  have hone : unitsOf (magBits one) = 2 ^ 149 := by decide
  have hsign : (signBit u ^^ signBit one) = signBit u := by rw [show signBit one = false by decide, Bool.xor_false]
  by_cases hfin : isFinite u = true
  · rw [fmul_finite hfin (by decide), hone, roundMag_eq, rawMag_unitsOf_mul _ (by positivity),
      min_eq_left (isFinite_iff.1 hfin).le, hsign, packMag_self]
  · have hinf := isInf_of_not_isFinite h hfin
    rw [fmul_inf hinf (by decide), if_neg (by decide), hsign, ← isInf_iff.1 hinf, packMag_self]

theorem fmul_posZero (d : Nat) (h : isFinite v = true) : fmul d v 0 = if signBit v then 0x80000000 else 0 := by
  rw [fmul_zero h (by decide) (by rw [realValue_posZero, mul_zero]), show signBit 0 = false by decide]
  cases signBit v <;> rfl

/-- Adding `-0` changes nothing. -/
theorem fadd_negZero (d : Nat) (h : isFinite u = true) : fadd d u 0x80000000 = u := by
  by_cases h0 : magBits u = 0
  · obtain rfl | rfl := eq_posZero_or_negZero h0 <;> rfl
  · have hzero : signedUnits 0x80000000 = signedUnits 0 := by decide
    have hne : signedUnits u + signedUnits 0 ≠ 0 := by
      rw [show signedUnits 0 = 0 by decide, add_zero]
      exact signedUnits_eq_zero_iff.not.2 h0
    have hu : u ≠ 0x80000000 := fun hu => h0 ((eq_negZero_iff u).1 hu).2
    calc fadd d u 0x80000000
      _ = fadd d u 0 := by rw [fadd_finite h (by decide), fadd_finite h (by decide), hzero, if_neg hne, if_neg hne]
      _ = u := by rw [fadd_posZero d h, if_neg hu]

/-- The sum at a whole position before a finite value: the left value, but for `-0` and a right product of `+0`. -/
theorem fadd_fmul_posZero (d e : Nat) (hv : isFinite v = true) (hu : isNaN u = false) :
    fadd d u (fmul e v 0) = if u = 0x80000000 ∧ signBit v = false then 0 else u := by
  rw [fmul_posZero e hv]
  by_cases hfin : isFinite u = true
  · cases signBit v with
    | false => simpa using fadd_posZero d hfin
    | true => simpa using fadd_negZero d hfin
  · have hne : u ≠ 0x80000000 := fun h => hfin (h ▸ by decide)
    rw [fadd_inf_finite (isInf_of_not_isFinite hu hfin) (by split <;> decide), if_neg fun h => hne h.1]

/-- An infinity or a NaN times `+0` is a NaN. -/
theorem isNaN_fmul_posZero (d : Nat) (h : isFinite v = false) : isNaN (fmul d v 0) = true := by
  cases hn : isNaN v with
  | true => exact isNaN_fmul (.inl hn)
  | false =>
    rw [fmul_inf (isInf_of_not_isFinite hn (by simp [h])) (by decide), if_pos (by decide)]
    exact isNaN_drawNaN d

end Whole

/-! ### `interp` -/

section Interp

variable {d fo c : Nat} {w : List F32} {u v : F32}

theorem interp_eq (d : Nat) (hu : w[c / fo]? = some u) (hv : w[c / fo + 1]? = some v) :
    interp d fo w c =
      fadd (d + 3) (fmul (d + 1) u (fsub d one (interpFrac fo c))) (fmul (d + 2) v (interpFrac fo c)) := by
  rw [interp, List.getD_eq_getElem?_getD, hu, List.getD_eq_getElem?_getD, hv]
  rfl

theorem interp_whole (d : Nat) (hu : w[c / fo]? = some u) (hv : w[c / fo + 1]? = some v) (h : interpFrac fo c = 0) :
    interp d fo w c = fadd (d + 3) (fmul (d + 1) u one) (fmul (d + 2) v 0) := by
  rw [interp_eq d hu hv, h, fsub_one_posZero]

/-- At a whole position before a finite value, the left value, but for `-0` before a value with sign bit 0. -/
theorem interp_whole_finite (d : Nat) (hu : w[c / fo]? = some u) (hv : w[c / fo + 1]? = some v)
    (h : interpFrac fo c = 0) (hfin : isFinite v = true) (hnan : isNaN u = false) :
    interp d fo w c = if u = 0x80000000 ∧ signBit v = false then 0 else u := by
  rw [interp_whole d hu hv h, fmul_one _ hnan, fadd_fmul_posZero _ _ hfin hnan]

theorem isNaN_interp_whole (d : Nat) (hu : w[c / fo]? = some u) (hv : w[c / fo + 1]? = some v)
    (h : interpFrac fo c = 0) (hbad : isFinite v = false ∨ isNaN u = true) : isNaN (interp d fo w c) = true := by
  rw [interp_whole d hu hv h]
  exact isNaN_fadd (hbad.symm.imp (fun hu => isNaN_fmul (.inl hu)) (isNaN_fmul_posZero _))

/-- An interpolated value that is no NaN does not depend on the draws: neither do the operations it comes from. -/
theorem interp_draw (h : isNaN (interp d fo w c) = false) (e : Nat) : interp e fo w c = interp d fo w c := by
  have hleft : isNaN (fmul (d + 1) (w.getD (c / fo) 0) (fsub d one (interpFrac fo c))) = false :=
    Bool.eq_false_iff.2 fun hn => absurd (isNaN_fadd (.inl hn)) (Bool.eq_false_iff.1 h)
  have hright : isNaN (fmul (d + 2) (w.getD (c / fo + 1) 0) (interpFrac fo c)) = false :=
    Bool.eq_false_iff.2 fun hn => absurd (isNaN_fadd (.inr hn)) (Bool.eq_false_iff.1 h)
  have hrest : isNaN (fsub d one (interpFrac fo c)) = false :=
    Bool.eq_false_iff.2 fun hn => absurd (isNaN_fmul (.inr hn)) (Bool.eq_false_iff.1 hleft)
  rw [interp, fsub_draw hrest e, fmul_draw hleft (e + 1), fmul_draw hright (e + 2)]
  exact fadd_draw h (e + 3)

end Interp

/-- Settles O21: the bounds of `frac` from those of the exact fraction; a whole position multiplies by 1 and by `+0`. -/
theorem interpolationIsTheFormulaOfTheRule : Obligations.InterpolationIsTheFormulaOfTheRule := by
  refine ⟨fun fo c hfo => ⟨isRnd32_interpFrac c hfo, isFinite_interpFrac c hfo, signBit_interpFrac c,
    realValue_interpFrac_le_one c hfo, le_of_interpFrac_eq_one c hfo⟩, fun d fo c w u v _ hu hv => ?_⟩
  refine ⟨⟨d, d + 1, d + 2, d + 3, interp_eq d hu hv⟩, fun h => ⟨fun hfin hneg hsign => ?_, fun hfin hnan hne => ?_,
    isNaN_interp_whole d hu hv h⟩⟩
  · rw [interp_whole_finite d hu hv h hfin (hneg ▸ by decide), if_pos ⟨hneg, hsign⟩]
  · rw [interp_whole_finite d hu hv h hfin hnan, if_neg hne]

end Sys2Proof.Proofs

/-! RESAMPLE, 45_resampler.md: the ends of the command, and the buffer-local algorithm, on constant input too. -/

namespace Sys2Proof.Proofs

open Sys2Proof Sys2Proof.Machine

/-! ### The command (R243) -/

section Resample

variable {s : State} {x : List F32}

/-- The word of R241 and R242 on the port. -/
theorem step_resample_word (s : State) (p : Payload) (rest : List HostInput)
    (h : s.hostIn = .command ⟨0x00000006, p⟩ :: rest) : step s = exec .resample s ∧ s.payload = p :=
  stepRunsTheDecodedCommand s _ rest .resample h (decodeWord_encode .resample)

theorem exec_resample_accepted (hp : s.payload = .f32 x) (hf : (Payload.f32 x).fits s.maxLen = true)
    (hin : s.fsIn ≠ 0) (hout : s.fsOut ≠ 0) :
    exec .resample s = .next ((resampleBody x s).2.respond (.ok (.f32 (resampleBody x s).1))) := by
  simp only [exec, execResample, (s.f32Operand_some x).2 ⟨hp, hf⟩, hin, hout, or_self, if_false, completed_eq]

theorem exec_resample_withoutRate (hk : s.payload.kind = .f32) (hf : s.payload.fits s.maxLen = true)
    (hr : s.fsIn = 0 ∨ s.fsOut = 0) : exec .resample s = .next (s.takeFault .config) := by
  obtain ⟨_, -, -, hin, hout, -⟩ | ⟨-, -, -, h⟩ | ⟨hbad, -⟩ := execResample_cases s
  · exact absurd hr (not_or.2 ⟨hin, hout⟩)
  · exact h
  · simp [hk, hf] at hbad

theorem exec_resample_otherPayload (h : s.payload.kind ≠ .f32 ∨ s.payload.fits s.maxLen = false) :
    exec .resample s = .next (s.takeFault .operandFormat) := by
  simp [exec, execResample, s.f32Operand_none.2 h]

theorem resampleBody_responses (x : List F32) (s : State) : (resampleBody x s).2.responses = s.responses := by
  rw [resampleBody_state]

/-- RESAMPLE sent alone: its body, the port free after it, and one more response. -/
theorem step_offer_resample (hf : (Payload.f32 x).fits s.maxLen = true) (hin : s.fsIn ≠ 0) (hout : s.fsOut ≠ 0) :
    step (s.offer .resample (.f32 x)) =
      .next (withPorts [] (s.responses ++ [.ok (.f32 (resampleBody x s).1)]) (resampleBody x s).2) := by
  have hports : s.offer .resample (.f32 x) = withPorts [.command (assemble .resample (.f32 x))] s.responses s := rfl
  rw [step_assemble (s.offer_hostIn _ _), exec_resample_accepted (s.payload_offer _ _) hf hin hout, hports,
    resampleBody_withPorts]
  rfl

end Resample

/-- Settles O25: the three ends of the command by its payload and rates. -/
theorem resampleFaultsAsTheRuleSays : Obligations.ResampleFaultsAsTheRuleSays := by
  refine ⟨fun s c rest h hop => step_of_opField (i := .resample) (fun _ => rfl) h hop,
    fun s => exec_resample_otherPayload, fun s => exec_resample_withoutRate, fun s hk hf hin hout => ?_⟩
  obtain ⟨x, hx⟩ : ∃ x, s.payload = .f32 x := by
    cases hp : s.payload with
    | f32 x => exact ⟨x, rfl⟩
    | none | word | bytes | iq => simp [hp, Payload.kind] at hk
  exact ⟨_, _, exec_resample_accepted hx (hx ▸ hf) hin hout, by rw [State.respond_responses, resampleBody_responses]⟩

/-- Settles O49: completing, the command does what its body does; the other way to end is a fault. -/
theorem resampleFrame : Obligations.ResampleFrame := by
  intro s t h
  obtain ⟨u, p, hu, rfl⟩ | ⟨c, rfl⟩ := exec_next h
  · cases hu with
    | resample x =>
      exact ⟨by rw [resampleBody_state]; rfl, resampleBody_cursor s x, .inl (by rw [resampleBody_state]; rfl)⟩
  · exact ⟨rfl, fun _ => ⟨rfl, rfl, rfl⟩, .inr ⟨c, rfl⟩⟩

/-! ### The buffer-local algorithm (R241) -/

section Local

variable {fi fo d : Nat} {x : List F32}

@[simp] theorem resampleLocal_length (d fi fo : Nat) (x : List F32) :
    (resampleLocal d fi fo x).length = x.length * fo / fi := by
  rw [resampleLocal, List.length_map, List.length_range]

theorem resampleLocal_get {i : Nat} (h : i < x.length * fo / fi) :
    (resampleLocal d fi fo x)[i]? = some (localSample d fi fo x i) := by
  simp [resampleLocal, h]

/-- Output `i` is read at a sample of the payload. -/
theorem local_index_lt {i n : Nat} (hfo : 0 < fo) (h : i < n * fo / fi) : i * fi / fo < n := by
  have hfi : 0 < fi := Nat.pos_of_ne_zero fun h0 => by simp [h0] at h
  have hle : (i + 1) * fi ≤ n * fo := (Nat.le_div_iff_mul_le hfi).1 h
  rw [Nat.div_lt_iff_lt_mul hfo]
  linarith

theorem resampleLocal_get_interp {i : Nat} (h : i < x.length * fo / fi) (hi : i * fi / fo + 1 < x.length) :
    (resampleLocal d fi fo x)[i]? = some (interp (d + interpOps * i) fo x (i * fi)) := by
  rw [resampleLocal_get h, localSample, if_pos hi]

theorem resampleLocal_get_clamp {i : Nat} (h : i < x.length * fo / fi) (hi : x.length ≤ i * fi / fo + 1) :
    (resampleLocal d fi fo x)[i]? = x[x.length - 1]? := by
  have hpos : 0 < x.length := Nat.pos_of_ne_zero fun h0 => by simp [h0] at h
  rw [resampleLocal_get h, localSample, if_neg (not_lt.2 hi), List.getD_eq_getElem _ _ (by omega),
    List.getElem?_eq_getElem (by omega)]

theorem exec_resample_local {s : State} (hp : s.payload = .f32 x) (hf : (Payload.f32 x).fits s.maxLen = true)
    (hin : s.fsIn ≠ 0) (hout : s.fsOut ≠ 0) (hc : s.mode.getLsbD 1 = false) :
    exec .resample s = .next ((s.drew (interpOps * (x.length * s.fsOut.toNat / s.fsIn.toNat))).respond
      (.ok (.f32 (resampleLocal s.nanDraws s.fsIn.toNat s.fsOut.toNat x)))) := by
  have hbody : (resampleBody x s).1 = resampleLocal s.nanDraws s.fsIn.toNat s.fsOut.toNat x := by
    rw [resampleBody, State.rsCont, hc, if_neg Bool.false_ne_true]
  rw [exec_resample_accepted hp hf hin hout, resampleBody_local x s hc, hbody, resampleLocal_length]

end Local

/-- Settles O22: the one end of the command; output `i` by whether its position has a right neighbour. -/
theorem localResampleRestartsEachPayload : Obligations.LocalResampleRestartsEachPayload := by
  refine ⟨step_resample_word, fun s x fi fo hp hf hin hout hc hfi hfo => ?_⟩
  subst hfi hfo
  have hpos := BitVec.toNat_pos_of_ne_zero hout
  refine ⟨_, _, exec_resample_local hp hf hin hout hc, resampleLocal_length _ _ _ _, fun i hi => ?_⟩
  exact ⟨Nat.le_sub_one_of_lt (local_index_lt hpos hi), fun h => ⟨_, resampleLocal_get_interp hi h⟩,
    fun h => resampleLocal_get_clamp hi h.ge⟩

/-! ### Constant input (R246) -/

/-- A constant finite input gives its value where the position is whole or clamped. -/
theorem resampleLocal_replicate {d fi fo n i : Nat} {v o : F32} (hv : isFinite v = true) (hne : v ≠ 0x80000000)
    (ho : (resampleLocal d fi fo (List.replicate n v))[i]? = some o)
    (h : interpFrac fo (i * fi) = 0 ∨ n ≤ i * fi / fo + 1) : o = v := by
  have hi : i < (List.replicate n v).length * fo / fi := by
    rw [← resampleLocal_length d]
    exact (List.getElem?_eq_some_iff.1 ho).1
  have hget : ∀ {k}, k < n → (List.replicate n v)[k]? = some v := fun hk => by simp [hk]
  by_cases hin : i * fi / fo + 1 < n
  · have hwhole := h.resolve_right (not_le.2 hin)
    rw [resampleLocal_get_interp hi (by simpa using hin),
      interp_whole_finite _ (hget (by omega)) (hget hin) hwhole hv (isNaN_of_isFinite hv),
      if_neg fun h => hne h.1] at ho
    exact (Option.some.inj ho).symm
  · have hn : n ≠ 0 := fun h0 => by simp [h0] at hi
    rw [resampleLocal_get_clamp hi (by simpa using hin), List.length_replicate, hget (by omega)] at ho
    exact (Option.some.inj ho).symm

/-- Settles O23: whole and clamped positions; the three values by evaluation, no NaN and so the same with every draw. -/
theorem constantInputStaysConstantAtWholePositions : Obligations.ConstantInputStaysConstantAtWholePositions := by
  refine ⟨fun s n fi fo v hp hf hin hout hc hv hne hfi hfo => ?_, fun d => ⟨?_, ?_, ?_⟩⟩
  · subst hfi hfo
    refine ⟨_, _, exec_resample_local hp hf hin hout hc, rfl, by simp, fun i o ho => ?_⟩
    exact resampleLocal_replicate hv hne ho
  all_goals exact (interp_draw (d := 0) (by decide) d).trans (by decide)

end Sys2Proof.Proofs

/-! RESAMPLE with RS_CONT = 1, 45_resampler.md R242: how many outputs a payload has, and one command: its outputs, the
cursor and the lookback it leaves, from any state. -/

namespace Sys2Proof.Proofs

open Sys2Proof Sys2Proof.Machine

/-! ### The number of outputs -/

section Turns

variable {fi fo n m c t : Nat}

/-- The loop stops at the first cursor that has no right neighbour. -/
theorem loopTurns_le_iff (hfi : 0 < fi) : loopTurns fi fo n c ≤ t ↔ (n - 1) * fo ≤ c + t * fi := by
  rw [loopTurns, ← Nat.lt_succ_iff, Nat.div_lt_iff_lt_mul hfi, Nat.succ_mul]
  omega

theorem lt_loopTurns_iff (hfi : 0 < fi) : t < loopTurns fi fo n c ↔ c + t * fi < (n - 1) * fo := by
  rw [← not_le, loopTurns_le_iff hfi, not_le]

theorem loopTurns_mono (hfi : 0 < fi) (h : n ≤ m) : loopTurns fi fo n c ≤ loopTurns fi fo m c :=
  (loopTurns_le_iff hfi).2
    ((Nat.mul_le_mul_right fo (Nat.sub_le_sub_right h 1)).trans ((loopTurns_le_iff hfi).1 le_rfl))

theorem loopTurns_zero (hfi : 0 < fi) : loopTurns fi fo 0 c = 0 :=
  loopTurns_stop (by simp) hfi

end Turns

/-! ### One command (R242) -/

/-- The resampler's lookback sample, where it is valid. -/
def lookback (s : State) : Option F32 := if s.rsLbv then some s.rsLb else none

section Lookback

variable {s : State}

theorem lookback_eq_some_iff {v : F32} : lookback s = some v ↔ s.rsLbv = true ∧ s.rsLb = v := by
  unfold lookback; cases s.rsLbv <;> simp

theorem lookback_eq_none_iff : lookback s = none ↔ s.rsLbv = false := by
  unfold lookback; cases s.rsLbv <;> simp

/-- A lookback that is the last of some samples is valid and holds it. -/
theorem lookback_valid {w : List F32} (h : lookback s = w.getLast?) (hw : w ≠ []) :
    w.getLast? = some s.rsLb ∧ s.rsLbv = true := by
  obtain ⟨v, hv⟩ := Option.ne_none_iff_exists'.1 (mt List.getLast?_eq_none_iff.1 hw)
  obtain ⟨hlbv, hlb⟩ := lookback_eq_some_iff.1 (h.trans hv)
  exact ⟨hv.trans (congrArg some hlb.symm), hlbv⟩

theorem resampleInput_eq (s : State) (x : List F32) : s.resampleInput x = (lookback s).toList ++ x := by
  unfold State.resampleInput lookback; cases s.rsLbv <;> rfl

end Lookback

/-- The number of turns of the loop over payload `x`. -/
def turns (s : State) (x : List F32) : Nat :=
  loopTurns s.fsIn.toNat s.fsOut.toNat (s.resampleInput x).length s.rsNum.toNat

/-- Output `k` of payload `x`. -/
def contSample (s : State) (x : List F32) (k : Nat) : F32 :=
  interp (s.nanDraws + interpOps * k) s.fsOut.toNat (s.resampleInput x) (s.rsNum.toNat + k * s.fsIn.toNat)

section Continuous

variable {s : State} (x : List F32)

theorem resampleInput_eq_nil_iff : s.resampleInput x = [] ↔ lookback s = none ∧ x = [] := by
  rw [resampleInput_eq, List.append_eq_nil_iff, Option.toList_eq_nil_iff]

theorem resampleBody_of_empty (hc : s.rsCont = true) (hw : s.resampleInput x = []) : resampleBody x s = ([], s) := by
  rw [resampleBody, if_pos hc, resampleCont, if_pos hw]

theorem resampleBody_of_nonempty (hc : s.rsCont = true) (hfi : 0 < s.fsIn.toNat) (hfo : 0 < s.fsOut.toNat)
    (hw : s.resampleInput x ≠ []) :
    resampleBody x s =
      ((List.range (turns s x)).map (contSample s x),
        { s with
            rsNum := BitVec.ofNat 32
              (s.rsNum.toNat + turns s x * s.fsIn.toNat - ((s.resampleInput x).length - 1) * s.fsOut.toNat),
            rsLb := (s.resampleInput x).getD ((s.resampleInput x).length - 1) 0,
            rsLbv := true }.drew (interpOps * turns s x)) := by
  rw [resampleBody, if_pos hc, resampleCont, if_neg hw, resampleLoop_eq hfi hfo _ _ _ _ (loopTurns_le _ _ _ _ hfi)]
  simp only [List.length_map, List.length_range]
  rfl

/-- An output for every cursor that has a right neighbour. -/
theorem resampleBody_outputs (hc : s.rsCont = true) (hfi : 0 < s.fsIn.toNat) (hfo : 0 < s.fsOut.toNat) :
    (resampleBody x s).1 = (List.range (turns s x)).map (contSample s x) := by
  by_cases hw : s.resampleInput x = []
  · rw [resampleBody_of_empty x hc hw, turns, hw, List.length_nil, loopTurns_zero hfi]
    rfl
  · rw [resampleBody_of_nonempty x hc hfi hfo hw]

theorem resampleBody_get (hc : s.rsCont = true) (hfi : 0 < s.fsIn.toNat) (hfo : 0 < s.fsOut.toNat) {k : Nat}
    (hk : k < turns s x) : (resampleBody x s).1[k]? = some (contSample s x k) := by
  simp [resampleBody_outputs x hc hfi hfo, hk]

/-- The cursor is carried relative to the last sample; it fits in its 32 bits (R244 (a)). -/
theorem resampleBody_carries_cursor (hc : s.rsCont = true) (hfi : 0 < s.fsIn.toNat) (hfo : 0 < s.fsOut.toNat) :
    (resampleBody x s).2.rsNum.toNat + ((s.resampleInput x).length - 1) * s.fsOut.toNat =
      s.rsNum.toNat + turns s x * s.fsIn.toNat := by
  by_cases hw : s.resampleInput x = []
  · rw [resampleBody_of_empty x hc hw, turns, hw, List.length_nil, loopTurns_zero hfi]
    simp
  · have hfits : max s.fsIn.toNat (s.rsNum.toNat + 1) ≤ 2 ^ 32 := max_le s.fsIn.isLt.le s.rsNum.isLt
    have hlt : s.rsNum.toNat + turns s x * s.fsIn.toNat - ((s.resampleInput x).length - 1) * s.fsOut.toNat < 2 ^ 32 :=
      (loopTurns_bound _ _ _ _ hfi).trans_le hfits
    rw [resampleBody_of_nonempty x hc hfi hfo hw, State.drew_rsNum, BitVec.toNat_ofNat, Nat.mod_eq_of_lt hlt]
    exact Nat.sub_add_cancel (loopTurns_reaches _ _ _ _ hfi)

/-- The lookback left is the last of the samples interpolated. -/
theorem lookback_resampleBody (hc : s.rsCont = true) (hfi : 0 < s.fsIn.toNat) (hfo : 0 < s.fsOut.toNat) :
    lookback (resampleBody x s).2 = (s.resampleInput x).getLast? := by
  by_cases hw : s.resampleInput x = []
  · rw [resampleBody_of_empty x hc hw, hw, ((resampleInput_eq_nil_iff x).1 hw).1, List.getLast?_nil]
  · have hpos := List.length_pos_iff.2 hw
    rw [resampleBody_of_nonempty x hc hfi hfo hw, List.getLast?_eq_getElem?, List.getElem?_eq_getElem (by omega),
      ← List.getD_eq_getElem _ 0 (by omega)]
    rfl

theorem contSample_has_right_neighbour (hfi : 0 < s.fsIn.toNat) (hfo : 0 < s.fsOut.toNat) {k : Nat}
    (hk : k < turns s x) : (s.rsNum.toNat + k * s.fsIn.toNat) / s.fsOut.toNat + 1 < (s.resampleInput x).length :=
  (has_right_neighbour hfo _ _).2 ((lt_loopTurns_iff hfi).1 hk)

theorem length_le_of_turns (hfi : 0 < s.fsIn.toNat) (hfo : 0 < s.fsOut.toNat) :
    (s.resampleInput x).length ≤ (s.rsNum.toNat + turns s x * s.fsIn.toNat) / s.fsOut.toNat + 1 :=
  not_lt.1 fun h => not_lt.2 (loopTurns_reaches _ _ _ _ hfi) ((has_right_neighbour hfo _ _).1 h)

end Continuous

/-- Settles O24: the cursors with a right neighbour are those of the loop's turns. -/
theorem continuousResampleCarriesTheCursor : Obligations.ContinuousResampleCarriesTheCursor := by
  refine ⟨step_resample_word, fun s x w fi fo hp hf hin hout hc hfi hfo hw => ?_⟩
  obtain rfl : w = s.resampleInput x := hw
  subst hfi hfo
  have hfi := BitVec.toNat_pos_of_ne_zero hin
  have hfo := BitVec.toNat_pos_of_ne_zero hout
  refine ⟨fun hnil => ?_, fun hw => ?_⟩
  · rw [exec_resample_accepted hp hf hin hout, resampleBody_of_empty x hc hnil, State.respond_eq]
  · have hlen : (resampleBody x s).1.length = turns s x := by
      rw [resampleBody_outputs x hc hfi hfo, List.length_map, List.length_range]
    obtain ⟨hlb, hlbv⟩ := lookback_valid (lookback_resampleBody x hc hfi hfo) hw
    refine ⟨(resampleBody x s).1, (resampleBody x s).2.rsNum, _, (resampleBody x s).2.nanDraws, ?_, hlb, ?_, ?_,
      fun k hk => ⟨?_, _, resampleBody_get x hc hfi hfo (hlen ▸ hk)⟩⟩
    · rw [exec_resample_accepted hp hf hin hout, State.respond_eq, ← hlbv, resampleBody_state]
    · rw [hlen]; exact resampleBody_carries_cursor x hc hfi hfo
    · rw [hlen]; exact length_le_of_turns x hfi hfo
    · exact contSample_has_right_neighbour x hfi hfo (hlen ▸ hk)

end Sys2Proof.Proofs

/-! Sessions of RESAMPLE commands, 45_resampler.md R244: the resampler state as a function of all the samples put in
since it was reset (`Fed`), and the outputs as one interpolation of them (`streamOut`). -/

namespace Sys2Proof.Proofs

open Sys2Proof Sys2Proof.Machine

/-! ### Interpolation over a part of a sequence -/

section Part

variable {d fo c : Nat} {u w : List F32}

theorem interp_append_left (hfo : 0 < fo) : interp d fo (u ++ w) (u.length * fo + c) = interp d fo w c := by
  have hidx : (u.length * fo + c) / fo = u.length + c / fo := by
    rw [Nat.add_comm, Nat.add_mul_div_right _ _ hfo, Nat.add_comm]
  have hfrac : interpFrac fo (u.length * fo + c) = interpFrac fo c := by
    rw [interpFrac, Nat.add_comm, Nat.add_mul_mod_self_right, interpFrac]
  have hget : ∀ k, (u ++ w).getD (u.length + k) 0 = w.getD k 0 := fun k => by
    rw [List.getD_append_right _ _ _ _ (Nat.le_add_right _ _), Nat.add_sub_cancel_left]
  rw [interp, hidx, hfrac, Nat.add_assoc, hget, hget, interp]

theorem interp_append_right (h : c / fo + 1 < u.length) : interp d fo (u ++ w) c = interp d fo u c := by
  rw [interp, List.getD_append _ _ _ _ (by omega), List.getD_append _ _ _ _ h, interp]

end Part

/-! ### The state and the outputs of a session -/

/-- The number of outputs of a session after `n` samples (R245): those of one payload from cursor 0. -/
def outputCount (fi fo n : Nat) : Nat := loopTurns fi fo n 0

theorem outputCount_zero {fi : Nat} (fo : Nat) (hfi : 0 < fi) : outputCount fi fo 0 = 0 := loopTurns_zero hfi

/-- Output `k` of a session over `x`, interpolated at `k FS_IN / FS_OUT`, for every `k` whose right neighbour is in `x`;
its draws begin at `draw k`. -/
def streamOut (draw : Nat → Nat) (fi fo : Nat) (x : List F32) : List F32 :=
  (List.range (outputCount fi fo x.length)).map fun k => interp (draw k) fo x (k * fi)

/-- The resampler state of `s`, at the rates `fi` and `fo`, is that of the samples `x`: the cursor is the one of the
next output, counted from the last sample, and the lookback is that sample. -/
structure Fed (fi fo : Nat) (x : List F32) (s : State) : Prop where
  cont   : s.rsCont = true
  fsIn   : s.fsIn.toNat = fi
  fsOut  : s.fsOut.toNat = fo
  fiPos  : 0 < fi
  foPos  : 0 < fo
  cursor : s.rsNum.toNat + (x.length - 1) * fo = outputCount fi fo x.length * fi
  last   : lookback s = x.getLast?

section Fed

variable {fi fo : Nat} {x : List F32} {s : State}

/-- R244, before any sample: the reset resampler state. -/
theorem fed_nil (hc : s.rsCont = true) (hin : s.fsIn ≠ 0) (hout : s.fsOut ≠ 0) (hnum : s.rsNum = 0)
    (hlb : s.rsLbv = false) : Fed s.fsIn.toNat s.fsOut.toNat [] s where
  cont := hc
  fsIn := rfl
  fsOut := rfl
  fiPos := BitVec.toNat_pos_of_ne_zero hin
  foPos := BitVec.toNat_pos_of_ne_zero hout
  cursor := by
    rw [hnum, List.length_nil, outputCount_zero _ (BitVec.toNat_pos_of_ne_zero hin)]
    simp
  last := lookback_eq_none_iff.2 hlb

theorem Fed.fsIn_ne_zero (h : Fed fi fo x s) : s.fsIn ≠ 0 := fun h0 => h.fiPos.ne (by rw [← h.fsIn, h0]; rfl)

theorem Fed.fsOut_ne_zero (h : Fed fi fo x s) : s.fsOut ≠ 0 := fun h0 => h.foPos.ne (by rw [← h.fsOut, h0]; rfl)

/-- R244 (a): the cursor is that of the first output without a right neighbour. -/
theorem Fed.rsNum_lt (h : Fed fi fo x s) : s.rsNum.toNat < fi := by
  have hcursor := h.cursor
  by_contra hge
  obtain ⟨k, hk⟩ : ∃ k, outputCount fi fo x.length = k + 1 :=
    Nat.exists_eq_add_one_of_ne_zero fun h0 => by have := h.fiPos; simp [h0] at hcursor; omega
  have hlt : k < outputCount fi fo x.length := by omega
  have hstop := (lt_loopTurns_iff h.fiPos).1 hlt
  rw [hk, Nat.succ_mul] at hcursor
  omega

/-! One more payload. -/

variable (u : List F32)

theorem Fed.length_resampleInput (h : Fed fi fo x s) :
    (s.resampleInput u).length - 1 + (x.length - 1) = (x ++ u).length - 1 := by
  rw [resampleInput_eq, h.last]
  obtain rfl | ⟨v, last, rfl⟩ := x.eq_nil_or_concat'
  · simp
  · simp; omega

theorem Fed.append_eq (h : Fed fi fo x s) : x ++ u = x.dropLast ++ s.resampleInput u := by
  rw [resampleInput_eq, h.last]
  obtain rfl | ⟨v, last, rfl⟩ := x.eq_nil_or_concat'
  · rfl
  · simp

/-- The cursor of the session's output `n + k` is that of the payload's output `k`. -/
theorem Fed.cursor_add (h : Fed fi fo x s) (k : Nat) :
    (outputCount fi fo x.length + k) * fi = (x.length - 1) * fo + (s.rsNum.toNat + k * fi) := by
  rw [Nat.add_mul, ← h.cursor]
  ring

theorem Fed.outputCount_le (h : Fed fi fo x s) : outputCount fi fo x.length ≤ outputCount fi fo (x ++ u).length :=
  loopTurns_mono h.fiPos (by simp)

theorem Fed.turns_eq (h : Fed fi fo x s) :
    turns s u = outputCount fi fo (x ++ u).length - outputCount fi fo x.length := by
  refine eq_of_forall_ge_iff fun k => ?_
  rw [turns, h.fsIn, h.fsOut, loopTurns_le_iff h.fiPos, Nat.sub_le_iff_le_add', outputCount, loopTurns_le_iff h.fiPos,
    Nat.zero_add, h.cursor_add, ← h.length_resampleInput u, Nat.add_mul]
  omega

theorem Fed.contSample_eq (h : Fed fi fo x s) (k : Nat) :
    contSample s u k = interp (s.nanDraws + interpOps * k) fo (x ++ u) ((outputCount fi fo x.length + k) * fi) := by
  rw [contSample, h.fsIn, h.fsOut, h.append_eq u, h.cursor_add, ← List.length_dropLast, interp_append_left h.foPos]

theorem Fed.resampleBody_outputs_eq (h : Fed fi fo x s) :
    (resampleBody u s).1 = (List.range (outputCount fi fo (x ++ u).length - outputCount fi fo x.length)).map fun k =>
      interp (s.nanDraws + interpOps * k) fo (x ++ u) ((outputCount fi fo x.length + k) * fi) := by
  rw [resampleBody_outputs u h.cont (h.fsIn ▸ h.fiPos) (h.fsOut ▸ h.foPos), h.turns_eq]
  exact List.map_congr_left fun k _ => h.contSample_eq u k

/-- A payload leaves the resampler state of all the samples so far. -/
theorem Fed.append (h : Fed fi fo x s) : Fed fi fo (x ++ u) (resampleBody u s).2 where
  cont := by rw [resampleBody_state]; exact h.cont
  fsIn := by rw [resampleBody_state]; exact h.fsIn
  fsOut := by rw [resampleBody_state]; exact h.fsOut
  fiPos := h.fiPos
  foPos := h.foPos
  cursor := by
    have hcursor := resampleBody_carries_cursor u h.cont (h.fsIn ▸ h.fiPos) (h.fsOut ▸ h.foPos)
    rw [h.fsIn, h.fsOut, h.turns_eq] at hcursor
    calc (resampleBody u s).2.rsNum.toNat + ((x ++ u).length - 1) * fo
      _ = (x.length - 1) * fo +
          ((resampleBody u s).2.rsNum.toNat + ((s.resampleInput u).length - 1) * fo) := by
        rw [← h.length_resampleInput u]; ring
      _ = (outputCount fi fo x.length + (outputCount fi fo (x ++ u).length - outputCount fi fo x.length)) * fi := by
        rw [hcursor, h.cursor_add]
      _ = outputCount fi fo (x ++ u).length * fi := by rw [Nat.add_sub_cancel' (h.outputCount_le u)]
  last := by
    rw [lookback_resampleBody u h.cont (h.fsIn ▸ h.fiPos) (h.fsOut ▸ h.foPos), resampleInput_eq, h.last,
      List.getLast?_append, List.getLast?_append]
    cases u.getLast? <;> cases x.getLast? <;> rfl

/-- The outputs so far, which all have their right neighbours, and those of one more payload. -/
theorem Fed.streamOut_append (h : Fed fi fo x s) {draw draw' : Nat → Nat}
    (hold : ∀ k < outputCount fi fo x.length, draw' k = draw k)
    (hnew : ∀ k, draw' (outputCount fi fo x.length + k) = s.nanDraws + interpOps * k) :
    streamOut draw fi fo x ++ (resampleBody u s).1 = streamOut draw' fi fo (x ++ u) := by
  have hsplit : streamOut draw' fi fo (x ++ u) =
      (List.range (outputCount fi fo x.length)).map (fun k => interp (draw' k) fo (x ++ u) (k * fi)) ++
      (List.range (outputCount fi fo (x ++ u).length - outputCount fi fo x.length)).map fun k =>
        interp (draw' (outputCount fi fo x.length + k)) fo (x ++ u) ((outputCount fi fo x.length + k) * fi) := by
    rw [streamOut, ← Nat.add_sub_cancel' (h.outputCount_le u), List.range_add, List.map_append, List.map_map,
      Nat.add_sub_cancel_left]
    rfl
  rw [hsplit, h.resampleBody_outputs_eq]
  refine congrArg₂ (· ++ ·) (List.map_congr_left fun k hk => ?_) (List.map_congr_left fun k _ => by rw [hnew])
  have hk := List.mem_range.1 hk
  have hright := (lt_loopTurns_iff h.fiPos).1 hk
  rw [Nat.zero_add] at hright
  rw [hold k hk, interp_append_right ((has_right_neighbour h.foPos _ _).2 hright)]

end Fed

/-! ### Draws numbered through a session -/

/-- The draw of output `k` where nothing but the resampler draws, from `d` on (log 5). -/
def drawFrom (d k : Nat) : Nat := d + interpOps * k

section DrawFrom

variable {fi fo : Nat} {s : State}

@[simp] theorem streamOut_length (draw : Nat → Nat) (fi fo : Nat) (x : List F32) :
    (streamOut draw fi fo x).length = outputCount fi fo x.length := by
  rw [streamOut, List.length_map, List.length_range]

theorem streamOut_get {draw : Nat → Nat} {x : List F32} {k : Nat} (h : k < outputCount fi fo x.length) :
    (streamOut draw fi fo x)[k]? = some (interp (draw k) fo x (k * fi)) := by
  simp [streamOut, h]

theorem streamOut_nil (draw : Nat → Nat) (fo : Nat) (hfi : 0 < fi) : streamOut draw fi fo [] = [] := by
  rw [← List.length_eq_zero_iff, streamOut_length, List.length_nil, outputCount_zero _ hfi]

/-- The first payload after a reset of the resampler state is a session of its own. -/
theorem Fed.resampleBody_first (h : Fed fi fo [] s) (x : List F32) :
    (resampleBody x s).1 = streamOut (drawFrom s.nanDraws) fi fo x := by
  have hzero : outputCount fi fo ([] : List F32).length = 0 := outputCount_zero _ h.fiPos
  have happ := h.streamOut_append x (draw := drawFrom s.nanDraws) (draw' := drawFrom s.nanDraws) (fun _ _ => rfl)
    fun k => by rw [hzero, Nat.zero_add, drawFrom]
  rwa [streamOut_nil _ _ h.fiPos] at happ

end DrawFrom

/-- Settles O27: output `k` of both modes is the interpolation at `k FS_IN`, with the same draws. -/
theorem bothResamplersAgreeBeforeTheClamp : Obligations.BothResamplersAgreeBeforeTheClamp := by
  intro s x m₀ m₁ hf hin hout hnum hlb hm₀ hm₁
  refine ⟨_, _, _, _, step_offer_resample hf hin hout, rfl, step_offer_resample hf hin hout, rfl,
    fun k hk₀ hk₁ hright => ?_⟩
  have hlocal : (resampleBody x { s with mode := m₀ }).1 = resampleLocal s.nanDraws s.fsIn.toNat s.fsOut.toNat x := by
    rw [resampleBody, State.rsCont, hm₀, if_neg Bool.false_ne_true]
  have hfed : Fed s.fsIn.toNat s.fsOut.toNat [] { s with mode := m₁ } :=
    fed_nil (s := { s with mode := m₁ }) hm₁ hin hout hnum hlb
  rw [hlocal, resampleLocal_length] at hk₀
  rw [hfed.resampleBody_first, streamOut_length] at hk₁
  rw [hlocal, hfed.resampleBody_first, streamOut_get hk₁, resampleLocal_get_interp hk₀ hright]
  rfl

/-! ### Sessions of RESAMPLE alone -/

/-- A RESAMPLE with others behind it on the port. -/
theorem step_resample_queued {s : State} {u : List F32} {rest : List HostInput}
    (h : s.hostIn = .command (assemble .resample (.f32 u)) :: rest) (hf : (Payload.f32 u).fits s.maxLen = true)
    (hin : s.fsIn ≠ 0) (hout : s.fsOut ≠ 0) :
    step s = .next (withPorts rest (s.responses ++ [.ok (.f32 (resampleBody u s).1)]) (resampleBody u s).2) := by
  rw [step_assemble h, exec_resample_accepted (s.payload_command _ _ h) hf hin hout, State.respond_eq,
    resampleBody_state, h]
  rfl

theorem Fed.withPorts {fi fo : Nat} {x : List F32} {s : State} (h : Fed fi fo x s) (p : List HostInput)
    (rs : List Response) : Fed fi fo x (withPorts p rs s) := { h with }

/-- The session continued by the payloads `us`, by induction over them: each continues the stream of outputs. -/
theorem run_resamples {fi fo d : Nat} (us : List (List F32)) : ∀ {x : List F32} {s : State}, Fed fi fo x s →
    s.nanDraws = drawFrom d (outputCount fi fo x.length) →
    s.hostIn = us.map (fun u => .command (assemble .resample (.f32 u))) →
    (∀ u ∈ us, (Payload.f32 u).fits s.maxLen = true) →
    ∃ (t : State) (outs : List (List F32)), Host.Core.run core us.length s = .next t ∧ Fed fi fo (x ++ us.flatten) t ∧
      t.responses = s.responses ++ outs.map (fun o => .ok (.f32 o)) ∧ outs.length = us.length ∧ t.hostIn = [] ∧
      streamOut (drawFrom d) fi fo x ++ outs.flatten = streamOut (drawFrom d) fi fo (x ++ us.flatten) := by
  induction us with
  | nil =>
    intro x s h _ hport _
    exact ⟨s, [], rfl, by simpa using h, by simp, rfl, hport, by simp⟩
  | cons u us ih =>
    intro x s h hdraw hport hfits
    have hstep := step_resample_queued hport (hfits u List.mem_cons_self) h.fsIn_ne_zero h.fsOut_ne_zero
    have happ := h.streamOut_append u (draw := drawFrom d) (draw' := drawFrom d) (fun _ _ => rfl) fun k => by
      rw [hdraw, drawFrom, drawFrom, Nat.mul_add, Nat.add_assoc]
    have hcount : outputCount fi fo x.length + (resampleBody u s).1.length = outputCount fi fo (x ++ u).length := by
      simpa using congrArg List.length happ
    have hdraw' : (resampleBody u s).2.nanDraws = drawFrom d (outputCount fi fo (x ++ u).length) := by
      rw [resampleBody_state, hdraw, ← hcount, drawFrom, drawFrom, Nat.mul_add, Nat.add_assoc]
    have hfits' : ∀ v ∈ us, (Payload.f32 v).fits (resampleBody u s).2.maxLen = true := fun v hv => by
      rw [resampleBody_state]
      exact hfits v (List.mem_cons_of_mem u hv)
    have hfed' := (h.append u).withPorts (us.map fun u => .command (assemble .resample (.f32 u)))
      (s.responses ++ [.ok (.f32 (resampleBody u s).1)])
    obtain ⟨t, outs, hrun, hfed, hresp, hlen, hhost, hout⟩ := ih hfed' hdraw' rfl hfits'
    refine ⟨t, (resampleBody u s).1 :: outs, (run_succ (M := core) us.length hstep).trans hrun, ?_, ?_, ?_, hhost, ?_⟩
    · rwa [List.flatten_cons, ← List.append_assoc]
    · rw [hresp]; simp [withPorts]
    · rw [List.length_cons, hlen, List.length_cons]
    · rw [List.flatten_cons, List.flatten_cons, ← List.append_assoc, happ, hout, List.append_assoc]

/-- Settles O26: the session from the reset resampler state, its outputs and its cursor. -/
theorem sessionOutputIsIndependentOfTheSplit : Obligations.SessionOutputIsIndependentOfTheSplit := by
  intro s xs fi fo count hport hfits hin hout hc hnum hlb hne hfi hfo hcount
  subst hfi hfo
  have hfed := fed_nil hc hin hout hnum hlb
  have hzero : outputCount s.fsIn.toNat s.fsOut.toNat ([] : List F32).length = 0 := outputCount_zero _ hfed.fiPos
  obtain ⟨t, outs, hrun, hend, hresp, hlen, hhost, hstream⟩ := run_resamples xs hfed (d := s.nanDraws)
    (by rw [hzero, drawFrom]; rfl) hport hfits
  rw [streamOut_nil _ _ hfed.fiPos, List.nil_append, List.nil_append] at hstream
  rw [List.nil_append] at hend
  obtain ⟨hlast, hlbv⟩ := lookback_valid hend.last hne
  subst hcount
  exact ⟨t, outs, hrun, hresp, hlen, hstream, hend.cursor, hlast, hlbv, hhost⟩

end Sys2Proof.Proofs

/-! Sessions that RESAMPLE and PROCESS feed, 45_resampler.md R244 and 46_pipeline_and_control.md R274: what a command
with a payload answers and leaves, said once (`Answers`); PROCESS as the RESAMPLE of what its first four stages answer;
and the commands that leave the resampler alone. -/

namespace Sys2Proof.Proofs

open Sys2Proof Sys2Proof.Machine

/-! ### The answers of the stages and of PROCESS -/

/-- `Answers s i p q u`: given payload `p` in `s`, command `i` can answer `q` and leave `u`. -/
inductive Answers (s : State) : Instr → Payload → Payload → State → Prop where
  | iqdec (b : List Byte) : Answers s .iqdec (.bytes b) (.iq (iqDecode s.nanDraws b)) s
  | fmdemod (x : List IQ) : Answers s .fmdemod (.iq x) (.f32 (fmdemodBody x s).1) (fmdemodBody x s).2
  | squelch (x : List F32) : Answers s .squelch (.f32 x) (.f32 (squelchBody x s)) s
  | deemph (x : List F32) : Answers s .deemph (.f32 x) (.f32 (deemphBody x s).1) (deemphBody x s).2
  | resample (x : List F32) : Answers s .resample (.f32 x) (.f32 (resampleBody x s).1) (resampleBody x s).2
  | process (b : List Byte) : Answers s .process (.bytes b) (.f32 (processBody b s).1) (processBody b s).2

/-- The commands `Answers` speaks of. -/
def stages : List Instr := [.iqdec, .fmdemod, .squelch, .deemph, .resample, .process]

/-- `exec_ends` with the payload that was on the port and the answer. -/
theorem exec_stage_ends {i : Instr} (hi : i ∈ stages) (s : State) :
    (∃ q u, Answers s i s.payload q u ∧ exec i s = .next (u.respond (.ok q))) ∨
      ∃ c, exec i s = .next (s.takeFault c) := by
  cases i with
  | encode | rstate | csrr | csrw => simp [stages] at hi
  | iqdec =>
    obtain ⟨b, hp, -, -, h⟩ | ⟨b, -, -, -, h⟩ | ⟨-, h⟩ := execIqdec_cases s
    · exact .inl ⟨_, _, hp ▸ .iqdec b, h⟩
    · exact .inr ⟨_, h⟩
    · exact .inr ⟨_, h⟩
  | fmdemod =>
    obtain ⟨x, hp, -, h⟩ | ⟨-, h⟩ := execFmdemod_cases s
    · exact .inl ⟨_, _, hp ▸ .fmdemod x, h⟩
    · exact .inr ⟨_, h⟩
  | squelch =>
    obtain ⟨x, hp, -, h⟩ | ⟨-, h⟩ := execSquelch_cases s
    · exact .inl ⟨_, _, hp ▸ .squelch x, h⟩
    · exact .inr ⟨_, h⟩
  | deemph =>
    obtain ⟨x, hp, -, -, h⟩ | ⟨-, -, -, h⟩ | ⟨-, h⟩ := execDeemph_cases s
    · exact .inl ⟨_, _, hp ▸ .deemph x, h⟩
    · exact .inr ⟨_, h⟩
    · exact .inr ⟨_, h⟩
  | resample =>
    obtain ⟨x, hp, -, -, -, h⟩ | ⟨-, -, -, h⟩ | ⟨-, h⟩ := execResample_cases s
    · exact .inl ⟨_, _, hp ▸ .resample x, h⟩
    · exact .inr ⟨_, h⟩
    · exact .inr ⟨_, h⟩
  | process =>
    obtain ⟨b, hp, -, -, -, -, h⟩ | ⟨b, -, -, -, -, -, h⟩ | ⟨-, -, -, h⟩ | ⟨-, h⟩ := execProcess_cases s
    · exact .inl ⟨_, _, hp ▸ .process b, h⟩
    · exact .inr ⟨_, h⟩
    · exact .inr ⟨_, h⟩
    · exact .inr ⟨_, h⟩

section Answer

variable {s t u : State} {i : Instr} {p q : Payload}

/-- What stands on the ports does not matter, and is not touched. -/
theorem Answers.of_withPorts {h : List HostInput} {rs : List Response} (ha : Answers (withPorts h rs s) i p q u) :
    ∃ v, Answers s i p q v ∧ u = withPorts h rs v := by
  cases ha with
  | iqdec b => exact ⟨s, .iqdec b, rfl⟩
  | fmdemod x => exact ⟨_, by rw [fmdemodBody_withPorts]; exact .fmdemod x, by rw [fmdemodBody_withPorts]⟩
  | squelch x => exact ⟨s, .squelch x, rfl⟩
  | deemph x => exact ⟨_, .deemph x, rfl⟩
  | resample x => exact ⟨_, by rw [resampleBody_withPorts]; exact .resample x, by rw [resampleBody_withPorts]⟩
  | process b => exact ⟨_, by rw [processBody_withPorts]; exact .process b, by rw [processBody_withPorts]⟩

/-- A stage sent alone that answers no fault answers what its body gives; `s` is the state it is sent to, whatever was
on the ports there. -/
theorem answers_of_step {h : List HostInput} {rs : List Response} (hi : i ∈ stages)
    (hstep : step ((withPorts h rs s).offer i p) = .next t) (hq : t.responses = rs ++ [.ok q]) :
    ∃ v rs', Answers s i p q v ∧ t = withPorts [] rs' v := by
  rw [step_assemble ((withPorts h rs s).offer_hostIn _ _)] at hstep
  obtain ⟨q', u, ha, hx⟩ | ⟨c, hx⟩ := exec_stage_ends hi ((withPorts h rs s).offer i p)
  · have ha : Answers (withPorts [.command (assemble i p)] rs s) i p q' u := ha
    obtain ⟨v, hv, rfl⟩ := ha.of_withPorts
    obtain rfl := Host.Outcome.next.inj (hstep.symm.trans hx)
    obtain rfl : q' = q := by simpa [withPorts] using hq
    exact ⟨v, _, hv, rfl⟩
  · obtain rfl := Host.Outcome.next.inj (hstep.symm.trans hx)
    simp [withPorts] at hq

end Answer

/-! ### The registers of the resampler -/

/-- What `Fed` reads of a state. -/
def resamplerView (s : State) : Bool × Word × Word × Word × F32 × Bool :=
  (s.rsCont, s.fsIn, s.fsOut, s.rsNum, s.rsLb, s.rsLbv)

theorem Fed.congr {fi fo : Nat} {x : List F32} {s t : State} (h : Fed fi fo x s)
    (hv : resamplerView t = resamplerView s) : Fed fi fo x t := by
  simp only [resamplerView, Prod.mk.injEq] at hv
  obtain ⟨hcont, hin, hout, hnum, hlb, hlbv⟩ := hv
  exact { h with
    cont := hcont.trans h.cont
    fsIn := by rw [hin, h.fsIn]
    fsOut := by rw [hout, h.fsOut]
    cursor := by rw [hnum, h.cursor]
    last := by rw [← h.last, lookback, lookback, hlb, hlbv] }

/-- The commands that resample or reset the resampler state (10_state.md R47). -/
def resamplerWriters : List Instr := [.resample, .process, .rstate, .csrw 0x00, .csrw 0x01, .csrw 0x02]

/-- Another command leaves the resampler's registers. -/
theorem exec_resamplerView {i : Instr} {s t : State} (h : exec i s = .next t) (hi : i ∉ resamplerWriters) :
    resamplerView t = resamplerView s := by
  have hne : ∀ {j}, j ∈ resamplerWriters → i ≠ j := fun hj h => hi (h ▸ hj)
  obtain ⟨hm, hin, hout, -⟩ := onlyCsrwWritesConfiguration s t i h
  obtain ⟨-, hstream, -⟩ := onlyNamedCommandsWriteStreamState s t i h
  have hkept : t.rsNum = s.rsNum ∧ t.rsLb = s.rsLb ∧ t.rsLbv = s.rsLbv := by
    by_contra hwritten
    obtain ⟨hmem, -⟩ | hmem := hstream (by simpa only [not_and_or] using hwritten)
    · exact hi ((by simp [resamplerWriters] : _ ⊆ resamplerWriters) hmem)
    · exact hi ((by simp [resamplerWriters] : _ ⊆ resamplerWriters) hmem)
  obtain ⟨hnum, hlb, hlbv⟩ := hkept
  rw [resamplerView, State.rsCont, not_imp_comm.1 hm (hne (by decide)), not_imp_comm.1 hin (hne (by decide)),
    not_imp_comm.1 hout (hne (by decide)), hnum, hlb, hlbv]
  rfl

/-- A step by a command that faults, or by one that leaves the resampler alone. -/
theorem step_resamplerView {c : Command} {s t : State} (hstep : step { s with hostIn := [.command c] } = .next t)
    (hc : (∃ code, t.responses = s.responses ++ [.fault code]) ∨
      ∀ i ∈ resamplerWriters, decodeWord c.word ≠ .ok i) : resamplerView t = resamplerView s := by
  cases hd : decodeWord c.word with
  | error e =>
    obtain rfl := Host.Outcome.next.inj ((step_command_illegal rfl hd).symm.trans hstep)
    rfl
  | ok i =>
    have hx := (step_command_ok rfl hd).symm.trans hstep
    obtain ⟨code, hcode⟩ | hi := hc
    · obtain ⟨u, p, hu, rfl⟩ | ⟨c, rfl⟩ := exec_next hx
      · obtain ⟨-, -, hresp⟩ := hu.frame
        simp [hresp] at hcode
      · rfl
    · exact (exec_resamplerView hx fun hmem => hi i hmem hd).trans rfl

/-! ### PROCESS as RESAMPLE of what the stages before it answer (46_pipeline_and_control.md R274) -/

theorem processBody_of_stages {b : List Byte} {q : List IQ} {a g u : List F32} {s t₁ t₂ t₃ t₄ : State}
    (h₁ : step (s.offer .iqdec (.bytes b)) = .next t₁) (r₁ : t₁.responses = s.responses ++ [Response.ok (.iq q)])
    (h₂ : step (t₁.offer .fmdemod (.iq q)) = .next t₂) (r₂ : t₂.responses = t₁.responses ++ [Response.ok (.f32 a)])
    (h₃ : step (t₂.offer .squelch (.f32 a)) = .next t₃) (r₃ : t₃.responses = t₂.responses ++ [Response.ok (.f32 g)])
    (h₄ : step (t₃.offer .deemph (.f32 g)) = .next t₄) (r₄ : t₄.responses = t₃.responses ++ [Response.ok (.f32 u)]) :
    ∃ v, processBody b s = resampleBody u v ∧ resamplerView v = resamplerView s := by
  obtain ⟨_, rs₁, ⟨⟩, rfl⟩ := answers_of_step (s := s) (h := s.hostIn) (by decide) h₁ r₁
  obtain ⟨_, rs₂, ⟨⟩, rfl⟩ := answers_of_step (by decide) h₂ r₂
  obtain ⟨_, rs₃, ⟨⟩, rfl⟩ := answers_of_step (by decide) h₃ r₃
  obtain ⟨_, rs₄, ⟨⟩, rfl⟩ := answers_of_step (by decide) h₄ r₄
  exact ⟨_, rfl, by rw [deemphBody_state, fmdemodBody_state]; rfl⟩

/-! ### The sessions -/

/-- The draws of outputs below `n` as they were, those of later outputs from `d` on. -/
def continueDraws (draw : Nat → Nat) (n d k : Nat) : Nat := if k < n then draw k else drawFrom d (k - n)

/-- A payload continues a session, whatever drew NaNs before it. -/
theorem Fed.streamOut_continue {fi fo : Nat} {x : List F32} {s : State} (h : Fed fi fo x s) (draw : Nat → Nat)
    (u : List F32) : streamOut draw fi fo x ++ (resampleBody u s).1 =
      streamOut (continueDraws draw (outputCount fi fo x.length) s.nanDraws) fi fo (x ++ u) := by
  refine h.streamOut_append u (fun k hk => if_pos hk) fun k => ?_
  rw [continueDraws, if_neg (by omega), Nat.add_sub_cancel_left, drawFrom]

/-- R244 of every session: the resampler state is that of all the samples put in, and the outputs are one interpolation
of them, by induction over the commands that feed the session. -/
theorem session_fed {x y : List F32} {s : State} (h : ResamplerSession x y s) :
    ∃ fi fo draw, Fed fi fo x s ∧ y = streamOut draw fi fo x := by
  induction h with
  | start s hcont hin hout hnum hlb =>
    have hfed := fed_nil hcont hin hout hnum hlb
    exact ⟨_, _, id, hfed, (streamOut_nil _ _ hfed.fiPos).symm⟩
  | @resample x y u o s t _ hstep ho ih =>
    obtain ⟨fi, fo, draw, hfed, rfl⟩ := ih
    obtain ⟨_, rs, ⟨⟩, rfl⟩ := answers_of_step (s := s) (h := s.hostIn) (by decide) hstep ho
    exact ⟨fi, fo, _, (hfed.append u).withPorts [] rs, hfed.streamOut_continue draw u⟩
  | @process x y a g u o b q s t _ _ _ _ _ h₁ r₁ h₂ r₂ h₃ r₃ h₄ r₄ hstep ho ih =>
    obtain ⟨fi, fo, draw, hfed, rfl⟩ := ih
    obtain ⟨v, hbody, hv⟩ := processBody_of_stages h₁ r₁ h₂ r₂ h₃ r₃ h₄ r₄
    obtain ⟨_, rs, ⟨⟩, rfl⟩ := answers_of_step (s := s) (h := s.hostIn) (by decide) hstep ho
    rw [hbody]
    exact ⟨fi, fo, _, ((hfed.congr hv).append u).withPorts [] rs, (hfed.congr hv).streamOut_continue draw u⟩
  | other _ hstep hc ih =>
    obtain ⟨fi, fo, draw, hfed, rfl⟩ := ih
    exact ⟨fi, fo, draw, hfed.congr (step_resamplerView hstep hc), rfl⟩

/-- Settles O58: the cursor, the lookback and the outputs of the samples put in. -/
theorem sessionWithProcessIsOneInterpolation : Obligations.SessionWithProcessIsOneInterpolation := by
  intro x y s fi fo h hfi hfo
  obtain ⟨_, _, draw, hfed, rfl⟩ := session_fed h
  obtain rfl := hfi.trans hfed.fsIn
  obtain rfl := hfo.trans hfed.fsOut
  refine ⟨hfed.rsNum_lt, fun hnil => ?_, fun hne => ?_⟩
  · subst hnil
    have hcursor := hfed.cursor
    rw [List.length_nil, outputCount_zero _ hfed.fiPos, Nat.zero_sub, Nat.zero_mul, Nat.zero_mul,
      Nat.add_zero] at hcursor
    exact ⟨streamOut_nil _ _ hfed.fiPos, BitVec.eq_of_toNat_eq hcursor, lookback_eq_none_iff.1 hfed.last⟩
  · obtain ⟨hlast, hlbv⟩ := lookback_valid hfed.last hne
    rw [streamOut_length]
    exact ⟨rfl, fun k hk => ⟨_, streamOut_get hk⟩, hfed.cursor, hlast, hlbv⟩

end Sys2Proof.Proofs

/-! PROCESS, 46_pipeline_and_control.md R270, R274: the ends of the command, the five stages sent one by one, and the
empty payload. -/

namespace Sys2Proof.Proofs

open Sys2Proof Sys2Proof.Machine

/-! ### The command (R270) -/

section Process

variable {s : State} {b : List Byte}

theorem exec_process_accepted (hp : s.payload = .bytes b) (hf : (Payload.bytes b).fits s.maxLen = true)
    (hin : s.fsIn ≠ 0) (hout : s.fsOut ≠ 0) (hl : s.iqLenOk b.length = true) :
    exec .process s = .next ((processBody b s).2.respond (.ok (.f32 (processBody b s).1))) := by
  simp only [exec, execProcess, (s.bytesOperand_some b).2 ⟨hp, hf⟩, hin, hout, or_self, if_false, hl, if_true,
    completed_eq]

theorem exec_process_otherLength (hp : s.payload = .bytes b) (hf : (Payload.bytes b).fits s.maxLen = true)
    (hin : s.fsIn ≠ 0) (hout : s.fsOut ≠ 0) (hl : s.iqLenOk b.length = false) :
    exec .process s = .next (s.takeFault .streamIntegrity) := by
  simp only [exec, execProcess, (s.bytesOperand_some b).2 ⟨hp, hf⟩, hin, hout, or_self, if_false, hl,
    Bool.false_eq_true, faulted_eq]

theorem exec_process_withoutRate (hk : s.payload.kind = .bytes) (hf : s.payload.fits s.maxLen = true)
    (hr : s.fsIn = 0 ∨ s.fsOut = 0) : exec .process s = .next (s.takeFault .config) := by
  obtain ⟨_, -, -, hin, hout, -⟩ | ⟨_, -, -, hin, hout, -⟩ | ⟨-, -, -, h⟩ | ⟨hbad, -⟩ := execProcess_cases s
  · exact absurd hr (not_or.2 ⟨hin, hout⟩)
  · exact absurd hr (not_or.2 ⟨hin, hout⟩)
  · exact h
  · simp [hk, hf] at hbad

theorem exec_process_otherPayload (h : s.payload.kind ≠ .bytes ∨ s.payload.fits s.maxLen = false) :
    exec .process s = .next (s.takeFault .operandFormat) := by
  simp [exec, execProcess, s.bytesOperand_none.2 h]

/-- PROCESS sent alone: its body, the port free after it, and one more response. -/
theorem step_offer_process (hf : (Payload.bytes b).fits s.maxLen = true) (hin : s.fsIn ≠ 0) (hout : s.fsOut ≠ 0)
    (hl : s.iqLenOk b.length = true) :
    step (s.offer .process (.bytes b)) =
      .next (withPorts [] (s.responses ++ [.ok (.f32 (processBody b s).1)]) (processBody b s).2) := by
  have hports : s.offer .process (.bytes b) = withPorts [.command (assemble .process (.bytes b))] s.responses s := rfl
  rw [step_assemble (s.offer_hostIn _ _), exec_process_accepted (s.payload_offer _ _) hf hin hout hl, hports,
    processBody_withPorts]
  rfl

end Process

/-- Settles O29: the three faults by the payload, the rates and the length check. -/
theorem processFaultsBeforeAnyStage : Obligations.ProcessFaultsBeforeAnyStage :=
  ⟨fun _ => exec_process_otherPayload, fun _ => exec_process_withoutRate, fun s _ hp hf hin hout hl =>
    exec_process_otherLength hp hf hin hout ((iqLenOk_eq_false_iff s _).2 hl)⟩

/-! ### The five stages, sent one by one (R274) -/

/-- The checks of all the stages on payload `p` pass in `s`. -/
structure Accepts (s : State) (p : Payload) : Prop where
  fits  : p.fits s.maxLen = true
  fsIn  : s.fsIn ≠ 0
  fsOut : s.fsOut ≠ 0
  count : ∀ b, p = .bytes b → s.iqLenOk b.length = true

theorem fits_of_length_le {m : MaxLen} {p q : Payload} (hle : q.length ≤ p.length) (h : p.fits m = true) :
    q.fits m = true := by
  cases m with
  | unbounded => rfl
  | bounded below =>
    simp only [Payload.fits, decide_eq_true_eq] at h ⊢
    omega

/-- Each output belongs to a sample of the payload, compared with the one before it or with the lookback. -/
theorem fmdemodBody_length_le (x : List IQ) (s : State) : (fmdemodBody x s).1.length ≤ x.length := by
  rw [fmdemodBody, demodSeq_length, State.demodInput]
  split <;> simp

/-- IQDEC sent alone: the port free after it, and one more response. -/
theorem step_offer_iqdec {s : State} {b : List Byte} (hf : (Payload.bytes b).fits s.maxLen = true)
    (hl : s.iqLenOk b.length = true) :
    step (s.offer .iqdec (.bytes b)) = .next (withPorts [] (s.responses ++ [.ok (.iq (iqDecode s.nanDraws b))]) s) := by
  rw [step_assemble (s.offer_hostIn _ _), exec_iqdec_accepted (s.payload_offer _ _) hf hl]
  rfl

/-- SQUELCH sent alone: the port free after it, and one more response. -/
theorem step_offer_squelch {s : State} {x : List F32} (hf : (Payload.f32 x).fits s.maxLen = true) :
    step (s.offer .squelch (.f32 x)) = .next (withPorts [] (s.responses ++ [.ok (.f32 (squelchBody x s))]) s) := by
  rw [step_assemble (s.offer_hostIn _ _), exec_squelch_accepted (s.payload_offer _ _) hf]
  rfl

section Stage

variable {s u : State} {i : Instr} {p q : Payload}

/-- A stage sent alone completes where its payload is accepted; the converse of `answers_of_step`. -/
theorem Answers.step_offer (h : Answers s i p q u) (ha : Accepts s p) (ports : List HostInput) (rs : List Response) :
    step ((withPorts ports rs s).offer i p) = .next (withPorts [] (rs ++ [.ok q]) u) := by
  obtain ⟨hf, hin, hout, hl⟩ : Accepts (withPorts ports rs s) p := { ha with }
  cases h with
  | iqdec b => exact step_offer_iqdec hf (hl b rfl)
  | fmdemod x => rw [step_offer_fmdemod hf, fmdemodBody_withPorts]; rfl
  | squelch x => exact step_offer_squelch hf
  | deemph x => exact step_offer_deemph hf hin
  | resample x => rw [step_offer_resample hf hin hout, resampleBody_withPorts]; rfl
  | process b => rw [step_offer_process hf hin hout (hl b rfl), processBody_withPorts]; rfl

/-- The stage after it accepts what a stage answers, which is no longer than its own payload. -/
theorem Answers.accepts (h : Answers s i p q u) (hi : i ∈ [.iqdec, .fmdemod, .squelch, .deemph]) (ha : Accepts s p) :
    Accepts u q := by
  obtain ⟨hf, hin, hout, -⟩ := ha
  cases h with
  | iqdec b =>
    exact ⟨fits_of_length_le (by simp [Payload.length, iqDecode_length, Nat.div_le_self]) hf, hin, hout, nofun⟩
  | fmdemod x =>
    have hfit := fits_of_length_le (p := .iq x) (q := .f32 (fmdemodBody x s).1) (fmdemodBody_length_le x s) hf
    rw [fmdemodBody_state]
    exact ⟨hfit, hin, hout, nofun⟩
  | squelch x => exact ⟨fits_of_length_le (by simp [Payload.length, squelchBody]) hf, hin, hout, nofun⟩
  | deemph x => exact ⟨fits_of_length_le (by simp [Payload.length]) hf, hin, hout, nofun⟩
  | resample | process => simp at hi

end Stage

/-- Settles O28: each stage accepts what the one before it answers, and PROCESS is the composition of their bodies. -/
theorem processEqualsTheFiveStages : Obligations.ProcessEqualsTheFiveStages := by
  refine ⟨fun s c rest h hop => step_of_opField (i := .process) (fun _ => rfl) h hop,
    fun s b hp hf hin hout heven hlen => ?_⟩
  have hl := (iqLenOk_iff s b.length).2 ⟨heven, hlen⟩
  have hbytes : Accepts s (.bytes b) := ⟨hf, hin, hout, by rintro _ ⟨⟩; exact hl⟩
  have hiq := (Answers.iqdec b).accepts (by decide) hbytes
  have haudio := (Answers.fmdemod _).accepts (by decide) hiq
  have hgated := (Answers.squelch _).accepts (by decide) haudio
  have hflat := (Answers.deemph _).accepts (by decide) hgated
  obtain ⟨-, hport, hresp⟩ := (Completes.process b hin hout).frame
  exact ⟨_, _, _, _, _, _, _, _, _, _, _, (Answers.iqdec b).step_offer hbytes s.hostIn s.responses, rfl,
    (Answers.fmdemod _).step_offer hiq _ _, rfl, (Answers.squelch _).step_offer haudio _ _, rfl,
    (Answers.deemph _).step_offer hgated _ _, rfl, (Answers.resample _).step_offer hflat _ _, rfl,
    exec_process_accepted hp hf hin hout hl, by rw [State.respond_responses, hresp]; rfl,
    by rw [State.respond_hostIn, hport], rfl, rfl⟩

/-! ### The empty payload (R270) -/

theorem fmdemodBody_nil (s : State) : fmdemodBody [] s = ([], s) := by
  have hout : demodSeq s.nanDraws (s.demodInput []) = [] := by
    rw [State.demodInput]
    split <;> rfl
  simp [fmdemodBody, hout, State.dmUpdate, State.drew]

theorem deemphBody_nil (s : State) : deemphBody [] s = ([], { s with deY := s.deStart }) := rfl

/-- A lookback alone has no right neighbour: the cursor and the lookback stay. -/
theorem resampleBody_nil (s : State) : resampleBody [] s = ([], s) := by
  cases hc : s.rsCont with
  | false => simp [resampleBody, hc, resampleLocal, State.drew]
  | true =>
    cases hv : s.rsLbv with
    | false => exact resampleBody_of_empty [] hc (by simp [State.resampleInput, hv])
    | true =>
      have hw : s.resampleInput [] = [s.rsLb] := by simp [State.resampleInput, hv]
      simp [resampleBody, hc, resampleCont, hw, loopBound, resampleLoop, State.drew, ← hv]

theorem processBody_nil (s : State) : processBody [] s = ([], { s with deY := s.deStart }) := by
  simp [processBody, iqDecode, fmdemodBody_nil, squelchBody, deemphBody_nil, resampleBody_nil]

theorem exec_process_nil {s : State} (hp : s.payload = .bytes []) (hin : s.fsIn ≠ 0) (hout : s.fsOut ≠ 0) :
    exec .process s = .next ({ s with deY := s.deStart }.respond (.ok (.f32 []))) := by
  have hf : (Payload.bytes []).fits s.maxLen = true := by cases s.maxLen <;> rfl
  have hl : s.iqLenOk ([] : List Byte).length = true := (iqLenOk_iff s 0).2 ⟨rfl, .inr (.inl rfl)⟩
  rw [exec_process_accepted hp hf hin hout hl, processBody_nil]

/-- Settles O50: completing, the command does what its body does, on the empty payload `processBody_nil`; the other way
to end is a fault. -/
theorem processFrame : Obligations.ProcessFrame := by
  intro s t h
  have hempty : s.payload = .bytes [] → s.fsIn ≠ 0 → s.fsOut ≠ 0 →
      t.responses = s.responses ++ [.ok (.f32 [])] ∧ t.regs = { s with deY := s.deStart }.regs := by
    intro hp hin hout
    obtain rfl := Host.Outcome.next.inj (h.symm.trans (exec_process_nil hp hin hout))
    exact ⟨rfl, rfl⟩
  obtain ⟨u, p, hu, rfl⟩ | ⟨c, rfl⟩ := exec_next h
  · cases hu with
    | process b =>
      exact ⟨by rw [processBody_state]; rfl, processBody_cursor s b, processBody_lookback s b, hempty,
        .inl (by rw [processBody_state]; rfl)⟩
  · exact ⟨rfl, fun _ => ⟨rfl, rfl, rfl⟩, fun _ => ⟨rfl, rfl⟩, hempty, .inr ⟨c, rfl⟩⟩

end Sys2Proof.Proofs

/-! The control commands RSTATE, CSRR and CSRW, 46_pipeline_and_control.md R271 to R273: the ends of each, the numbers
the CSRs read as, and which numbers can be written. -/

namespace Sys2Proof.Proofs

open Sys2Proof Sys2Proof.Machine

/-! ### RSTATE (R271) -/

theorem exec_rstate_none {s : State} (h : s.payload = .none) :
    exec .rstate s = .next (s.resetStream.respond (.ok .none)) := by
  simp [exec, execRstate, s.noOperand_iff.2 h]

theorem exec_rstate_otherPayload {s : State} (h : s.payload ≠ .none) :
    exec .rstate s = .next (s.takeFault .operandFormat) := by
  simp [exec, execRstate, mt s.noOperand_iff.1 h]

/-- Settles O30: the two ends of the command by its payload; the reset values are those after reset. -/
theorem rstateResetsTheStreamState : Obligations.RstateResetsTheStreamState :=
  ⟨fun _ _ _ h hop => step_of_opField (i := .rstate) (fun _ => rfl) h hop, fun _ => exec_rstate_none,
    fun _ => exec_rstate_otherPayload, fun _ => ⟨_, step_assemble_rstate rfl, rfl⟩⟩

/-- Settles O51: completing, the command resets the stream state; the other way to end is a fault. -/
theorem rstateFrame : Obligations.RstateFrame := by
  intro s t h
  obtain ⟨u, p, hu, rfl⟩ | ⟨c, rfl⟩ := exec_next h
  · cases hu with
    | rstate => exact ⟨rfl, .inl rfl⟩
  · exact ⟨rfl, .inr ⟨c, rfl⟩⟩

/-! ### CSR numbers (10_state.md R32) -/

theorem number_injective : Function.Injective Csr.number := fun r r' h =>
  Option.some.inj (by rw [← ofNumber_number r, h, ofNumber_number])

theorem exists_csr {n : Byte} (h : n.toNat ≤ 0x0C) : ∃ r : Csr, n = r.number := by
  cases hr : Csr.ofNumber n with
  | none => have := ofNumber_none hr; omega
  | some r => exact ⟨r, (ofNumber_some hr).1.symm⟩

theorem ofNumber_of_reserved {n : Byte} (h : 0x0D ≤ n.toNat) : Csr.ofNumber n = none := by
  cases hr : Csr.ofNumber n with
  | none => rfl
  | some r => have := (ofNumber_some hr).2; omega

theorem writable_iff (r : Csr) : r.writable = true ↔ r.number.toNat ≤ 0x05 := by cases r <;> decide

/-- The writable CSRs are those up to 0x05. -/
theorem exists_writable {n : Byte} (h : n.toNat ≤ 0x05) : ∃ r : Csr, n = r.number ∧ r.writable = true := by
  obtain ⟨r, rfl⟩ := exists_csr (n := n) (by omega)
  exact ⟨r, rfl, (writable_iff r).2 h⟩

theorem not_writable_of_ofNumber {n : Byte} (h : 0x06 ≤ n.toNat) {r : Csr} (hr : Csr.ofNumber n = some r) :
    r.writable = false := by
  rw [← Bool.not_eq_true, writable_iff, (ofNumber_some hr).1]
  omega

/-! ### CSRR (R272) -/

section Csrr

variable {s : State}

theorem exec_csrr_number (r : Csr) (h : s.payload = .none) :
    exec (.csrr r.number) s = .next (s.respond (.ok (.word (csrValue s r)))) := by
  simp [exec, execCsrr, s.noOperand_iff.2 h]

theorem exec_csrr_otherPayload (r : Csr) (h : s.payload ≠ .none) :
    exec (.csrr r.number) s = .next (s.takeFault .operandFormat) := by
  simp [exec, execCsrr, mt s.noOperand_iff.1 h]

theorem exec_csrr_reserved {n : Byte} (h : 0x0D ≤ n.toNat) :
    exec (.csrr n) s = .next (s.takeFault .illegalCsr) := by
  simp [exec, execCsrr, ofNumber_of_reserved h]

end Csrr

/-- The number of two fields side by side. -/
theorem toNat_append_eq_add {m n : Nat} (x : BitVec m) (y : BitVec n) :
    (x ++ y).toNat = x.toNat * 2 ^ n + y.toNat := by
  rw [BitVec.toNat_append, ← Nat.shiftLeft_add_eq_or_of_lt y.isLt, Nat.shiftLeft_eq]

theorem csrValue_mode_toNat (s : State) : (csrValue s .mode).toNat = s.mode.toNat :=
  BitVec.toNat_setWidth_of_le (by decide)

theorem status_word_toNat (st : Status) :
    st.word.toNat = st.errCode.toNat * 2 ^ 8 + st.overflow.toNat * 2 + st.fault.toNat := by
  simp only [Status.word, toNat_append_eq_add, BitVec.toNat_ofBool, BitVec.toNat_zero]
  ring

theorem csrValue_svalid_toNat (s : State) :
    (csrValue s .svalid).toNat = s.dmPrevv.toNat * 2 + s.rsLbv.toNat := by
  simp only [csrValue, toNat_append_eq_add, BitVec.toNat_ofBool, BitVec.toNat_zero]
  ring

/-- Settles O31: a number up to 0x0C is the number of one CSR; the ends of the command by the number and the payload. -/
theorem csrrReadsEveryRegister : Obligations.CsrrReadsEveryRegister := by
  refine ⟨fun s c rest h hop => step_of_decodeOp h (by rw [hop]; rfl), fun s n hp hn => ?_,
    fun s n => exec_csrr_reserved, fun s n hn hp => ?_⟩
  · obtain ⟨r, rfl⟩ := exists_csr hn
    have hv (r' : Csr) (h : r.number = r'.number) : csrValue s r = csrValue s r' := by rw [number_injective h]
    exact ⟨csrValue s r, exec_csrr_number r hp, fun h => hv .mode h ▸ csrValue_mode_toNat s, hv .fsIn, hv .fsOut,
      hv .sqThresh, hv .bufBytes, fun h => hv .status h ▸ status_word_toNat s.status, hv .alpha, hv .deY, hv .rsNum,
      hv .rsLb, hv .dmPrevI, hv .dmPrevQ, fun h => hv .svalid h ▸ csrValue_svalid_toNat s⟩
  · obtain ⟨r, rfl⟩ := exists_csr hn
    exact exec_csrr_otherPayload r hp

/-! ### CSRW (R273, 10_state.md R47) -/

section Csrw

variable {s : State}

theorem exec_csrw_word {r : Csr} {v : Word} (hw : r.writable = true) (h : s.payload = .word v) :
    exec (.csrw r.number) s = .next ((csrWrite s v r).respond (.ok .none)) := by
  simp [exec, execCsrw, hw, (s.wordOperand_some v).2 h]

theorem exec_csrw_otherPayload {r : Csr} (hw : r.writable = true) (h : s.payload.kind ≠ .word) :
    exec (.csrw r.number) s = .next (s.takeFault .operandFormat) := by
  simp [exec, execCsrw, hw, s.wordOperand_none.2 h]

theorem exec_csrw_notWritable {n : Byte} (h : 0x06 ≤ n.toNat) :
    exec (.csrw n) s = .next (s.takeFault .illegalCsr) := by
  obtain ⟨r, v, hr, hw, -⟩ | ⟨r, hr, hw, -⟩ | ⟨-, hx⟩ := execCsrw_cases s n
  · simp [not_writable_of_ofNumber h hr] at hw
  · simp [not_writable_of_ofNumber h hr] at hw
  · exact hx

end Csrw

/-- MODE keeps bits 2:0 of what is written (10_state.md R33). -/
theorem modeBits_eq_ofNat (v : Word) : v.extractLsb' 0 3 = BitVec.ofNat 3 (v.toNat % 8) :=
  BitVec.eq_of_toNat_eq (by simp)

/-- BUF_BYTES keeps what is written but for bit 0 (10_state.md R37). -/
theorem bufBytes_eq_ofNat (v : Word) :
    v.extractLsb' 1 31 ++ (0#1 : BitVec 1) = BitVec.ofNat 32 (v.toNat / 2 * 2) := by
  apply BitVec.eq_of_toNat_eq
  rw [toNat_append_eq_add, BitVec.extractLsb'_toNat, BitVec.toNat_ofNat, Nat.shiftRight_eq_div_pow]
  simp
  omega

/-- Settles O32: each write is that of its CSR; the ends of the command by the number and the payload. -/
theorem csrwWritesEveryRegister : Obligations.CsrwWritesEveryRegister := by
  refine ⟨fun s c rest h hop => step_of_decodeOp h (by rw [hop]; rfl), fun s t v hp ht => ?_,
    fun s n => exec_csrw_notWritable, fun s n hn hk => ?_⟩
  · subst ht
    rw [← modeBits_eq_ofNat, ← bufBytes_eq_ofNat]
    exact ⟨exec_csrw_word (r := .mode) rfl hp, exec_csrw_word (r := .fsIn) rfl hp, exec_csrw_word (r := .fsOut) rfl hp,
      exec_csrw_word (r := .sqThresh) rfl hp, exec_csrw_word (r := .bufBytes) rfl hp,
      exec_csrw_word (r := .status) rfl hp⟩
  · obtain ⟨r, rfl, hw⟩ := exists_writable hn
    exact exec_csrw_otherPayload hw hk

/-- Settles O52: completing, the command writes the CSR of its number; the other way to end is a fault. -/
theorem csrwFrame : Obligations.CsrwFrame := by
  intro n s t h
  obtain ⟨u, p, hu, rfl⟩ | ⟨c, rfl⟩ := exec_next h
  · cases hu with
    | csrw r v => cases r <;> simp [csrWrite, Csr.number, Status.clear]
  · exact ⟨rfl, rfl, rfl, fun _ => ⟨rfl, rfl, rfl, rfl⟩, fun _ => rfl, fun _ => rfl, fun _ => rfl, fun _ => rfl,
      fun _ _ _ => ⟨rfl, rfl, rfl⟩, .inr (.inr ⟨c, rfl⟩)⟩

end Sys2Proof.Proofs

/-! Faults, 60_exceptions.md R300 to R317: a legal command by its checks in the order of R303, one lemma per check, and
from them what every step does to STATUS. -/

namespace Sys2Proof.Proofs

open Sys2Proof Sys2Proof.Machine

/-! ### Taking a fault (R301, R302) -/

/-- Settles O33: STATUS by the latch that `on_fault` finds, and the five codes. -/
theorem takingAFaultLatchesTheFirstCode : Obligations.TakingAFaultLatchesTheFirstCode := by
  refine fun s c => ⟨fun h => ?_, fun h => ?_, by cases c <;> rfl⟩
  · rw [State.takeFault_eq, Status.onFault_first c h]
  · rw [State.takeFault_eq, Status.onFault_later c h]

/-- Settles O35: by what the host sends; a command that runs ends one of two ways. -/
theorem theBlockNeverStops : Obligations.TheBlockNeverStops := by
  intro s
  match h : s.hostIn with
  | [] => exact ⟨_, step_idle h⟩
  | .reset :: _ => exact ⟨_, step_reset h⟩
  | .resetDuring _ :: _ => exact ⟨_, step_resetDuring h⟩
  | .command c :: _ =>
    cases hd : decodeWord c.word with
    | error e => exact ⟨_, step_command_illegal h hd⟩
    | ok i =>
      obtain ⟨t, -, hx, -⟩ := exec_answers i s
      exact ⟨t, (step_command_ok h hd).trans hx⟩

/-! ### The checks on the word (R303 checks 1 and 2) -/

theorem illegalWord_iff (w : Word) : illegalWord w = true ↔ ∃ e, decodeWord w = .error e := by
  rw [illegalWordsAreThoseOfTheRule.1]
  simp [illegalWord, or_assoc, and_assoc]

theorem illegalCsrWord_encode (i : Instr) : illegalCsrWord (encode i) = true ↔ i.wellFormed = false := by
  obtain ⟨-, hop, harg⟩ := wordShape i
  simp only [illegalCsrWord, Bool.or_eq_true, Bool.and_eq_true, decide_eq_true_eq, hop, harg]
  cases i with
  | csrr n | csrw n => simp [Instr.op, Instr.arg, Instr.wellFormed, Nat.lt_iff_add_one_le]
  | encode | iqdec | fmdemod | squelch | deemph | resample | process | rstate => simp [Instr.op, Instr.wellFormed]

theorem kindOfOp_op (i : Instr) : kindOfOp i.op = i.expects := by cases i <;> rfl

theorem firstFault_of_illegal {s : State} {c : Command} {e : IllegalWord} (h : decodeWord c.word = .error e) :
    firstFault s c = some .illegalCommand := by
  rw [firstFault, if_pos ((illegalWord_iff _).2 ⟨e, h⟩)]

/-- The fault a legal command is due, by the checks that follow the decoder. -/
theorem firstFault_encode (s : State) (i : Instr) (p : Payload) :
    firstFault s ⟨encode i, p⟩ =
      if i.wellFormed = false then some .illegalCsr
      else if p.kind ≠ i.expects ∨ p.fits s.maxLen = false then some .operandFormat
      else if rateMissing s i.op then some .config
      else if badByteCount s i.op p.length then some .streamIntegrity
      else none := by
  have hlegal : ¬ illegalWord (encode i) = true := by simp [illegalWord_iff]
  simp only [firstFault, if_neg hlegal, illegalCsrWord_encode, (wordShape i).2.1, kindOfOp_op]

/-! ### The checks of a legal command (R303 checks 2 to 5), each from the ends of the commands -/

/-- `None` and a Word always fit MAX_LEN, so only the kind can be wrong where one of them is expected. -/
theorem unsuited_none {m : MaxLen} {p : Payload} (h : p.kind ≠ .none ∨ p.fits m = false) : p ≠ .none := by
  rintro rfl
  cases m <;> simp [Payload.kind, Payload.fits, Payload.length] at h

theorem unsuited_word {m : MaxLen} {p : Payload} (h : p.kind ≠ .word ∨ p.fits m = false) : p.kind ≠ .word := by
  cases p with
  | word v => cases m <;> simp [Payload.kind, Payload.fits, Payload.length] at h
  | none | bytes | iq | f32 => nofun

theorem rateMissing_deemph (s : State) : rateMissing s Instr.deemph.op = true ↔ s.fsIn = 0 := by
  simp [rateMissing, Instr.op]

theorem rateMissing_both (s : State) {i : Instr} (h : i = .resample ∨ i = .process) :
    rateMissing s i.op = true ↔ s.fsIn = 0 ∨ s.fsOut = 0 := by
  obtain rfl | rfl := h <;> simp [rateMissing, Instr.op]

theorem badByteCount_iff (s : State) (n : Nat) {i : Instr} (h : i = .iqdec ∨ i = .process) :
    badByteCount s i.op n = true ↔ s.iqLenOk n = false := by
  rw [iqLenOk_eq_false_iff]
  obtain rfl | rfl := h <;> simp [badByteCount, Instr.op, and_assoc]

section Checks

variable {s : State} {i : Instr} {p : Payload}

theorem exec_of_not_wellFormed (hw : i.wellFormed = false) : exec i s = .next (s.takeFault .illegalCsr) := by
  cases i with
  | csrr n => exact exec_csrr_reserved (Nat.lt_of_not_le (of_decide_eq_false hw))
  | csrw n => exact exec_csrw_notWritable (Nat.lt_of_not_le (of_decide_eq_false hw))
  | encode | iqdec | fmdemod | squelch | deemph | resample | process | rstate => cases hw

theorem exec_of_unsuited (hw : i.wellFormed = true)
    (h : s.payload.kind ≠ i.expects ∨ s.payload.fits s.maxLen = false) :
    exec i s = .next (s.takeFault .operandFormat) := by
  cases i with
  | encode o => exact exec_encode_otherPayload o (unsuited_word h)
  | iqdec => exact exec_iqdec_otherPayload h
  | fmdemod => exact exec_fmdemod_otherPayload h
  | squelch => exact exec_squelch_otherPayload h
  | deemph => exact exec_deemph_otherPayload h
  | resample => exact exec_resample_otherPayload h
  | process => exact exec_process_otherPayload h
  | rstate => exact exec_rstate_otherPayload (unsuited_none h)
  | csrr n =>
    obtain ⟨r, rfl⟩ := exists_csr (of_decide_eq_true hw)
    exact exec_csrr_otherPayload r (unsuited_none h)
  | csrw n =>
    obtain ⟨r, rfl, hr⟩ := exists_writable (of_decide_eq_true hw)
    exact exec_csrw_otherPayload hr (unsuited_word h)

theorem exec_of_rateMissing (hk : s.payload.kind = i.expects) (hf : s.payload.fits s.maxLen = true)
    (hr : rateMissing s i.op = true) : exec i s = .next (s.takeFault .config) := by
  cases i with
  | deemph => exact exec_deemph_withoutRate hk hf ((rateMissing_deemph s).1 hr)
  | resample => exact exec_resample_withoutRate hk hf ((rateMissing_both s (.inl rfl)).1 hr)
  | process => exact exec_process_withoutRate hk hf ((rateMissing_both s (.inr rfl)).1 hr)
  | encode | iqdec | fmdemod | squelch | rstate | csrr | csrw => cases hr

theorem exec_of_badByteCount (hp : s.payload = p) (hk : p.kind = i.expects) (hf : p.fits s.maxLen = true)
    (hr : ¬ rateMissing s i.op = true) (hl : badByteCount s i.op p.length = true) :
    exec i s = .next (s.takeFault .streamIntegrity) := by
  cases i with
  | iqdec =>
    match p, hk with
    | .bytes b, _ => exact exec_iqdec_otherLength hp hf ((badByteCount_iff s _ (.inl rfl)).1 hl)
  | process =>
    match p, hk with
    | .bytes b, _ =>
      obtain ⟨hin, hout⟩ := not_or.1 (mt (rateMissing_both s (.inr rfl)).2 hr)
      exact exec_process_otherLength hp hf hin hout ((badByteCount_iff s _ (.inr rfl)).1 hl)
  | encode | fmdemod | squelch | deemph | resample | rstate | csrr | csrw => cases hl

/-- A command that every check passes completes. -/
theorem exec_completes (hw : i.wellFormed = true) (hp : s.payload = p) (hk : p.kind = i.expects)
    (hf : p.fits s.maxLen = true) (hr : ¬ rateMissing s i.op = true) (hl : ¬ badByteCount s i.op p.length = true) :
    ∃ u q, Completes s i u ∧ exec i s = .next (u.respond (.ok q)) :=
  match i, p, hk with
  | .encode o, .word v, _ => ⟨_, _, .encode o, exec_encode_word o hp⟩
  | .iqdec, .bytes b, _ =>
    ⟨_, _, .iqdec, exec_iqdec_accepted hp hf (Bool.of_not_eq_false (mt (badByteCount_iff s _ (.inl rfl)).2 hl))⟩
  | .fmdemod, .iq x, _ => ⟨_, _, .fmdemod x, exec_fmdemod_accepted hp hf⟩
  | .squelch, .f32 x, _ => ⟨_, _, .squelch, exec_squelch_accepted hp hf⟩
  | .deemph, .f32 x, _ => ⟨_, _, .deemph x, exec_deemph_accepted hp hf (mt (rateMissing_deemph s).2 hr)⟩
  | .resample, .f32 x, _ => by
    obtain ⟨hin, hout⟩ := not_or.1 (mt (rateMissing_both s (.inl rfl)).2 hr)
    exact ⟨_, _, .resample x hin hout, exec_resample_accepted hp hf hin hout⟩
  | .process, .bytes b, _ => by
    obtain ⟨hin, hout⟩ := not_or.1 (mt (rateMissing_both s (.inr rfl)).2 hr)
    have hlen := Bool.of_not_eq_false (mt (badByteCount_iff s _ (.inr rfl)).2 hl)
    exact ⟨_, _, .process b hin hout, exec_process_accepted hp hf hin hout hlen⟩
  | .rstate, .none, _ => ⟨_, _, .rstate, exec_rstate_none hp⟩
  | .csrr n, .none, _ => by
    obtain ⟨r, rfl⟩ := exists_csr (of_decide_eq_true hw)
    exact ⟨_, _, .csrr _, exec_csrr_number r hp⟩
  | .csrw n, .word v, _ => by
    obtain ⟨r, rfl, hwr⟩ := exists_writable (of_decide_eq_true hw)
    exact ⟨_, _, .csrw r v hwr, exec_csrw_word hwr hp⟩

end Checks

/-! ### A command reports its first fault (R301 to R304) -/

section FirstFault

variable {s : State} {c : Command} {rest : List HostInput}

/-- The two ends of a legal command, by the checks in their order: the first that fails is the fault it takes. -/
theorem exec_by_firstFault (i : Instr) (s : State) :
    (∃ code, firstFault s ⟨encode i, s.payload⟩ = some code ∧ exec i s = .next (s.takeFault code)) ∨
    (firstFault s ⟨encode i, s.payload⟩ = none ∧
      ∃ u p, Completes s i u ∧ exec i s = .next (u.respond (.ok p))) := by
  rw [firstFault_encode]
  split_ifs with hw hbad hr hl
  · exact .inl ⟨_, rfl, exec_of_not_wellFormed hw⟩
  · exact .inl ⟨_, rfl, exec_of_unsuited (Bool.of_not_eq_false hw) hbad⟩
  all_goals
    obtain ⟨hkind, hfit⟩ := not_or.1 hbad
    have hk := not_not.1 hkind
    have hf := Bool.of_not_eq_false hfit
  · exact .inl ⟨_, rfl, exec_of_rateMissing hk hf hr⟩
  · exact .inl ⟨_, rfl, exec_of_badByteCount rfl hk hf hr hl⟩
  · exact .inr ⟨rfl, exec_completes (Bool.of_not_eq_false hw) rfl hk hf hr hl⟩

/-- The same for the command on the port, its word legal or not. -/
theorem step_by_firstFault (h : s.hostIn = .command c :: rest) :
    (∃ code, firstFault s c = some code ∧ step s = .next (s.takeFault code)) ∨
    (firstFault s c = none ∧
      ∃ i u p, decodeWord c.word = .ok i ∧ Completes s i u ∧ step s = .next (u.respond (.ok p))) := by
  cases hd : decodeWord c.word with
  | error e => exact .inl ⟨_, firstFault_of_illegal hd, step_command_illegal h hd⟩
  | ok i =>
    have hc : c = ⟨encode i, s.payload⟩ := by rw [← eq_encode_of_decodeWord hd, s.payload_command c rest h]
    rw [step_command_ok h hd, hc]
    obtain hfault | ⟨hnone, u, p, hu, hx⟩ := exec_by_firstFault i s
    · exact .inl hfault
    · exact .inr ⟨hnone, i, u, p, rfl, hu, hx⟩

theorem step_of_firstFault_some {code : FaultCode} (h : s.hostIn = .command c :: rest)
    (hf : firstFault s c = some code) : step s = .next (s.takeFault code) := by
  obtain ⟨code', hf', hx⟩ | ⟨hf', -⟩ := step_by_firstFault h
  · cases hf.symm.trans hf'
    exact hx
  · cases hf.symm.trans hf'

theorem step_of_firstFault_none (h : s.hostIn = .command c :: rest) (hf : firstFault s c = none) :
    ∃ i u p, decodeWord c.word = .ok i ∧ Completes s i u ∧ step s = .next (u.respond (.ok p)) := by
  obtain ⟨code, hf', -⟩ | ⟨-, hx⟩ := step_by_firstFault h
  · cases hf.symm.trans hf'
  · exact hx

end FirstFault

/-- Settles O34: the fault that is due is taken; a command that is due none completes, and answers once. -/
theorem everyCommandReportsItsFirstFault : Obligations.EveryCommandReportsItsFirstFault := by
  refine fun s c rest h => ⟨fun code hf => ?_, fun hf => ?_⟩
  · rw [step_of_firstFault_some h hf, State.takeFault_eq, h, List.tail_cons]
  · obtain ⟨i, u, p, -, hu, hx⟩ := step_of_firstFault_none h hf
    obtain ⟨-, hport, hresp⟩ := hu.frame
    exact ⟨_, p, hx, by rw [State.respond_responses, hresp], by rw [State.respond_hostIn, hport, h, List.tail_cons]⟩

/-! ### STATUS (R302, R317) -/

/-- Of the commands that complete, CSRW STATUS alone writes STATUS. -/
theorem Completes.status {s u : State} {i : Instr} (h : Completes s i u) :
    u.status = if i = .csrw 0x05 then Status.clear else s.status := by
  cases h with
  | encode | iqdec | squelch | deemph | rstate | csrr => rfl
  | fmdemod x => rw [fmdemodBody_state]; rfl
  | resample x => rw [resampleBody_state]; rfl
  | process b => rw [processBody_state]; rfl
  | csrw r v => cases r <;> rfl

/-- Settles O38: the fault that is due by the latch, a completed command by what it writes, the rest by the step. -/
theorem statusChangesOnlyByFaultClearOrReset : Obligations.StatusChangesOnlyByFaultClearOrReset := by
  intro s t hs
  refine ⟨fun c rest code h hf => ?_, fun c rest h hf => ?_, fun rest h => ?_, fun c rest h => ?_, fun h => ?_⟩
  · obtain rfl := Host.Outcome.next.inj ((step_of_firstFault_some h hf).symm.trans hs)
    rw [State.takeFault_status]
    split
    case isTrue hl => exact Status.onFault_later code hl
    case isFalse hl => exact Status.onFault_first code (Bool.of_not_eq_true hl)
  · obtain ⟨i, u, p, hd, hu, hx⟩ := step_of_firstFault_none h hf
    obtain rfl := Host.Outcome.next.inj (hx.symm.trans hs)
    simp only [State.respond_status, hu.status, hd, Except.ok.injEq]
    rfl
  · obtain rfl := Host.Outcome.next.inj ((step_reset h).symm.trans hs)
    rfl
  · obtain rfl := Host.Outcome.next.inj ((step_resetDuring h).symm.trans hs)
    rfl
  · rw [Host.Outcome.next.inj ((step_idle h).symm.trans hs)]

/-- A command other than CSRW STATUS leaves FAULT at 0 exactly when it was 0 and the answer is `Ok`. -/
theorem step_fault_iff {s t : State} {c : Command} {rest : List HostInput} (h : s.hostIn = .command c :: rest)
    (hc : decodeWord c.word ≠ .ok (.csrw 0x05)) (hs : step s = .next t) :
    ∃ r, t.responses = s.responses ++ [r] ∧
      (t.status.fault = false ↔ s.status.fault = false ∧ r.isOk = true) := by
  obtain ⟨code, -, hx⟩ | ⟨-, i, u, p, hd, hu, hx⟩ := step_by_firstFault h <;>
    obtain rfl := Host.Outcome.next.inj (hx.symm.trans hs)
  · exact ⟨.fault code, rfl, by simp [Response.isOk]⟩
  · obtain ⟨-, -, hresp⟩ := hu.frame
    have hi : i ≠ .csrw 0x05 := fun h0 => hc (h0 ▸ hd)
    exact ⟨.ok p, by rw [State.respond_responses, hresp],
      by rw [State.respond_status, hu.status, if_neg hi, Response.isOk, eq_self, and_true]⟩

/-- Over a run, command by command: FAULT is 0 at the end exactly when it was 0 and every answer is `Ok`. -/
theorem run_fault_iff (cs : List Command) : ∀ {s t : State}, s.hostIn = cs.map .command →
    (∀ c ∈ cs, decodeWord c.word ≠ .ok (.csrw 0x05)) → Host.Core.run core cs.length s = .next t →
    ∃ rs, t.responses = s.responses ++ rs ∧
      (t.status.fault = false ↔ s.status.fault = false ∧ ∀ r ∈ rs, r.isOk = true) := by
  induction cs with
  | nil =>
    intro s t _ _ hrun
    obtain rfl := Host.Outcome.next.inj hrun
    exact ⟨[], by simp, by simp⟩
  | cons c cs ih =>
    intro s t h hcs hrun
    obtain ⟨u, hs⟩ := theBlockNeverStops s
    obtain ⟨hport, -⟩ := step_command_port h hs
    obtain ⟨r, hr, hfault⟩ := step_fault_iff h (hcs c (List.mem_cons_self ..)) hs
    obtain ⟨rs, hrs, hrest⟩ := ih hport (fun c' hc' => hcs c' (List.mem_cons_of_mem _ hc'))
      ((run_succ (M := core) cs.length hs).symm.trans hrun)
    exact ⟨r :: rs, by rw [hrs, hr, List.append_assoc]; rfl, by rw [hrest, hfault, List.forall_mem_cons, and_assoc]⟩

/-- Settles O37: the run's answers are those after the ones before it. -/
theorem faultFreeRunIffStatusClear : Obligations.FaultFreeRunIffStatusClear := by
  intro cs s t h hclear hcs hrun
  obtain ⟨rs, hrs, hfault⟩ := run_fault_iff cs h hcs hrun
  rw [hrs, List.drop_left, hfault]
  simp [hclear]

end Sys2Proof.Proofs

/-! Reset, 70_reset_and_hazards.md R340, R341: the value of every register, and RSTATE beside it. -/

namespace Sys2Proof.Proofs

open Sys2Proof Sys2Proof.Machine

/-- The reset input, in both of its forms. -/
theorem step_resetInput {s : State} {r : HostInput} {rest : List HostInput} (h : s.hostIn = r :: rest)
    (hr : r = .reset ∨ ∃ c, r = .resetDuring c) : step s = .next s.takeReset := by
  obtain rfl | ⟨c, rfl⟩ := hr
  · exact step_reset h
  · exact step_resetDuring h

/-- Settles O39: the table by evaluation; the reset input keeps nothing but the model's own fields. -/
theorem resetGivesEveryRegisterItsValue : Obligations.ResetGivesEveryRegisterItsValue := by
  refine ⟨⟨rfl, rfl, rfl, rfl, rfl, rfl, rfl, rfl, rfl, rfl, rfl, rfl, rfl⟩, fun s r rest h hr => ?_⟩
  exact ⟨_, step_resetInput h hr, rfl, by rw [State.takeReset_hostIn, h, List.tail_cons], rfl⟩

/-- Settles O40: field by field, and the RSTATE right after reset by its step. -/
theorem resetAndRstateAgreeOnStreamState : Obligations.ResetAndRstateAgreeOnStreamState := by
  refine ⟨fun s s' t t' rest h hp hs hx => ?_, fun m => ⟨_, step_assemble_rstate rfl, rfl⟩⟩
  obtain rfl := Host.Outcome.next.inj ((step_reset h).symm.trans hs)
  obtain rfl := Host.Outcome.next.inj ((exec_rstate_none hp).symm.trans hx)
  simp [Status.clear]

/-- Settles O42: a block just reset is as the reset input leaves it. -/
theorem theInvariantHoldsAtReset : Obligations.TheInvariantHoldsAtReset := inv_takeReset State.reset

end Sys2Proof.Proofs
